-- ==== Sys2Proof/Word.lean ====
section
/-! DEFINITION. Word.lean: the word types of the block (R8, R10, R71) and nothing else. -/

namespace Sys2Proof

/-- `u8`: an element of every buffer, a field element, a byte operand (R10, R130). -/
abbrev Byte := BitVec 8

/-- `u16`: a half-word operand and one value of the output stream (`OUTW` = 16, R8, R35). -/
abbrev Half := BitVec 16

/-- A command word (`CMDW` = 32, R8, R70). -/
abbrev Word := BitVec 32

end Sys2Proof
end

