-- ==== Sys2Proof/Syntax.lean ====
section
/-! DEFINITION. Syntax.lean: the commands, one constructor per row of spec/opcode_table.json (R74), with the
operands of R75, and the reasons a word is no command (R77). -/

namespace Sys2Proof

/-- The five formats of a command word (R72). -/
inductive Format where
  | z
  | b
  | bb
  | h
  | xy
deriving DecidableEq, Repr

/-- Why a 32-bit word is no command (R77). Executing such a word raises `Fault(ILLEGAL)` whichever it is. -/
inductive Illegal where
  /-- `op` is not one of the 33 values of R74. -/
  | undefinedOpcode
  /-- `op` is defined and a field its format marks "must be 0" is not. -/
  | nonzeroReserved
deriving DecidableEq, Repr

/-- The 33 commands (R74) with their operands (R75). Operands are unsigned fields taken as they stand (R73). -/
inductive Instr where
  -- family 0: control and read-out
  | nop
  | reset
  | pushb (imm8 : Byte)
  | pushd (imm8 : Byte)
  | rdstat
  | rdsize
  | rdtile (x y : Byte)
  | rdcw (imm16 : Half)
  | rddcw (imm16 : Half)
  | rdplen
  | rddlen
  | rdec (s i : Byte)
  -- family 1: field arithmetic
  | gfmul (p q : Byte)
  | gfmula (imm8 : Byte)
  | gfinv (imm8 : Byte)
  | gfexp (imm8 : Byte)
  | gflog (imm8 : Byte)
  | rdgp
  -- family 2: Reed-Solomon datapath
  | rsgen (imm8 : Byte)
  | rsclr
  | rsfeed (imm8 : Byte)
  | rdrem (imm8 : Byte)
  | rdgen (imm8 : Byte)
  -- family 3: QR pipeline
  | select
  | setver (imm8 : Byte)
  | vinfo (v f : Byte)
  | frame
  | ecc
  | ilv
  | paints
  | place
  | fmt
  | generate
deriving DecidableEq, Repr

end Sys2Proof
end

