-- ==== Sys2Proof/Decode.lean ====
section
/-! DEFINITION. Decode.lean: the fields of a command word (R71), the decoder, total on every 32-bit word and
rejecting by name (R76, R77), the encoder written from the same formats (R72, R74), the opcode table as data
(R74), and the operand order of the assembler (R75). -/

namespace Sys2Proof

/-! ## Fields of a word (R71) -/

/-- `op = w[31:24]`. -/
def opField (w : Word) : Byte := w.extractLsb' 24 8
/-- `a = w[23:16]`, reserved in every format. -/
def aField (w : Word) : Byte := w.extractLsb' 16 8
/-- `b = w[15:8]`. -/
def bField (w : Word) : Byte := w.extractLsb' 8 8
/-- `c = w[7:0]`. -/
def cField (w : Word) : Byte := w.extractLsb' 0 8
/-- `imm16 = w[15:0] = {b, c}`. -/
def immField (w : Word) : Half := w.extractLsb' 0 16

/-! ## The decoder -/

/-- Format Z: `a`, `b` and `c` must be 0; no operand (R72). -/
def decodeZ (w : Word) (i : Instr) : Except Illegal Instr :=
  if aField w = 0 ∧ bField w = 0 ∧ cField w = 0 then .ok i else .error .nonzeroReserved

/-- Format B: `a` and `b` must be 0; `imm8 = c` (R72). -/
def decodeB (w : Word) (f : Byte → Instr) : Except Illegal Instr :=
  if aField w = 0 ∧ bField w = 0 then .ok (f (cField w)) else .error .nonzeroReserved

/-- Format BB: `a` must be 0; `p = b`, `q = c` (R72). -/
def decodeBB (w : Word) (f : Byte → Byte → Instr) : Except Illegal Instr :=
  if aField w = 0 then .ok (f (bField w) (cField w)) else .error .nonzeroReserved

/-- Format H: `a` must be 0; one half-word `imm16` (R72). -/
def decodeH (w : Word) (f : Half → Instr) : Except Illegal Instr :=
  if aField w = 0 then .ok (f (immField w)) else .error .nonzeroReserved

/-- Format XY: `a` must be 0; column `x = b`, row `y = c` (R72). -/
def decodeXY (w : Word) (f : Byte → Byte → Instr) : Except Illegal Instr :=
  if aField w = 0 then .ok (f (bField w) (cField w)) else .error .nonzeroReserved

/-- The opcode map of R74. It reads nothing but the word (R76). -/
def decode (w : Word) : Except Illegal Instr :=
  match (opField w).toNat with
  | 0x00 => decodeZ w .nop
  | 0x01 => decodeZ w .reset
  | 0x02 => decodeB w .pushb
  | 0x03 => decodeB w .pushd
  | 0x04 => decodeZ w .rdstat
  | 0x05 => decodeZ w .rdsize
  | 0x06 => decodeXY w .rdtile
  | 0x07 => decodeH w .rdcw
  | 0x08 => decodeH w .rddcw
  | 0x09 => decodeZ w .rdplen
  | 0x0A => decodeZ w .rddlen
  | 0x0B => decodeBB w .rdec
  | 0x10 => decodeBB w .gfmul
  | 0x11 => decodeB w .gfmula
  | 0x12 => decodeB w .gfinv
  | 0x13 => decodeB w .gfexp
  | 0x14 => decodeB w .gflog
  | 0x15 => decodeZ w .rdgp
  | 0x20 => decodeB w .rsgen
  | 0x21 => decodeZ w .rsclr
  | 0x22 => decodeB w .rsfeed
  | 0x23 => decodeB w .rdrem
  | 0x24 => decodeB w .rdgen
  | 0x30 => decodeZ w .select
  | 0x31 => decodeB w .setver
  | 0x32 => decodeBB w .vinfo
  | 0x33 => decodeZ w .frame
  | 0x34 => decodeZ w .ecc
  | 0x35 => decodeZ w .ilv
  | 0x36 => decodeZ w .paints
  | 0x37 => decodeZ w .place
  | 0x38 => decodeZ w .fmt
  | 0x3F => decodeZ w .generate
  | _ => .error .undefinedOpcode

/-- The decoder's answer on a word given as a number, bit 0 its least significant bit. A command is one 32-bit
value on the command port and has no byte order (R60(c), R70); bits above `nbits` are 0. -/
def decodeTableWord (nbits w : Nat) : Option Instr :=
  match decode (BitVec.ofNat 32 (w % 2 ^ nbits)) with
  | .ok i => some i
  | .error _ => none

/-! ## The encoder -/

/-- The word `{op, a, b, c}` with the reserved field `a` = 0 (R71). -/
def packWord (op b c : Byte) : Word := op ++ 0#8 ++ b ++ c

/-- The word `{op, 0, imm16}` (R71, format H). -/
def packHalf (op : Byte) (imm16 : Half) : Word := op ++ 0#8 ++ imm16

/-- The opcode byte of each command (R74). -/
def Instr.opcode : Instr → Byte
  | .nop => 0x00
  | .reset => 0x01
  | .pushb _ => 0x02
  | .pushd _ => 0x03
  | .rdstat => 0x04
  | .rdsize => 0x05
  | .rdtile _ _ => 0x06
  | .rdcw _ => 0x07
  | .rddcw _ => 0x08
  | .rdplen => 0x09
  | .rddlen => 0x0A
  | .rdec _ _ => 0x0B
  | .gfmul _ _ => 0x10
  | .gfmula _ => 0x11
  | .gfinv _ => 0x12
  | .gfexp _ => 0x13
  | .gflog _ => 0x14
  | .rdgp => 0x15
  | .rsgen _ => 0x20
  | .rsclr => 0x21
  | .rsfeed _ => 0x22
  | .rdrem _ => 0x23
  | .rdgen _ => 0x24
  | .select => 0x30
  | .setver _ => 0x31
  | .vinfo _ _ => 0x32
  | .frame => 0x33
  | .ecc => 0x34
  | .ilv => 0x35
  | .paints => 0x36
  | .place => 0x37
  | .fmt => 0x38
  | .generate => 0x3F

/-- The word of a command (R72, R73, R74). -/
def encode (i : Instr) : Word :=
  match i with
  | .pushb k | .pushd k | .gfmula k | .gfinv k | .gfexp k | .gflog k | .rsgen k | .rsfeed k | .rdrem k
  | .rdgen k | .setver k => packWord i.opcode 0 k
  | .rdtile x y => packWord i.opcode x y
  | .rdec p q | .gfmul p q | .vinfo p q => packWord i.opcode p q
  | .rdcw k | .rddcw k => packHalf i.opcode k
  | .nop | .reset | .rdstat | .rdsize | .rdplen | .rddlen | .rdgp | .rsclr | .select | .frame | .ecc | .ilv
  | .paints | .place | .fmt | .generate => packWord i.opcode 0 0

/-! ## The opcode table as data (R74) -/

/-- One row of R74's map. `matchBits` is the word with all operands zero. -/
structure OpcodeRow where
  mnemonic : String
  format : Format
  matchBits : Word
deriving DecidableEq, Repr

/-- The decode mask of a format (R72). -/
def Format.mask : Format → Word
  | .z => 0xFFFFFFFF
  | .b => 0xFFFFFF00
  | .bb => 0xFFFF0000
  | .h => 0xFFFF0000
  | .xy => 0xFFFF0000

/-- A word decodes to the row where `(w & mask) == match` (R74). -/
def OpcodeRow.covers (r : OpcodeRow) (w : Word) : Bool := w &&& r.format.mask == r.matchBits

/-- R74, families 0 and 1, in the table's order. -/
def opcodeRowsLow : List OpcodeRow :=
  [⟨"NOP", .z, 0x00000000⟩, ⟨"RESET", .z, 0x01000000⟩, ⟨"PUSHB", .b, 0x02000000⟩, ⟨"PUSHD", .b, 0x03000000⟩,
   ⟨"RDSTAT", .z, 0x04000000⟩, ⟨"RDSIZE", .z, 0x05000000⟩, ⟨"RDTILE", .xy, 0x06000000⟩,
   ⟨"RDCW", .h, 0x07000000⟩, ⟨"RDDCW", .h, 0x08000000⟩, ⟨"RDPLEN", .z, 0x09000000⟩,
   ⟨"RDDLEN", .z, 0x0A000000⟩, ⟨"RDEC", .bb, 0x0B000000⟩, ⟨"GFMUL", .bb, 0x10000000⟩,
   ⟨"GFMULA", .b, 0x11000000⟩, ⟨"GFINV", .b, 0x12000000⟩, ⟨"GFEXP", .b, 0x13000000⟩,
   ⟨"GFLOG", .b, 0x14000000⟩, ⟨"RDGP", .z, 0x15000000⟩]

/-- R74, families 2 and 3, in the table's order. -/
def opcodeRowsHigh : List OpcodeRow :=
  [⟨"RSGEN", .b, 0x20000000⟩, ⟨"RSCLR", .z, 0x21000000⟩, ⟨"RSFEED", .b, 0x22000000⟩,
   ⟨"RDREM", .b, 0x23000000⟩, ⟨"RDGEN", .b, 0x24000000⟩, ⟨"SELECT", .z, 0x30000000⟩,
   ⟨"SETVER", .b, 0x31000000⟩, ⟨"VINFO", .bb, 0x32000000⟩, ⟨"FRAME", .z, 0x33000000⟩,
   ⟨"ECC", .z, 0x34000000⟩, ⟨"ILV", .z, 0x35000000⟩, ⟨"PAINTS", .z, 0x36000000⟩,
   ⟨"PLACE", .z, 0x37000000⟩, ⟨"FMT", .z, 0x38000000⟩, ⟨"GENERATE", .z, 0x3F000000⟩]

/-- The complete map of R74: 33 rows. -/
def opcodeRows : List OpcodeRow := opcodeRowsLow ++ opcodeRowsHigh

/-! ## Mnemonic and operands, in the assembler's order (R75) -/

/-- The mnemonic of a command (R74). -/
def Instr.mnemonic : Instr → String
  | .nop => "NOP"
  | .reset => "RESET"
  | .pushb _ => "PUSHB"
  | .pushd _ => "PUSHD"
  | .rdstat => "RDSTAT"
  | .rdsize => "RDSIZE"
  | .rdtile _ _ => "RDTILE"
  | .rdcw _ => "RDCW"
  | .rddcw _ => "RDDCW"
  | .rdplen => "RDPLEN"
  | .rddlen => "RDDLEN"
  | .rdec _ _ => "RDEC"
  | .gfmul _ _ => "GFMUL"
  | .gfmula _ => "GFMULA"
  | .gfinv _ => "GFINV"
  | .gfexp _ => "GFEXP"
  | .gflog _ => "GFLOG"
  | .rdgp => "RDGP"
  | .rsgen _ => "RSGEN"
  | .rsclr => "RSCLR"
  | .rsfeed _ => "RSFEED"
  | .rdrem _ => "RDREM"
  | .rdgen _ => "RDGEN"
  | .select => "SELECT"
  | .setver _ => "SETVER"
  | .vinfo _ _ => "VINFO"
  | .frame => "FRAME"
  | .ecc => "ECC"
  | .ilv => "ILV"
  | .paints => "PAINTS"
  | .place => "PLACE"
  | .fmt => "FMT"
  | .generate => "GENERATE"

/-- The operands of a command in the order of R75. -/
def Instr.operands : Instr → List Nat
  | .pushb k | .pushd k | .gfmula k | .gfinv k | .gfexp k | .gflog k | .rsgen k | .rsfeed k | .rdrem k
  | .rdgen k | .setver k => [k.toNat]
  | .rdtile x y => [x.toNat, y.toNat]
  | .rdec p q | .gfmul p q | .vinfo p q => [p.toNat, q.toNat]
  | .rdcw k | .rddcw k => [k.toNat]
  | .nop | .reset | .rdstat | .rdsize | .rdplen | .rddlen | .rdgp | .rsclr | .select | .frame | .ecc | .ilv
  | .paints | .place | .fmt | .generate => []

end Sys2Proof
end

