-- ==== Sys2Proof/Config.lean ====
section
/-! DEFINITION. Config.lean: the fixed parameters of the block (R7, R8) and the shape of the `VersionInfo`
record (R110). The spec leaves no parameter open (R9): there is no free value and no opaque constant. The
tables themselves are in Machine/VersionTable.lean and Machine/MatrixPainter.lean. -/

namespace Sys2Proof

/-- `VMIN`, the smallest supported version (R8). -/
@[simp] def Config.vMin : Nat := 1
/-- `VMAX`, the largest supported version (R8). -/
@[simp] def Config.vMax : Nat := 26
/-- `PAYMAX`, payload buffer capacity (R8). -/
@[simp] def Config.payMax : Nat := 1059
/-- `DCWMAX`, data codeword buffer capacity (R8). -/
@[simp] def Config.dcwMax : Nat := 1062
/-- `ICWMAX`, interleaved codeword buffer capacity (R8). -/
@[simp] def Config.icwMax : Nat := 1706
/-- `NSMAX`, the largest number of segments (R8). -/
@[simp] def Config.nsMax : Nat := 23
/-- `NECMAX`, the largest parity length of the datapath (R8). -/
@[simp] def Config.necMax : Nat := 30
/-- `SIZEMAX`, the largest grid side (R8). -/
@[simp] def Config.sizeMax : Nat := 121
/-- `GRIDMAX`, grid buffer capacity in tiles (R8). -/
@[simp] def Config.gridMax : Nat := 14641

/-- The stored fields of the `VersionInfo` record (R110); `…1` is the source's suffix `_1` (group 1). -/
structure VersionInfo where
  version : Nat
  size : Nat
  totalBytes : Nat
  groupBytes : Nat
  numSegments : Nat
  segmentDataBytes : Nat
  groupBytes1 : Nat
  numSegments1 : Nat
  segmentDataBytes1 : Nat
deriving DecidableEq, Repr

end Sys2Proof
end

