-- ==== Sys2Proof/Machine/State.lean ====
section
/-! DEFINITION. Machine/State.lean: every piece of state of R20 to R39 and R50 as plain data, the state after
reset (R39), and the reasons a step stops. -/

namespace Sys2Proof.Machine

/-- One private space of R50: (index, byte) cells, indices strictly rising, no cell equal to what an unlisted
index reads as (`Memory.wf`, Machine/Ops.lean). -/
abbrev Memory := List Host.Cell

/-- The causes of `raise Fault(cause)` (R213). -/
inductive Cause where
  /-- The word is not a legal encoding. -/
  | illegal
  /-- Legal, but not at this point of the sequence. -/
  | seq
  /-- An operand value the command does not accept, whatever the state. -/
  | operand
  /-- An index outside the currently valid part of a buffer. -/
  | bounds
  /-- Inverse or logarithm of the field's zero. -/
  | gfzero
  /-- An internal consistency check failed. -/
  | invariant
deriving DecidableEq, Repr

/-- The state of the block, with the host's command stream beside it (log entry 1). -/
structure State where
  /-- `GP`, the GF(2^8) accumulator (R22). -/
  gp : Byte
  /-- `NEC`, degree of the loaded generator, 0 none (R23). -/
  nec : BitVec 5
  /-- `GEN[0..30]`, `GEN[j]` the coefficient of `x^j` (R23). -/
  gen : Vector Byte 31
  /-- `REM[0..29]`, `REM[0]` the highest-order coefficient (R23). -/
  rem : Vector Byte 30
  /-- `PLEN`, payload bytes pushed, saturating at 1060 (R25). -/
  plen : BitVec 11
  /-- `VER`, the selected version, 0 none (R25). -/
  ver : BitVec 5
  /-- `DLEN`, valid bytes in `DCW` (R25). -/
  dlen : BitVec 11
  /-- `SIZE`, side of the grid held, 0 none (R25). -/
  size : BitVec 7
  /-- `STAGE`, pipeline progress (R29). -/
  stage : BitVec 3
  /-- `VALID` (R27). -/
  valid : Bool
  /-- `ERR` (R28). -/
  err : Bool
  /-- `FAULT`, sticky (R30). -/
  fault : Bool
  /-- `FCAUSE`, 0 when `FAULT` = 0 (R30, R213). -/
  fcause : BitVec 4
  /-- `PAY[i]`, payload bytes (R51). -/
  pay : Memory
  /-- `DCW[i]`, data codewords in segment order (R52). -/
  dcw : Memory
  /-- `ECW[s][i]`, parity byte `i` of segment `s`, at index `30*s + i` (R53, log entry 15). -/
  ecw : Memory
  /-- `ICW[i]`, interleaved codewords (R54). -/
  icw : Memory
  /-- `GRID[i]`, tiles in row-major order (R55). -/
  grid : Memory
  /-- `OUT`, every value emitted, oldest first (R35). -/
  out : List Half
  /-- `pc`, index of the next word of the command stream (R24). -/
  pc : Nat
  /-- The host's command stream: the MODEL's own field, no part of the block (R21, log entry 1). -/
  cmds : List Word
deriving DecidableEq, Repr

/-- Why a step has no next state. No command of the block stops the machine: `raise Fault` and CapacityExceeded
are next states (R210). -/
inductive Fault where
  /-- Raised by `step` alone, when the host's stream holds no word at `pc`: the run has ended (R24) and the block
  waits (R233). Safe: no claim about a next state can be drawn from it (log entry 2). -/
  | streamEnded
deriving DecidableEq, Repr

/-- Why an instruction has no meaning. Nothing of this model answers it: every command is modelled. -/
inductive Refusal where
  /-- An arm of `exec` that has no meaning yet, by mnemonic. Safe. -/
  | notModelled (mnemonic : String)
deriving DecidableEq, Repr

/-- The state right after hardware reset (R39, R231): every register 0, every space unlisted, `OUT` empty, `pc` 0.
`GEN`, `REM` and the five spaces are unspecified and unreadable there; the zeros are this model's choice (log
entries 4 and 5), and so is the empty command stream (log entries 1 and 3). -/
def State.reset : State where
  gp := 0
  nec := 0
  gen := ⟨#[0, 0, 0, 0, 0, 0, 0, 0, 0, 0, 0, 0, 0, 0, 0, 0, 0, 0, 0, 0, 0, 0, 0, 0, 0, 0, 0, 0, 0, 0, 0], rfl⟩
  rem := ⟨#[0, 0, 0, 0, 0, 0, 0, 0, 0, 0, 0, 0, 0, 0, 0, 0, 0, 0, 0, 0, 0, 0, 0, 0, 0, 0, 0, 0, 0, 0], rfl⟩
  plen := 0
  ver := 0
  dlen := 0
  size := 0
  stage := 0
  valid := false
  err := false
  fault := false
  fcause := 0
  pay := []
  dcw := []
  ecw := []
  icw := []
  grid := []
  out := []
  pc := 0
  cmds := []

end Sys2Proof.Machine
end

