-- ==== Sys2Proof/Machine/Ops.lean ====
section
/-! DEFINITION. Machine/Ops.lean: the shared operations: one private space of R50, the register files of R23,
`emit` (R13, R35), taking a fault and leaving the faulted state (R212, R217, R218), CapacityExceeded (R211),
`restart()` (R38), and running a command (R24, R214, R215). -/

namespace Sys2Proof.Machine

/-! ## A private space (R50) -/

/-- What an index that no cell lists reads as: the contents after reset are unspecified and no command can read
them (R31, R39), so any byte will do; 0 is this model's choice (log entry 5). -/
def unlisted : Byte := 0

/-- `S[i]` (R13). -/
def Memory.read : Memory → Nat → Byte
  | [], _ => unlisted
  | (a, v) :: rest, i => if a = i then v else Memory.read rest i

/-- The cells that say index `i` holds `v`: none when an unlisted index reads so already. -/
def Memory.cells (i : Nat) (v : Byte) : Memory := if v = unlisted then [] else [(i, v)]

/-- `S[i] <- v` (R13), keeping the canonical form: writing what an unlisted index reads as removes the cell. -/
def Memory.write (m : Memory) (i : Nat) (v : Byte) : Memory :=
  match m with
  | [] => Memory.cells i v
  | c :: rest =>
    if c.1 < i then c :: Memory.write rest i v
    else Memory.cells i v ++ (if c.1 = i then rest else c :: rest)

/-- Writes in list order, a later one over an earlier one. -/
def Memory.writeMany (m : Memory) (ws : List Host.Cell) : Memory :=
  ws.foldl (fun m w => m.write w.1 w.2) m

/-- The canonical cells of a list of bytes laid from index `i` on. -/
def Memory.lay : Nat → List Byte → Memory
  | _, [] => []
  | i, v :: rest => Memory.cells i v ++ Memory.lay (i + 1) rest

/-- `S[i .. i+length-1] <- vs`: the whole range is written, everything outside it is kept. -/
def Memory.writeRange (m : Memory) (i : Nat) (vs : List Byte) : Memory :=
  m.filter (fun c => decide (c.1 < i)) ++ Memory.lay i vs
    ++ m.filter (fun c => decide (i + vs.length ≤ c.1))

/-- `S[i .. i+k-1]` as a list. -/
def Memory.readRange (m : Memory) (i k : Nat) : List Byte :=
  (List.range k).map fun j => m.read (i + j)

/-- The canonical form: indices strictly rising, no cell equal to what an unlisted index reads as. -/
def Memory.wf : Memory → Bool
  | [] => true
  | [(_, v)] => decide (v ≠ unlisted)
  | (a, v) :: (b, w) :: rest => decide (v ≠ unlisted) && decide (a < b) && Memory.wf ((b, w) :: rest)

/-! ## A register file of `n` bytes (R23) -/

/-- Entry `i` of a register file. -/
def regRead {n : Nat} (r : Vector Byte n) (i : Nat) : Byte := r.toList.getD i 0

/-- Entries `0 .. k-1` of a register file. -/
def regPrefix {n : Nat} (r : Vector Byte n) (k : Nat) : List Byte := r.toList.take k

/-- Entries `0 .. length-1` written from the list; the others keep their values. -/
def regLoad {n : Nat} (r : Vector Byte n) (vs : List Byte) : Vector Byte n :=
  ⟨⟨(List.range n).map fun i => if i < vs.length then vs.getD i 0 else regRead r i⟩, by simp⟩

/-! ## Output, faults, errors -/

/-- `emit(v)`: append to `OUT` (R13, R35). -/
def State.emit (s : State) (v : Half) : State := { s with out := s.out ++ [v] }

/-- The code of a cause (R213). -/
def Cause.code : Cause → BitVec 4
  | .illegal => 1
  | .seq => 2
  | .operand => 3
  | .bounds => 4
  | .gfzero => 5
  | .invariant => 6

/-- TAKING A FAULT, `raise Fault(cause)` (R212, R217): `FAULT` and `FCAUSE` are written and nothing else; no
program counter is saved, no mode changes, no vector is computed. -/
def State.raiseFault (s : State) (c : Cause) : State := { s with fault := true, fcause := c.code }

/-- LEAVING THE FAULTED STATE: there is no return from a fault but `RESET` (R218), which gives the hardware reset
state in every field but `OUT` and `pc` (R91, R232); the host keeps its stream. What R91 leaves unspecified
(`GEN`, `REM`, the five spaces) takes the values of State.reset (log entry 6). -/
def State.clear (s : State) : State := { State.reset with out := s.out, pc := s.pc, cmds := s.cmds }

/-- `raise CapacityExceeded` (R211): `ERR <- 1` on the state that `restart()` left. -/
def State.capacityExceeded (s : State) : State := { s with err := true }

/-- `restart()` (R38): a new encode begins. The buffers need no clearing and keep their contents, which no command
can read (R38, R243, log entry 7). -/
def State.restart (s : State) : State :=
  { s with ver := 0, stage := 0, dlen := 0, size := 0, valid := false, err := false }

/-- `pc <- pc + 1`, the end of every command (R24). -/
def State.advance (s : State) : State := { s with pc := s.pc + 1 }

/-! ## Running a command -/

/-- What a command's pseudocode gives: the state at its end, or the cause of the fault that ended it, in which
case none of its writes happen (R212). -/
abbrev Body := State → Except Cause State

/-- The state in which a command that is not skipped ends, before `pc` advances (R210). -/
def settle (b : Body) (s : State) : State :=
  match b s with
  | .ok t => t
  | .error c => s.raiseFault c

/-- A command that is skipped while `FAULT` = 1 (R214, R215 step 1); `pc` advances in every case (R24). -/
def runGuarded (b : Body) (s : State) : Host.Outcome State Fault Refusal :=
  .next (if s.fault then s else settle b s).advance

/-- A command that also acts while `FAULT` = 1: `RESET` and `RDSTAT` (R214). -/
def runAlways (b : Body) (s : State) : Host.Outcome State Fault Refusal :=
  .next (settle b s).advance

/-- A word that is no command (R77): `Fault(ILLEGAL)`, or skipped while `FAULT` = 1 (R214). -/
def runIllegal (s : State) : Host.Outcome State Fault Refusal :=
  runGuarded (fun _ => .error .illegal) s

/-! ## The command stream -/

/-- The command word at `pc`; none when the run has ended (R24). -/
def State.fetch (s : State) : Option Word := s.cmds[s.pc]?

/-- The stream with `w` at index `k`; indices the host has not filled hold `NOP`. -/
def placeWord (cmds : List Word) (k : Nat) (w : Word) : List Word :=
  cmds.take k ++ List.replicate (k - cmds.length) 0 ++ w :: cmds.drop (k + 1)

/-- Hardware reset, after which the host presents `cmds` from the start (R231, R233, log entry 3). -/
def State.boot (cmds : List Word) : State := { State.reset with cmds := cmds }

end Sys2Proof.Machine
end

