-- ==== Sys2Proof/Machine/Flags.lean ====
section
/-! DEFINITION. Machine/Flags.lean: the status word (R26) and the writes of `VALID` and `ERR` (R27, R28). -/

namespace Sys2Proof.Machine

/-- `STATUS = {VER[4:0], STAGE[2:0], FCAUSE[3:0], 0b0, FAULT, ERR, VALID}` (R26): a view, not a register. -/
def State.status (s : State) : Half :=
  s.ver ++ s.stage ++ s.fcause ++ 0#1 ++ BitVec.ofBool s.fault ++ BitVec.ofBool s.err ++ BitVec.ofBool s.valid

/-- The encode is complete: `STAGE <- 7`, `VALID <- 1` (R27, R195). -/
def State.complete (s : State) : State := { s with stage := 7, valid := true }

end Sys2Proof.Machine
end

