-- ==== Sys2Proof/Machine/VersionTable.lean ====
section
/-! DEFINITION. Machine/VersionTable.lean: the `VersionInfo` table and its derived quantities (R113), the segment
layout (R114), the field selector of `VINFO` (R115), the selection rule (R111). The numbers are the spec's, which
marks them as general knowledge (log entry 14). -/

namespace Sys2Proof.Machine

/-- Versions 1 to 13 (R113): version, size, total_bytes, group_bytes, num_segments, segment_data_bytes, and the
group 1 columns. -/
def versionRowsLow : List VersionInfo :=
  [⟨1, 21, 26, 26, 1, 16, 0, 0, 0⟩,
   ⟨2, 25, 44, 44, 1, 28, 0, 0, 0⟩,
   ⟨3, 29, 70, 70, 1, 44, 0, 0, 0⟩,
   ⟨4, 33, 100, 100, 2, 32, 0, 0, 0⟩,
   ⟨5, 37, 134, 134, 2, 43, 0, 0, 0⟩,
   ⟨6, 41, 172, 172, 4, 27, 0, 0, 0⟩,
   ⟨7, 45, 196, 196, 4, 31, 0, 0, 0⟩,
   ⟨8, 49, 242, 120, 2, 38, 122, 2, 39⟩,
   ⟨9, 53, 292, 174, 3, 36, 118, 2, 37⟩,
   ⟨10, 57, 346, 276, 4, 43, 70, 1, 44⟩,
   ⟨11, 61, 404, 80, 1, 50, 324, 4, 51⟩,
   ⟨12, 65, 466, 348, 6, 36, 118, 2, 37⟩,
   ⟨13, 69, 532, 472, 8, 37, 60, 1, 38⟩]

/-- Versions 14 to 26 (R113). -/
def versionRowsHigh : List VersionInfo :=
  [⟨14, 73, 581, 256, 4, 40, 325, 5, 41⟩,
   ⟨15, 77, 655, 325, 5, 41, 330, 5, 42⟩,
   ⟨16, 81, 733, 511, 7, 45, 222, 3, 46⟩,
   ⟨17, 85, 815, 740, 10, 46, 75, 1, 47⟩,
   ⟨18, 89, 901, 621, 9, 43, 280, 4, 44⟩,
   ⟨19, 93, 991, 210, 3, 44, 781, 11, 45⟩,
   ⟨20, 97, 1085, 201, 3, 41, 884, 13, 42⟩,
   ⟨21, 101, 1156, 1156, 17, 42, 0, 0, 0⟩,
   ⟨22, 105, 1258, 1258, 17, 46, 0, 0, 0⟩,
   ⟨23, 109, 1364, 300, 4, 47, 1064, 14, 48⟩,
   ⟨24, 113, 1474, 438, 6, 45, 1036, 14, 46⟩,
   ⟨25, 117, 1588, 600, 8, 47, 988, 13, 48⟩,
   ⟨26, 121, 1706, 1406, 19, 46, 300, 4, 47⟩]

/-- The fixed constant table (R113). -/
def versionTable : List VersionInfo := versionRowsLow ++ versionRowsHigh

/-- `vi(v)`, by a scan of the table; absent if the version is unsupported (R110). -/
def vi (v : Nat) : Option VersionInfo := versionTable.find? fun r => r.version == v

/-- What a pipeline command would read of an absent version: no segment, no capacity. No run reaches it, since
`STAGE` >= 1 implies a supported version (R40(c), log entry 8). -/
def absentVersion : VersionInfo := ⟨0, 0, 0, 0, 0, 0, 0, 0, 0⟩

/-- `vi(VER)` as the pipeline reads it (R56). -/
def info (v : Nat) : VersionInfo := (vi v).getD absentVersion

/-! ## Derived quantities (R113) -/

/-- `size(v)`, a stored field. -/
def gridSide (v : Nat) : Nat := (info v).size
/-- `total_bytes(v)`, a stored field. -/
def totalBytes (v : Nat) : Nat := (info v).totalBytes
/-- `segment_bytes(v) = group_bytes / num_segments`, exact. -/
def segmentBytes (v : Nat) : Nat := (info v).groupBytes / (info v).numSegments
/-- `segment_bytes_1(v)`, not evaluated when group 1 is empty. -/
def segmentBytes1 (v : Nat) : Nat :=
  if 0 < (info v).numSegments1 then (info v).groupBytes1 / (info v).numSegments1 else 0
/-- `segment_ec_bytes(v) = segment_bytes - segment_data_bytes`. -/
def ecBytes (v : Nat) : Nat := segmentBytes v - (info v).segmentDataBytes
/-- `ns(v)`, the number of segments. -/
def ns (v : Nat) : Nat := (info v).numSegments + (info v).numSegments1
/-- `data_bytes(v)`. -/
def dataBytes (v : Nat) : Nat :=
  (info v).numSegments * (info v).segmentDataBytes + (info v).numSegments1 * (info v).segmentDataBytes1
/-- `overhead(v)`: framing bytes. -/
def overhead (v : Nat) : Nat := if v ≤ 9 then 2 else 3
/-- `input_bytes(v) = data_bytes(v) - overhead(v)`. -/
def inputBytes (v : Nat) : Nat := dataBytes v - overhead v

/-! ## Segment layout (R114) -/

/-- `seg_len(v, s)`. -/
def segLen (v s : Nat) : Nat :=
  if s < (info v).numSegments then (info v).segmentDataBytes else (info v).segmentDataBytes1

/-- `seg_off(v, s)`: index in `DCW` of the first data byte of segment `s`. -/
def segOff (v s : Nat) : Nat :=
  if s < (info v).numSegments then s * (info v).segmentDataBytes
  else (info v).numSegments * (info v).segmentDataBytes
    + (s - (info v).numSegments) * (info v).segmentDataBytes1

/-! ## Lookup and selection -/

/-- Field `f` of `vi(v)`, numbered as in R115; none when `f` names no field. -/
def versionField (r : VersionInfo) (f : Nat) : Option Nat :=
  match f with
  | 0 => some r.version
  | 1 => some r.size
  | 2 => some r.totalBytes
  | 3 => some r.groupBytes
  | 4 => some r.numSegments
  | 5 => some r.segmentDataBytes
  | 6 => some r.groupBytes1
  | 7 => some r.numSegments1
  | 8 => some r.segmentDataBytes1
  | 9 => some (ecBytes r.version)
  | 10 => some (dataBytes r.version)
  | 11 => some (inputBytes r.version)
  | _ => none

/-- The smallest supported version whose `input_bytes` holds `n` bytes, smallest first (R111). -/
def selectVersion (n : Nat) : Option Nat :=
  (List.range' 1 26).find? fun v => decide (n ≤ inputBytes v)

end Sys2Proof.Machine
end

