-- ==== Sys2Proof/Machine/Operands.lean ====
section
/-! DEFINITION. Machine/Operands.lean: the operand forms. The one addressing mode is an absolute element index in
the word: `imm16`, the pair `x, y`, the pair `s, i`, or `imm8` into a register file (40_control_io.md, R73). Each
read-out is guarded by `STAGE` or `NEC` first, by the index second (R50, R59, R215); an index is never wrapped. -/

namespace Sys2Proof.Machine

/-- `zext_16` of a value no wider than the output stream (R11, R62). -/
def zext16 {n : Nat} (v : BitVec n) : Half := v.setWidth 16

/-- The index of tile `T(x, y)` in a grid of side `size`: row-major (R55). -/
def tileIndex (size x y : Nat) : Nat := y * size + x

/-- The index at which the model keeps `ECW[s][i]` (log entry 15). -/
def ecwIndex (s i : Nat) : Nat := s * Config.necMax + i

/-- `VER` as the version number the constant functions take. -/
def State.version (s : State) : Nat := s.ver.toNat

/-- The payload the block holds: `PAY[0 .. min(PLEN, 1059)-1]` (R51). -/
def State.payload (s : State) : List Byte := s.pay.readRange 0 (min s.plen.toNat Config.payMax)

/-- Operand pair `x, y` into `GRID` (R97). -/
def State.readTile (s : State) (x y : Nat) : Except Cause Byte :=
  if s.stage.toNat < 5 then .error .seq
  else if s.size.toNat ≤ x ∨ s.size.toNat ≤ y then .error .bounds
  else .ok (s.grid.read (tileIndex s.size.toNat x y))

/-- Operand `imm16` into `ICW` (R98). -/
def State.readIcw (s : State) (i : Nat) : Except Cause Byte :=
  if s.stage.toNat < 4 then .error .seq
  else if totalBytes s.version ≤ i then .error .bounds
  else .ok (s.icw.read i)

/-- Operand `imm16` into `DCW` (R99). -/
def State.readDcw (s : State) (i : Nat) : Except Cause Byte :=
  if s.stage.toNat < 1 then .error .seq
  else if s.dlen.toNat ≤ i then .error .bounds
  else .ok (s.dcw.read i)

/-- Operand pair `s, i` into `ECW` (R100). -/
def State.readEcw (st : State) (s i : Nat) : Except Cause Byte :=
  if st.stage.toNat < 3 then .error .seq
  else if ns st.version ≤ s ∨ ecBytes st.version ≤ i then .error .bounds
  else .ok (st.ecw.read (ecwIndex s i))

/-- Operand `imm8` into `GEN` (R153). -/
def State.readGen (s : State) (j : Nat) : Except Cause Byte :=
  if s.nec = 0 then .error .seq
  else if s.nec.toNat < j then .error .bounds
  else .ok (regRead s.gen j)

/-- Operand `imm8` into `REM` (R154). -/
def State.readRem (s : State) (i : Nat) : Except Cause Byte :=
  if s.nec = 0 then .error .seq
  else if s.nec.toNat ≤ i then .error .bounds
  else .ok (regRead s.rem i)

/-- A read-out command: emit the element read, or raise the fault of the guard that failed; nothing else changes
(R62). -/
def State.emitRead (s : State) (r : Except Cause Byte) : Except Cause State :=
  match r with
  | .ok v => .ok (s.emit (zext16 v))
  | .error c => .error c

end Sys2Proof.Machine
end

