-- ==== Sys2Proof/Machine/Control.lean ====
section
/-! DEFINITION. Machine/Control.lean: control, payload input and read-out commands (40_control_io.md). -/

namespace Sys2Proof.Machine

/-- `NOP` (R90): no effect. -/
def bodyNop : Body := fun s => .ok s

def execNop (s : State) : Host.Outcome State Fault Refusal := runGuarded bodyNop s

/-- `RESET` (R91): the one command that acts fully while `FAULT` = 1. -/
def bodyReset : Body := fun s => .ok s.clear

def execReset (s : State) : Host.Outcome State Fault Refusal := runAlways bodyReset s

/-- `PUSHB imm8` (R92): the byte is stored and `PLEN` advances up to 1059; past that `PLEN` saturates at 1060 and
the byte is dropped. -/
def bodyPushb (imm8 : Byte) : Body := fun s =>
  if s.stage ≠ 0 then .error .seq
  else if s.plen.toNat < Config.payMax then
    .ok { s with pay := s.pay.write s.plen.toNat imm8, plen := s.plen + 1 }
  else .ok { s with plen := 1060 }

def execPushb (imm8 : Byte) (s : State) : Host.Outcome State Fault Refusal := runGuarded (bodyPushb imm8) s

/-- `RDPLEN` (R93). -/
def bodyRdplen : Body := fun s => .ok (s.emit (zext16 s.plen))

def execRdplen (s : State) : Host.Outcome State Fault Refusal := runGuarded bodyRdplen s

/-- `RDDLEN` (R94). -/
def bodyRddlen : Body := fun s => .ok (s.emit (zext16 s.dlen))

def execRddlen (s : State) : Host.Outcome State Fault Refusal := runGuarded bodyRddlen s

/-- `RDSIZE` (R95). -/
def bodyRdsize : Body := fun s => .ok (s.emit (zext16 s.size))

def execRdsize (s : State) : Host.Outcome State Fault Refusal := runGuarded bodyRdsize s

/-- `RDSTAT` (R96): it also acts while `FAULT` = 1, and clears nothing. -/
def bodyRdstat : Body := fun s => .ok (s.emit s.status)

def execRdstat (s : State) : Host.Outcome State Fault Refusal := runAlways bodyRdstat s

/-- `RDTILE x, y` (R97). -/
def bodyRdtile (x y : Byte) : Body := fun s => s.emitRead (s.readTile x.toNat y.toNat)

def execRdtile (x y : Byte) (s : State) : Host.Outcome State Fault Refusal := runGuarded (bodyRdtile x y) s

/-- `RDCW imm16` (R98). -/
def bodyRdcw (imm16 : Half) : Body := fun s => s.emitRead (s.readIcw imm16.toNat)

def execRdcw (imm16 : Half) (s : State) : Host.Outcome State Fault Refusal := runGuarded (bodyRdcw imm16) s

/-- `RDDCW imm16` (R99). -/
def bodyRddcw (imm16 : Half) : Body := fun s => s.emitRead (s.readDcw imm16.toNat)

def execRddcw (imm16 : Half) (s : State) : Host.Outcome State Fault Refusal := runGuarded (bodyRddcw imm16) s

/-- `RDEC s, i` (R100). -/
def bodyRdec (p q : Byte) : Body := fun s => s.emitRead (s.readEcw p.toNat q.toNat)

def execRdec (p q : Byte) (s : State) : Host.Outcome State Fault Refusal := runGuarded (bodyRdec p q) s

end Sys2Proof.Machine
end

