-- ==== Sys2Proof/Machine/DataEncoder.lean ====
section
/-! DEFINITION. Machine/DataEncoder.lean: byte-mode framing, padding, `FRAME` and `PUSHD` (42_data_encoder.md).
Segmentation moves nothing: `DCW` is in segment order already (R125). -/

namespace Sys2Proof.Machine

/-- The low `k` bits of `n`, most significant first (R121). -/
def bitsOf (k n : Nat) : List Bool := (List.range k).map fun j => n.testBit (k - 1 - j)

/-- The mode indicator of byte mode, 4 bits (R121). -/
def modeBits : List Bool := [false, true, false, false]

/-- The terminator, always the full 4 bits (R121, R122). -/
def terminatorBits : List Bool := [false, false, false, false]

/-- Width in bits of the length field (R121). -/
def lengthBits (v : Nat) : Nat := if v ≤ 9 then 8 else 16

/-- The framed bit stream `B` of R121 for a payload of `PLEN` bytes. -/
def frameBits (v : Nat) (payload : List Byte) : List Bool :=
  modeBits ++ bitsOf (lengthBits v) payload.length ++ payload.flatMap (fun b => bitsOf 8 b.toNat)
    ++ terminatorBits

/-- Eight bits as a byte, the first its bit 7 (R121). -/
def byteOfBits (b7 b6 b5 b4 b3 b2 b1 b0 : Bool) : Byte :=
  BitVec.ofBool b7 ++ BitVec.ofBool b6 ++ BitVec.ofBool b5 ++ BitVec.ofBool b4 ++ BitVec.ofBool b3
    ++ BitVec.ofBool b2 ++ BitVec.ofBool b1 ++ BitVec.ofBool b0

/-- Byte `k` of a stream is its bits `8k .. 8k+7` (R121); the stream is a whole number of bytes. -/
def packBits : List Bool → List Byte
  | b7 :: b6 :: b5 :: b4 :: b3 :: b2 :: b1 :: b0 :: rest => byteOfBits b7 b6 b5 b4 b3 b2 b1 b0 :: packBits rest
  | _ => []

/-- Pad byte `k` (R122). -/
def padByte (k : Nat) : Byte := if k % 2 = 0 then 0xEC else 0x11

/-- The `data_bytes(v)` bytes of R121 and R122. -/
def frameBytes (v : Nat) (payload : List Byte) : List Byte :=
  packBits (frameBits v payload)
    ++ (List.range (dataBytes v - (payload.length + overhead v))).map padByte

/-- `FRAME` (R123). -/
def bodyFrame : Body := fun s =>
  if s.stage ≠ 1 ∨ s.dlen ≠ 0 then .error .seq
  else if inputBytes s.version < s.plen.toNat then .error .invariant
  else .ok { s with
    dcw := s.dcw.writeRange 0 (frameBytes s.version s.payload)
    dlen := BitVec.ofNat 11 (dataBytes s.version)
    stage := 2 }

def execFrame (s : State) : Host.Outcome State Fault Refusal := runGuarded bodyFrame s

/-- `PUSHD imm8` (R124): the push that fills `DCW` moves to `STAGE` 2 itself. -/
def bodyPushd (imm8 : Byte) : Body := fun s =>
  if s.stage ≠ 1 then .error .seq
  else
    let t := { s with dcw := s.dcw.write s.dlen.toNat imm8, dlen := s.dlen + 1 }
    if t.dlen.toNat = dataBytes t.version then .ok { t with stage := 2 } else .ok t

def execPushd (imm8 : Byte) (s : State) : Host.Outcome State Fault Refusal := runGuarded (bodyPushd imm8) s

end Sys2Proof.Machine
end

