-- ==== Sys2Proof/Machine/Masking.lean ====
section
/-! DEFINITION. Machine/Masking.lean: tiles (R32), the mask function, the format word and its tiles, `FMT`
(46_masking_format.md). -/

namespace Sys2Proof.Machine

/-- A structural tile `2 | dark` (R32, R167). -/
def structTile (dark : Bool) : Byte := if dark then 3 else 2

/-- A data tile: structural flag clear (R32, R180). -/
def dataTile (dark : Bool) : Byte := if dark then 1 else 0

/-- The structural flag, bit 1 of a tile (R32). -/
def isStructural (t : Byte) : Bool := t.getLsbD 1

/-- `mask3(x, y)` (R190); the block evaluates no other mask (R191). -/
def mask3 (x y : Nat) : Bool := (x + y) % 3 == 0

/-- `fmt_data = {level[1:0], mask_id[2:0]}` with level M and mask 3 (R192). -/
def fmtData : BitVec 5 := 0b00#2 ++ 0b011#3

/-- One round of the division of R193. -/
def formatRound (rem : BitVec 15) : BitVec 15 := (rem <<< 1) ^^^ ((rem >>> 9) * 0x537#15)

/-- `format_word(d)` (R193): 5 data bits, 10 check bits, xored with the fixed pattern `0x5412`. -/
def formatWord (d : BitVec 5) : BitVec 15 :=
  let check := (List.range 10).foldl (fun rem _ => formatRound rem) (d.setWidth 15)
  (d.setWidth 15 <<< 10 ||| check) ^^^ 0x5412#15

/-- `F` (R193), a constant of the block. -/
def formatBits : BitVec 15 := formatWord fmtData

/-- Tile of bit `i` in the first copy, around the top-left finder (R194). -/
def firstCopy (i : Nat) : Nat × Nat :=
  if i ≤ 5 then (8, i)
  else if i = 6 then (8, 7)
  else if i = 7 then (8, 8)
  else if i = 8 then (7, 8)
  else (14 - i, 8)

/-- Tile of bit `i` in the second copy, in a grid of side `n` (R194). -/
def secondCopy (n i : Nat) : Nat × Nat := if i ≤ 7 then (n - 1 - i, 8) else (8, n - 15 + i)

/-- The thirty format tiles of a grid of side `n` (R173, R194). -/
def formatTiles (n : Nat) : List (Nat × Nat) :=
  (List.range 15).flatMap fun i => [firstCopy i, secondCopy n i]

/-- The tiles `FMT` writes, bit by bit, the first copy before the second (R195): never masked (R196). -/
def formatWrites (n : Nat) : List Host.Cell :=
  (List.range 15).flatMap fun i =>
    [(tileIndex n (firstCopy i).1 (firstCopy i).2, structTile (formatBits.getLsbD i)),
     (tileIndex n (secondCopy n i).1 (secondCopy n i).2, structTile (formatBits.getLsbD i))]

/-- `FMT` (R195). -/
def bodyFmt : Body := fun s =>
  if s.stage ≠ 6 then .error .seq
  else .ok { s with grid := s.grid.writeMany (formatWrites s.size.toNat) }.complete

def execFmt (s : State) : Host.Outcome State Fault Refusal := runGuarded bodyFmt s

end Sys2Proof.Machine
end

