-- ==== Sys2Proof/Machine/MatrixPainter.lean ====
section
/-! DEFINITION. Machine/MatrixPainter.lean: interleaving, the structural patterns, placement; `ILV`, `PAINTS`,
`PLACE` (45_matrix_painter.md). Each painting rule is a function that answers the tile the rule stamps at a place,
or none where it stamps nothing; the structural grid is the last stamp of R169's order (log entry 17). -/

namespace Sys2Proof.Machine

/-! ## Interleaving (R165) -/

/-- The longest segment of the version (R165). -/
def maxSegLen (v : Nat) : Nat :=
  if 0 < (info v).numSegments1 then (info v).segmentDataBytes1 else (info v).segmentDataBytes

/-- All data columns: byte `i` of every segment that has one, `i` ascending (R165). -/
def dataColumns (v : Nat) (dcw : Memory) : List Byte :=
  (List.range (maxSegLen v)).flatMap fun i =>
    ((List.range (ns v)).filter fun s => decide (i < segLen v s)).map fun s => dcw.read (segOff v s + i)

/-- All parity columns (R165). -/
def parityColumns (v : Nat) (ecw : Memory) : List Byte :=
  (List.range (ecBytes v)).flatMap fun i => (List.range (ns v)).map fun s => ecw.read (ecwIndex s i)

/-- `interleave(v)`: data columns, then parity columns (R165). -/
def interleave (v : Nat) (dcw ecw : Memory) : List Byte := dataColumns v dcw ++ parityColumns v ecw

/-- `ILV` (R166). -/
def bodyIlv : Body := fun s =>
  if s.stage ≠ 3 then .error .seq
  else .ok { s with icw := s.icw.writeRange 0 (interleave s.version s.dcw s.ecw), stage := 4 }

def execIlv (s : State) : Host.Outcome State Fault Refusal := runGuarded bodyIlv s

/-! ## Structural patterns -/

/-- `|a - b|`. -/
def absDiff (a b : Nat) : Nat := (a - b) + (b - a)

/-- Chebyshev distance from `(cx, cy)` (R171). -/
def ringOf (cx cy x y : Nat) : Nat := max (absDiff cx x) (absDiff cy y)

/-- Timing patterns: row 6 and column 6, dark on even coordinates (R170). -/
def timingStamp (x y : Nat) : Option Byte :=
  if x = 6 then some (structTile (y % 2 == 0))
  else if y = 6 then some (structTile (x % 2 == 0))
  else none

/-- One finder with its separator: rings 0, 1 dark, 2 light, 3 dark, 4 light (R171). -/
def finderAt (cx cy x y : Nat) : Option Byte :=
  let d := ringOf cx cy x y
  if d ≤ 4 then some (structTile (d != 2 && d != 4)) else none

/-- The three finders: top-left, top-right, bottom-left (R171). -/
def finderStamp (n x y : Nat) : Option Byte :=
  finderAt 3 3 x y <|> finderAt (n - 4) 3 x y <|> finderAt 3 (n - 4) x y

/-- `align(v)`, the ascending centre coordinates (R168; log entry 14). -/
def alignCoords (v : Nat) : List Nat :=
  match v with
  | 2 => [6, 18]
  | 3 => [6, 22]
  | 4 => [6, 26]
  | 5 => [6, 30]
  | 6 => [6, 34]
  | 7 => [6, 22, 38]
  | 8 => [6, 24, 42]
  | 9 => [6, 26, 46]
  | 10 => [6, 28, 50]
  | 11 => [6, 30, 54]
  | 12 => [6, 32, 58]
  | 13 => [6, 34, 62]
  | 14 => [6, 26, 46, 66]
  | 15 => [6, 26, 48, 70]
  | 16 => [6, 26, 50, 74]
  | 17 => [6, 30, 54, 78]
  | 18 => [6, 30, 56, 82]
  | 19 => [6, 30, 58, 86]
  | 20 => [6, 34, 62, 90]
  | 21 => [6, 28, 50, 72, 94]
  | 22 => [6, 26, 50, 74, 98]
  | 23 => [6, 30, 54, 78, 102]
  | 24 => [6, 28, 54, 80, 106]
  | 25 => [6, 32, 58, 84, 110]
  | 26 => [6, 30, 58, 86, 114]
  | _ => []

/-- Pairs of positions in `align(v)` that carry a pattern: all but the three on a finder (R168). -/
def alignPairs (k : Nat) : List (Nat × Nat) :=
  ((List.range k).flatMap fun i => (List.range k).map fun j => (i, j)).filter fun p =>
    decide (p ≠ (0, 0) ∧ p ≠ (0, k - 1) ∧ p ≠ (k - 1, 0))

/-- The alignment centres (R168). -/
def alignCentres (v : Nat) : List (Nat × Nat) :=
  (alignPairs (alignCoords v).length).map fun p =>
    ((alignCoords v).getD p.1 0, (alignCoords v).getD p.2 0)

/-- One alignment pattern: dark centre, light ring, dark border (R172). -/
def alignAt (c : Nat × Nat) (x y : Nat) : Option Byte :=
  let d := ringOf c.1 c.2 x y
  if d ≤ 2 then some (structTile (d != 1)) else none

/-- The alignment patterns; no two of them overlap (R172, R169). -/
def alignStamp (v x y : Nat) : Option Byte := (alignCentres v).findSome? fun c => alignAt c x y

/-- Format-information placeholders: structural, light (R173). Every one of them lies in column 8 or row 8 (R194),
which is asked first. -/
def formatStamp (n x y : Nat) : Option Byte :=
  if (x == 8 || y == 8) && (formatTiles n).contains (x, y) then some (structTile false) else none

/-- The dark module (R174). -/
def darkStamp (n x y : Nat) : Option Byte := if x = 8 ∧ y = n - 8 then some (structTile true) else none

/-- One round of the division of R175. -/
def versionRound (rem : BitVec 18) : BitVec 18 := (rem <<< 1) ^^^ ((rem >>> 11) * 0x1F25#18)

/-- `version_word(v)` (R175): 6 version bits, 12 check bits. -/
def versionWord (v : Nat) : BitVec 18 :=
  let check := (List.range 12).foldl (fun rem _ => versionRound rem) (BitVec.ofNat 18 v)
  (BitVec.ofNat 18 v <<< 12) ||| check

/-- The tile of the block at column `a`, row `b`, where `a = n - 11 + i % 3` and `b = i / 3` (R175). -/
def versionBlock (v n a b : Nat) : Option Byte :=
  if n - 11 ≤ a ∧ a ≤ n - 9 ∧ b ≤ 5 then some (structTile ((versionWord v).getLsbD (3 * b + (a - (n - 11)))))
  else none

/-- Version information, versions 7 to 26 only: the top-right block and its transpose (R175). -/
def versionStamp (v n x y : Nat) : Option Byte :=
  if v < 7 then none else versionBlock v n x y <|> versionBlock v n y x

/-- `struct(v)(x, y)`: all tiles start 0 (R176) and R170 to R175 stamp in that order, a later stamp overwriting an
earlier one (R169). -/
def structTileAt (v x y : Nat) : Byte :=
  let n := gridSide v
  (versionStamp v n x y <|> darkStamp n x y <|> formatStamp n x y <|> alignStamp v x y <|> finderStamp n x y
    <|> timingStamp x y).getD 0

/-- Every tile of `struct(v)` in row-major order (R55, R177). -/
def structTiles (v : Nat) : List Byte :=
  (List.range (gridSide v)).flatMap fun y => (List.range (gridSide v)).map fun x => structTileAt v x y

/-- `PAINTS` (R177): all `n*n` tiles are written. -/
def bodyPaints : Body := fun s =>
  if s.stage ≠ 4 then .error .seq
  else .ok { s with
    size := BitVec.ofNat 7 (gridSide s.version)
    grid := s.grid.writeRange 0 (structTiles s.version)
    stage := 5 }

def execPaints (s : State) : Host.Outcome State Fault Refusal := runGuarded bodyPaints s

/-! ## Placement -/

/-- Row `y` of a column pair: the right tile before the left, structural tiles skipped (R179). -/
def pairRow (v right y : Nat) : List (Nat × Nat) :=
  [(right, y), (right - 1, y)].filter fun p => !isStructural (structTileAt v p.1 p.2)

/-- One sweep over a column pair, bottom to top when `upward` (R179). -/
def sweep (v right : Nat) (upward : Bool) : List (Nat × Nat) :=
  (List.range (gridSide v)).flatMap fun t =>
    pairRow v right (if upward then gridSide v - 1 - t else t)

/-- The loop of R179 from the pair at `right`; column 6 is never the right of a pair (log entry 16). -/
def orderFrom (v : Nat) : (fuel right : Nat) → (upward : Bool) → List (Nat × Nat)
  | 0, _, _ => []
  | fuel + 1, right, upward =>
    if right < 1 then []
    else
      let r := if right = 6 then 5 else right
      sweep v r upward ++ orderFrom v fuel (r - 2) (!upward)

/-- `order(v)`, the non-structural tiles of `struct(v)` in placement order (R179). -/
def order (v : Nat) : List (Nat × Nat) := orderFrom v (gridSide v) (gridSide v - 1) true

/-- Bit `k` of the stream: `ICW[k / 8][7 - (k % 8)]` (R180). -/
def streamBit (icw : Memory) (k : Nat) : Bool := (icw.read (k / 8)).getLsbD (7 - k % 8)

/-- The bit stream of R180, `8*total_bytes(v)` bits. -/
def streamBits (v : Nat) (icw : Memory) : List Bool := (List.range (8 * totalBytes v)).map (streamBit icw)

/-- The tile bit `b` becomes at `(x, y)`, in a grid of side `n`: masked, structural flag clear (R180). -/
def placeCell (n : Nat) (p : Nat × Nat) (b : Bool) : Host.Cell :=
  (tileIndex n p.1 p.2, dataTile (b ^^ mask3 p.1 p.2))

/-- The writes of `PLACE`, bit `k` at `order(v)[k]` (R180, R181); tiles past the last bit receive none (R182). -/
def placeWrites (v n : Nat) (icw : Memory) : List Host.Cell :=
  List.zipWith (placeCell n) (order v) (streamBits v icw)

/-- `PLACE` (R181). -/
def bodyPlace : Body := fun s =>
  if s.stage ≠ 5 then .error .seq
  else .ok { s with
    grid := s.grid.writeMany (placeWrites s.version s.size.toNat s.icw)
    stage := 6 }

def execPlace (s : State) : Host.Outcome State Fault Refusal := runGuarded bodyPlace s

end Sys2Proof.Machine
end

