-- ==== Sys2Proof/Machine/Gf256.lean ====
section
/-! DEFINITION. Machine/Gf256.lean: GF(2^8) arithmetic and the commands on `GP` (43_gf256.md). -/

namespace Sys2Proof.Machine

/-- `gf_add`, bitwise exclusive-or (R131). -/
def gfAdd (a b : Byte) : Byte := a ^^^ b

/-- One shift of the multiplicand, reduced by the modulus `0x11D` when bit 8 is set (R132). -/
def gfShift (t : BitVec 9) : BitVec 9 :=
  if (t <<< 1).getLsbD 8 then (t <<< 1) ^^^ 0x11D#9 else t <<< 1

/-- The loop of R132: `k` runs from the given bit upwards for the given number of rounds. -/
def gfMulLoop (b : Byte) : (rounds k : Nat) → (p : Byte) → (t : BitVec 9) → Byte
  | 0, _, p, _ => p
  | rounds + 1, k, p, t =>
    gfMulLoop b rounds (k + 1) (if b.getLsbD k then p ^^^ t.setWidth 8 else p) (gfShift t)

/-- `gf_mul` (R132), shift and add. -/
def gfMul (a b : Byte) : Byte := gfMulLoop b 8 0 0 (a.setWidth 9)

/-- `alpha`, the primitive element (R133). -/
def gfAlpha : Byte := 0x02

/-- `gf_exp` (R133). -/
def gfExp : Nat → Byte
  | 0 => 1
  | i + 1 => gfMul (gfExp i) gfAlpha

/-- The first index from `i` on, among `fuel` of them, whose power is `a`; `x` is the power at `i` (R134). -/
def gfLogFrom (a : Byte) : (fuel i : Nat) → (x : Byte) → Option Nat
  | 0, _, _ => none
  | fuel + 1, i, x => if x = a then some i else gfLogFrom a fuel (i + 1) (gfMul x gfAlpha)

/-- `gf_log`: the index in 0..254 whose power is `a`; none for 0, whose logarithm is undefined (R134). -/
def gfLog (a : Byte) : Option Nat := gfLogFrom a 255 0 1

/-- `a` to the power `n` by repeated `gf_mul` (R135). -/
def gfPow (a : Byte) : Nat → Byte
  | 0 => 1
  | n + 1 => gfMul (gfPow a n) a

/-- `gf_inv`: `a` to the power 254 (R135). It is undefined at 0, where no command asks for it. -/
def gfInv (a : Byte) : Byte := gfPow a 254

/-- `GFMUL p, q` (R136). -/
def bodyGfmul (p q : Byte) : Body := fun s => .ok { s with gp := gfMul p q }

def execGfmul (p q : Byte) (s : State) : Host.Outcome State Fault Refusal := runGuarded (bodyGfmul p q) s

/-- `GFMULA imm8` (R137). -/
def bodyGfmula (imm8 : Byte) : Body := fun s => .ok { s with gp := gfMul s.gp imm8 }

def execGfmula (imm8 : Byte) (s : State) : Host.Outcome State Fault Refusal := runGuarded (bodyGfmula imm8) s

/-- `GFINV imm8` (R138). -/
def bodyGfinv (imm8 : Byte) : Body := fun s =>
  if imm8 = 0 then .error .gfzero else .ok { s with gp := gfInv imm8 }

def execGfinv (imm8 : Byte) (s : State) : Host.Outcome State Fault Refusal := runGuarded (bodyGfinv imm8) s

/-- `GFEXP imm8` (R139). -/
def bodyGfexp (imm8 : Byte) : Body := fun s => .ok { s with gp := gfExp imm8.toNat }

def execGfexp (imm8 : Byte) (s : State) : Host.Outcome State Fault Refusal := runGuarded (bodyGfexp imm8) s

/-- `GFLOG imm8` (R140): `GP` then holds an integer 0..254. The logarithm exists exactly when `imm8` is not 0. -/
def bodyGflog (imm8 : Byte) : Body := fun s =>
  match gfLog imm8 with
  | none => .error .gfzero
  | some i => .ok { s with gp := BitVec.ofNat 8 i }

def execGflog (imm8 : Byte) (s : State) : Host.Outcome State Fault Refusal := runGuarded (bodyGflog imm8) s

/-- `RDGP` (R141). -/
def bodyRdgp : Body := fun s => .ok (s.emit (zext16 s.gp))

def execRdgp (s : State) : Host.Outcome State Fault Refusal := runGuarded bodyRdgp s

end Sys2Proof.Machine
end

