-- ==== Sys2Proof/Machine/ReedSolomon.lean ====
section
/-! DEFINITION. Machine/ReedSolomon.lean: the generator polynomial, the division step, the encoding of a segment,
the stand-alone datapath commands and `ECC` (44_reed_solomon.md). -/

namespace Sys2Proof.Machine

/-- `g_n(x)` as its coefficients `c[0 .. n]`, `c[j]` of `x^j`, with roots `alpha^0 .. alpha^(n-1)` (R145):
`g_(k+1)` has `c'[j] = c[j-1] ^ gf_mul(c[j], gf_exp(k))`, an absent coefficient being 0. -/
def genPoly : Nat → List Byte
  | 0 => [1]
  | k + 1 =>
    List.zipWith gfAdd (0 :: genPoly k) ((genPoly k).map (fun c => gfMul c (gfExp k)) ++ [0])

/-- One division step (R146): all of the new remainder is computed from the old. `gen` is `GEN[0 ..]`, so `GEN[n-1-i]`
is entry `i` of its first `n` entries reversed. -/
def rsFeed (gen : List Byte) (n : Nat) (rem : List Byte) (d : Byte) : List Byte :=
  let f := gfAdd d (rem.getD 0 0)
  List.zipWith (fun next g => gfAdd next (gfMul g f)) (rem.drop 1 ++ [0]) (gen.take n).reverse

/-- `rs_encode(D, n)` (R147): a zero remainder fed with `D[0]`, `D[1]`, … in order. -/
def rsEncode (data : List Byte) (n : Nat) : List Byte :=
  data.foldl (rsFeed (genPoly n) n) (List.replicate n 0)

/-- `RSGEN imm8` (R150). -/
def bodyRsgen (imm8 : Byte) : Body := fun s =>
  if imm8.toNat < 1 ∨ Config.necMax < imm8.toNat then .error .operand
  else .ok { s with
    nec := BitVec.ofNat 5 imm8.toNat
    gen := regLoad s.gen (genPoly imm8.toNat)
    rem := regLoad s.rem (List.replicate imm8.toNat 0) }

def execRsgen (imm8 : Byte) (s : State) : Host.Outcome State Fault Refusal := runGuarded (bodyRsgen imm8) s

/-- `RSCLR` (R151). -/
def bodyRsclr : Body := fun s =>
  if s.nec = 0 then .error .seq
  else .ok { s with rem := regLoad s.rem (List.replicate s.nec.toNat 0) }

def execRsclr (s : State) : Host.Outcome State Fault Refusal := runGuarded bodyRsclr s

/-- `RSFEED imm8` (R152). -/
def bodyRsfeed (imm8 : Byte) : Body := fun s =>
  if s.nec = 0 then .error .seq
  else .ok { s with
    rem := regLoad s.rem
      (rsFeed (regPrefix s.gen (s.nec.toNat + 1)) s.nec.toNat (regPrefix s.rem s.nec.toNat) imm8) }

def execRsfeed (imm8 : Byte) (s : State) : Host.Outcome State Fault Refusal := runGuarded (bodyRsfeed imm8) s

/-- `RDGEN imm8` (R153). -/
def bodyRdgen (imm8 : Byte) : Body := fun s => s.emitRead (s.readGen imm8.toNat)

def execRdgen (imm8 : Byte) (s : State) : Host.Outcome State Fault Refusal := runGuarded (bodyRdgen imm8) s

/-- `RDREM imm8` (R154). -/
def bodyRdrem (imm8 : Byte) : Body := fun s => s.emitRead (s.readRem imm8.toNat)

def execRdrem (imm8 : Byte) (s : State) : Host.Outcome State Fault Refusal := runGuarded (bodyRdrem imm8) s

/-- The data bytes of segment `s` of version `v` (R125, R114). -/
def segmentData (dcw : Memory) (v s : Nat) : List Byte := dcw.readRange (segOff v s) (segLen v s)

/-- One round of `ECC`'s loop (R155): `REM` is the parity of segment `k`, which is stored as `ECW[k]`. -/
def eccRound (s : State) (k : Nat) : State :=
  let parity := rsEncode (segmentData s.dcw s.version k) (ecBytes s.version)
  { s with
    rem := regLoad s.rem parity
    ecw := s.ecw.writeRange (ecwIndex k 0) parity }

/-- `ECC` (R155): it loads the shared divider and overwrites what the stand-alone commands left there. -/
def bodyEcc : Body := fun s =>
  if s.stage ≠ 2 then .error .seq
  else
    let loaded := { s with
      nec := BitVec.ofNat 5 (ecBytes s.version)
      gen := regLoad s.gen (genPoly (ecBytes s.version)) }
    .ok { (List.range (ns s.version)).foldl eccRound loaded with stage := 3 }

def execEcc (s : State) : Host.Outcome State Fault Refusal := runGuarded bodyEcc s

end Sys2Proof.Machine
end

