-- ==== Sys2Proof/Machine/VersionSelector.lean ====
section
/-! DEFINITION. Machine/VersionSelector.lean: `SELECT`, `SETVER`, `VINFO` (41_version_selector.md). -/

namespace Sys2Proof.Machine

/-- A version is chosen: `VER <- v; STAGE <- 1` (R111, R112). -/
def State.choose (s : State) (v : Nat) : State := { s with ver := BitVec.ofNat 5 v, stage := 1 }

/-- `SELECT` (R111): `restart()`, then the smallest version that fits, or CapacityExceeded. -/
def bodySelect : Body := fun s =>
  match selectVersion s.plen.toNat with
  | some v => .ok (s.restart.choose v)
  | none => .ok s.restart.capacityExceeded

def execSelect (s : State) : Host.Outcome State Fault Refusal := runGuarded bodySelect s

/-- `SETVER imm8` (R112): the operand is checked before anything is changed. -/
def bodySetver (imm8 : Byte) : Body := fun s =>
  if imm8.toNat < Config.vMin ∨ Config.vMax < imm8.toNat then .error .operand
  else .ok (s.restart.choose imm8.toNat)

def execSetver (imm8 : Byte) (s : State) : Host.Outcome State Fault Refusal := runGuarded (bodySetver imm8) s

/-- The absent marker of `VINFO` (R115). -/
def absentMarker : Half := 0xFFFF

/-- `VINFO v, f` (R115): the selector is checked first; an unsupported version is absent and no fault. -/
def bodyVinfo (v f : Byte) : Body := fun s =>
  if 11 < f.toNat then .error .operand
  else match vi v.toNat with
    | none => .ok (s.emit absentMarker)
    | some r => .ok (s.emit (BitVec.ofNat 16 ((versionField r f.toNat).getD 0)))

def execVinfo (v f : Byte) (s : State) : Host.Outcome State Fault Refusal := runGuarded (bodyVinfo v f) s

end Sys2Proof.Machine
end

