-- ==== Sys2Proof/Machine/Generate.lean ====
section
/-! DEFINITION. Machine/Generate.lean: the composite command `GENERATE` (47_generate.md). -/

namespace Sys2Proof.Machine

/-- The six parts after the selection, in order (R200). None of them can raise a fault there (log entry 18). -/
def encodeBody : Body := fun s => do
  let s ← bodyFrame s
  let s ← bodyEcc s
  let s ← bodyIlv s
  let s ← bodyPaints s
  let s ← bodyPlace s
  bodyFmt s

/-- `GENERATE` (R200): the selection; on CapacityExceeded nothing else is done; otherwise the six parts. -/
def bodyGenerate : Body := fun s => do
  let s ← bodySelect s
  if s.err then .ok s else encodeBody s

def execGenerate (s : State) : Host.Outcome State Fault Refusal := runGuarded bodyGenerate s

end Sys2Proof.Machine
end

