-- ==== Sys2Proof/Machine/Dispatch.lean ====
section
/-! DEFINITION. Machine/Dispatch.lean: one arm per command (R74). -/

namespace Sys2Proof.Machine

def exec (i : Instr) (s : State) : Host.Outcome State Fault Refusal :=
  match i with
  | .nop => Sys2Proof.Machine.execNop s
  | .reset => Sys2Proof.Machine.execReset s
  | .pushb imm8 => Sys2Proof.Machine.execPushb imm8 s
  | .pushd imm8 => Sys2Proof.Machine.execPushd imm8 s
  | .rdstat => Sys2Proof.Machine.execRdstat s
  | .rdsize => Sys2Proof.Machine.execRdsize s
  | .rdtile x y => Sys2Proof.Machine.execRdtile x y s
  | .rdcw imm16 => Sys2Proof.Machine.execRdcw imm16 s
  | .rddcw imm16 => Sys2Proof.Machine.execRddcw imm16 s
  | .rdplen => Sys2Proof.Machine.execRdplen s
  | .rddlen => Sys2Proof.Machine.execRddlen s
  | .rdec p q => Sys2Proof.Machine.execRdec p q s
  | .gfmul p q => Sys2Proof.Machine.execGfmul p q s
  | .gfmula imm8 => Sys2Proof.Machine.execGfmula imm8 s
  | .gfinv imm8 => Sys2Proof.Machine.execGfinv imm8 s
  | .gfexp imm8 => Sys2Proof.Machine.execGfexp imm8 s
  | .gflog imm8 => Sys2Proof.Machine.execGflog imm8 s
  | .rdgp => Sys2Proof.Machine.execRdgp s
  | .rsgen imm8 => Sys2Proof.Machine.execRsgen imm8 s
  | .rsclr => Sys2Proof.Machine.execRsclr s
  | .rsfeed imm8 => Sys2Proof.Machine.execRsfeed imm8 s
  | .rdrem imm8 => Sys2Proof.Machine.execRdrem imm8 s
  | .rdgen imm8 => Sys2Proof.Machine.execRdgen imm8 s
  | .select => Sys2Proof.Machine.execSelect s
  | .setver imm8 => Sys2Proof.Machine.execSetver imm8 s
  | .vinfo v f => Sys2Proof.Machine.execVinfo v f s
  | .frame => Sys2Proof.Machine.execFrame s
  | .ecc => Sys2Proof.Machine.execEcc s
  | .ilv => Sys2Proof.Machine.execIlv s
  | .paints => Sys2Proof.Machine.execPaints s
  | .place => Sys2Proof.Machine.execPlace s
  | .fmt => Sys2Proof.Machine.execFmt s
  | .generate => Sys2Proof.Machine.execGenerate s

end Sys2Proof.Machine
end

