-- ==== Sys2Proof/Machine/Step.lean ====
section
/-! DEFINITION. Machine/Step.lean: one step is the complete execution of one command word (R20). -/

namespace Sys2Proof.Machine

/-- The word at `pc` is decoded (R76) and executed: a command, or an illegal word (R77). With no word at `pc` the
run has ended (R24, log entry 2). -/
def step (s : State) : Host.Outcome State Fault Refusal :=
  match s.fetch with
  | none => .fault .streamEnded
  | some w =>
    match decode w with
    | .ok i => exec i s
    | .error _ => runIllegal s

/-- `s` with the word `w` presented as the next command: at index `pc` of the stream (log entry 3). -/
def State.withFetchWord (s : State) (nbits w : Nat) : State :=
  { s with cmds := placeWord s.cmds s.pc (BitVec.ofNat 32 (w % 2 ^ nbits)) }

end Sys2Proof.Machine
end

