-- ==== Sys2Proof/Machine/Assembler.lean ====
section
/-! DEFINITION. Machine/Assembler.lean: the assembler syntax (R79), the operand order (R75) and the three
pseudo-commands (R80). The block never sees text: this is how a host's command stream is written down. Text that
is no program of R79 assembles to none (log entry 20). -/

namespace Sys2Proof.Machine

/-! ## One command -/

/-- The operands of a command in the place its format gives them (R72, R75); none where their number is wrong or one
does not fit its field. -/
def operandBits (f : Format) (ops : List Nat) : Option Word :=
  match f, ops with
  | .z, [] => some 0
  | .b, [k] => if k < 256 then some (BitVec.ofNat 32 k) else none
  | .bb, [p, q] => if p < 256 ∧ q < 256 then some (BitVec.ofNat 32 (p * 256 + q)) else none
  | .xy, [x, y] => if x < 256 ∧ y < 256 then some (BitVec.ofNat 32 (x * 256 + y)) else none
  | .h, [k] => if k < 65536 then some (BitVec.ofNat 32 k) else none
  | _, _ => none

/-- The word of a mnemonic with its operands, by the opcode table (R74, R75). -/
def assembleCommand (mnemonic : String) (ops : List Nat) : Option Word :=
  match opcodeRows.find? fun r => r.mnemonic == mnemonic with
  | none => none
  | some r => (operandBits r.format ops).map fun bits => r.matchBits ||| bits

/-! ## Pseudo-commands (R80) -/

/-- The expansion of `PIPELINE`. -/
def pipeline : List Instr := [.select, .frame, .ecc, .ilv, .paints, .place, .fmt]

/-- The expansion of `PUSHBS`, and of `PUSHS` once its text is bytes: one `PUSHB` per byte, in order. -/
def pushBytes (bytes : List Byte) : List Instr := bytes.map Instr.pushb

/-- The bytes of a string: each character's ASCII code; none where a character has none. -/
def asciiBytes : List Char → Option (List Byte)
  | [] => some []
  | c :: cs => if c.toNat < 128 then (asciiBytes cs).map (BitVec.ofNat 8 c.toNat :: ·) else none

/-! ## Text (R79) -/

/-- A blank inside a line, which separates a mnemonic from its operands and may stand around an operand: space, tab
or carriage return. DESIGN CHOICE: R79 names no separator but the comma (log entry 20). -/
def isBlank (c : Char) : Bool := c.toNat == 32 || c.toNat == 9 || c.toNat == 13

/-- Without the blanks at both ends. -/
def trimBlanks (cs : List Char) : List Char :=
  ((cs.dropWhile isBlank).reverse.dropWhile isBlank).reverse

/-- The pieces between the separators. -/
def pieces (sep : Char) : List Char → List (List Char)
  | [] => [[]]
  | c :: cs =>
    match pieces sep cs with
    | [] => [[c]]
    | w :: ws => if c = sep then [] :: w :: ws else (c :: w) :: ws

/-- The quotation mark. -/
def quoteMark : Char := Char.ofNat 34

/-- The line without its comment; a `;` between quotation marks is text (log entry 20). -/
def dropComment : (quoted : Bool) → List Char → List Char
  | _, [] => []
  | quoted, c :: cs =>
    if c = ';' ∧ quoted = false then [] else c :: dropComment (quoted ^^ (c == quoteMark)) cs

/-- The value of a digit; hexadecimal ones in either case is a DESIGN CHOICE (log entry 20). -/
def digitValue (c : Char) : Option Nat :=
  if 48 ≤ c.toNat ∧ c.toNat ≤ 57 then some (c.toNat - 48)
  else if 65 ≤ c.toNat ∧ c.toNat ≤ 70 then some (c.toNat - 55)
  else if 97 ≤ c.toNat ∧ c.toNat ≤ 102 then some (c.toNat - 87)
  else none

/-- Digits read from the left, `acc` the value so far. -/
def digitsValue (base : Nat) : (acc : Nat) → List Char → Option Nat
  | acc, [] => some acc
  | acc, c :: cs =>
    match digitValue c with
    | none => none
    | some d => if d < base then digitsValue base (acc * base + d) cs else none

/-- A decimal or `0x` hexadecimal number; the `x` is in lower case as R79 writes it. -/
def numberValue : List Char → Option Nat
  | [] => none
  | ['0', 'x'] => none
  | '0' :: 'x' :: digits => digitsValue 16 0 digits
  | digits => digitsValue 10 0 digits

/-- Every piece as a number. -/
def numberValues : List (List Char) → Option (List Nat)
  | [] => some []
  | w :: ws =>
    match numberValue (trimBlanks w), numberValues ws with
    | some n, some ns => some (n :: ns)
    | _, _ => none

/-- The operands after a mnemonic, separated by commas. -/
def operandValues (cs : List Char) : Option (List Nat) :=
  if trimBlanks cs = [] then some [] else numberValues (pieces ',' cs)

/-- The characters of a quoted string that fills the text. -/
def quoted (cs : List Char) : Option (List Char) :=
  match pieces quoteMark cs with
  | [[], text, []] => some text
  | _ => none

/-- The words of one line: one of a command, the expansion of a pseudo-command. A line of blanks or of a comment alone
has no words, and a `PUSHBS` without a byte is no program: DESIGN CHOICE, R79 and R80 do not say (log entry 20). -/
def assembleLine (line : List Char) : Option (List Word) :=
  let t := trimBlanks (dropComment false line)
  let mnemonic := String.ofList (t.takeWhile fun c => !isBlank c)
  let rest := trimBlanks (t.dropWhile fun c => !isBlank c)
  if t = [] then some []
  else if mnemonic = "PIPELINE" then if rest = [] then some (pipeline.map encode) else none
  else if mnemonic = "PUSHS" then
    ((quoted rest).bind asciiBytes).map fun bytes => (pushBytes bytes).map encode
  else if mnemonic = "PUSHBS" then
    (operandValues rest).bind fun ns =>
      if ns ≠ [] ∧ ∀ n ∈ ns, n < 256 then some ((pushBytes (ns.map (BitVec.ofNat 8))).map encode) else none
  else (operandValues rest).bind fun ops => (assembleCommand mnemonic ops).map fun w => [w]

/-- The words of a list of lines, in order. -/
def assembleLines : List (List Char) → Option (List Word)
  | [] => some []
  | l :: ls =>
    match assembleLine l, assembleLines ls with
    | some ws, some vs => some (ws ++ vs)
    | _, _ => none

/-- The command stream a program text stands for (R79, R80). -/
def assemble (text : String) : Option (List Word) := assembleLines (pieces '\n' text.toList)

end Sys2Proof.Machine
end

