-- ==== Sys2Proof/Safety.lean ====
section
/-! DEFINITION. Safety.lean: the invariants of R25, R29, R32, R34, R40 and R50 in the terms statements use, and how
a list of commands runs. -/

namespace Sys2Proof.Machine

/-! ## Legal states -/

/-- Every listed index of a space is below its capacity (R50). -/
abbrev Memory.within (m : Memory) (capacity : Nat) : Prop := ∀ c ∈ m, c.1 < capacity

/-- The state invariants of R40 and the legal values of R23, R25, R29, R30, R32, R50. -/
structure Legal (s : State) : Prop where
  /-- R40(a). -/
  valid_iff : s.valid = true ↔ s.stage.toNat = 7
  /-- R40(b). -/
  err_idle : s.err = true → s.stage.toNat = 0 ∧ s.ver.toNat = 0
  /-- R40(c). -/
  stage_iff : 1 ≤ s.stage.toNat ↔ 1 ≤ s.ver.toNat ∧ s.ver.toNat ≤ 26
  /-- `VER` is 0 or a supported version (R25). -/
  ver_le : s.ver.toNat ≤ 26
  /-- R40(d). -/
  dlen_full : 2 ≤ s.stage.toNat → s.dlen.toNat = dataBytes s.version
  /-- At `STAGE` 1 the direct load is not complete (R29). -/
  dlen_partial : s.stage.toNat = 1 → s.dlen.toNat < dataBytes s.version
  /-- R40(e). -/
  dlen_zero : s.stage.toNat = 0 → s.dlen.toNat = 0
  /-- R40(f). -/
  size_eq : s.size.toNat = if 5 ≤ s.stage.toNat then gridSide s.version else 0
  /-- R40(g). -/
  cause_none : s.fault = false → s.fcause.toNat = 0
  /-- R40, last sentence. -/
  cause_some : s.fault = true → 1 ≤ s.fcause.toNat ∧ s.fcause.toNat ≤ 6
  /-- R25: `PLEN` saturates at 1060. -/
  plen_le : s.plen.toNat ≤ 1060
  /-- R23: `NEC` is 0 to 30. -/
  nec_le : s.nec.toNat ≤ 30
  /-- R23, R145: while a generator is loaded, `GEN[0 .. NEC]` are its coefficients. -/
  gen_loaded : s.nec.toNat ≠ 0 → regPrefix s.gen (s.nec.toNat + 1) = genPoly s.nec.toNat
  /-- The spaces are in canonical form. -/
  pay_wf : s.pay.wf = true
  dcw_wf : s.dcw.wf = true
  ecw_wf : s.ecw.wf = true
  icw_wf : s.icw.wf = true
  grid_wf : s.grid.wf = true
  /-- R50: no index past a capacity is ever written. -/
  pay_within : s.pay.within Config.payMax
  dcw_within : s.dcw.within Config.dcwMax
  ecw_within : s.ecw.within (Config.nsMax * Config.necMax)
  icw_within : s.icw.within Config.icwMax
  grid_within : s.grid.within Config.gridMax
  /-- R32: bits 7:2 of a tile are always 0. -/
  tile_le : ∀ c ∈ s.grid, c.2.toNat ≤ 3

/-! ## What each stage holds (R29) -/

/-- The tile `T(x, y)` held in `GRID` (R55). -/
def State.tile (s : State) (x y : Nat) : Byte := s.grid.read (tileIndex s.size.toNat x y)

/-- `GRID` as `PAINTS` leaves it: every structural tile painted, every other tile 0 (R29 stage 5). -/
def paintedGrid (v : Nat) : Memory := Memory.writeRange [] 0 (structTiles v)

/-- `GRID` as `PLACE` leaves it: the masked bits placed (R29 stage 6). -/
def placedGrid (v : Nat) (icw : Memory) : Memory := (paintedGrid v).writeMany (placeWrites v (gridSide v) icw)

/-- `GRID` as `FMT` leaves it: the format information written (R29 stage 7). -/
def finishedGrid (v : Nat) (icw : Memory) : Memory := (placedGrid v icw).writeMany (formatWrites (gridSide v))

/-- The "holds at this stage" column of R29, from `ECDONE` on. -/
structure StageHolds (s : State) : Prop where
  /-- Stage 3 and later: the parity of every segment (R147, R155). -/
  ecw_holds : 3 ≤ s.stage.toNat → ∀ k < ns s.version,
    s.ecw.readRange (ecwIndex k 0) (ecBytes s.version) = rsEncode (segmentData s.dcw s.version k) (ecBytes s.version)
  /-- Stage 4 and later: the interleaved stream (R165). -/
  icw_holds : 4 ≤ s.stage.toNat →
    s.icw.readRange 0 (totalBytes s.version) = interleave s.version s.dcw s.ecw
  /-- Stage 5: the structural grid (R169 to R176). -/
  painted : s.stage.toNat = 5 → ∀ i < gridSide s.version * gridSide s.version,
    s.grid.read i = (paintedGrid s.version).read i
  /-- Stage 6: with the data bits (R180). -/
  placed : s.stage.toNat = 6 → ∀ i < gridSide s.version * gridSide s.version,
    s.grid.read i = (placedGrid s.version s.icw).read i
  /-- Stage 7: with the format information (R195). -/
  finished : s.stage.toNat = 7 → ∀ i < gridSide s.version * gridSide s.version,
    s.grid.read i = (finishedGrid s.version s.icw).read i

/-! ## What commands can read (R31, R39, R50, R59) -/

/-- Two states that no command can tell apart: they agree on every register and on every element that a guard lets
a command read. They may differ where the spec leaves contents unspecified or stale. -/
structure SameReadable (a b : State) : Prop where
  gp : a.gp = b.gp
  nec : a.nec = b.nec
  plen : a.plen = b.plen
  ver : a.ver = b.ver
  dlen : a.dlen = b.dlen
  size : a.size = b.size
  stage : a.stage = b.stage
  valid : a.valid = b.valid
  err : a.err = b.err
  fault : a.fault = b.fault
  fcause : a.fcause = b.fcause
  out : a.out = b.out
  pc : a.pc = b.pc
  cmds : a.cmds = b.cmds
  /-- `GEN[0 .. NEC]` while a generator is loaded (R153). -/
  gen : a.nec.toNat ≠ 0 → regPrefix a.gen (a.nec.toNat + 1) = regPrefix b.gen (a.nec.toNat + 1)
  /-- `REM[0 .. NEC-1]` (R154). -/
  rem : regPrefix a.rem a.nec.toNat = regPrefix b.rem a.nec.toNat
  /-- The payload (R51). -/
  pay : ∀ i < min a.plen.toNat Config.payMax, a.pay.read i = b.pay.read i
  /-- `DCW[0 .. DLEN-1]` (R99). -/
  dcw : ∀ i < a.dlen.toNat, a.dcw.read i = b.dcw.read i
  /-- The parity of every segment from `STAGE` 3 on (R100). -/
  ecw : 3 ≤ a.stage.toNat → ∀ k < ns a.version, ∀ i < ecBytes a.version,
    a.ecw.read (ecwIndex k i) = b.ecw.read (ecwIndex k i)
  /-- The interleaved stream from `STAGE` 4 on (R98). -/
  icw : 4 ≤ a.stage.toNat → ∀ i < totalBytes a.version, a.icw.read i = b.icw.read i
  /-- The grid from `STAGE` 5 on (R97). -/
  grid : 5 ≤ a.stage.toNat → ∀ i < a.size.toNat * a.size.toNat, a.grid.read i = b.grid.read i

/-! ## Running commands -/

/-- The commands of a list one after the other, as the block executes them; none where one has no next state. -/
def execAll : List Instr → State → Option State
  | [], s => some s
  | i :: rest, s =>
    match exec i s with
    | .next t => execAll rest t
    | .fault _ => none
    | .refused _ => none

end Sys2Proof.Machine
end

