-- ==== Sys2Proof/Certificates/Slice0/Obligations.lean ====
section
/-! DEFINITION. Certificates/Slice0/Obligations.lean: the statements for the provers. Each docstring names the rule
of spec/ it formalises. Helpers are in `Sys2Proof.Claims`. -/

namespace Sys2Proof.Claims

open Sys2Proof.Machine

/-- What `raise Fault` with this code leaves, after `pc` advanced (R212, R24). -/
def faulted (s : State) (code : BitVec 4) : State := { s with fault := true, fcause := code, pc := s.pc + 1 }

/-- What a read-out that emits `v` leaves, after `pc` advanced (R62, R24). -/
def emitted (s : State) (v : Half) : State := { s with out := s.out ++ [v], pc := s.pc + 1 }

/-- The table of R213 with the order of R215: the code of the fault a command raises, none where it raises none. -/
def causeOf (i : Instr) (s : State) : Option (BitVec 4) :=
  match i with
  | .pushb _ => if s.stage.toNat ≠ 0 then some 2 else none
  | .pushd _ => if s.stage.toNat ≠ 1 then some 2 else none
  | .frame =>
    if s.stage.toNat ≠ 1 ∨ s.dlen.toNat ≠ 0 then some 2
    else if s.plen.toNat > inputBytes s.ver.toNat then some 6 else none
  | .ecc => if s.stage.toNat ≠ 2 then some 2 else none
  | .ilv => if s.stage.toNat ≠ 3 then some 2 else none
  | .paints => if s.stage.toNat ≠ 4 then some 2 else none
  | .place => if s.stage.toNat ≠ 5 then some 2 else none
  | .fmt => if s.stage.toNat ≠ 6 then some 2 else none
  | .rddcw k => if s.stage.toNat < 1 then some 2 else if k.toNat ≥ s.dlen.toNat then some 4 else none
  | .rdec p q =>
    if s.stage.toNat < 3 then some 2
    else if p.toNat ≥ ns s.ver.toNat ∨ q.toNat ≥ ecBytes s.ver.toNat then some 4 else none
  | .rdcw k => if s.stage.toNat < 4 then some 2 else if k.toNat ≥ totalBytes s.ver.toNat then some 4 else none
  | .rdtile x y =>
    if s.stage.toNat < 5 then some 2
    else if x.toNat ≥ s.size.toNat ∨ y.toNat ≥ s.size.toNat then some 4 else none
  | .rsclr => if s.nec.toNat = 0 then some 2 else none
  | .rsfeed _ => if s.nec.toNat = 0 then some 2 else none
  | .rdgen j => if s.nec.toNat = 0 then some 2 else if j.toNat > s.nec.toNat then some 4 else none
  | .rdrem j => if s.nec.toNat = 0 then some 2 else if j.toNat ≥ s.nec.toNat then some 4 else none
  | .setver v => if v.toNat < 1 ∨ v.toNat > 26 then some 3 else none
  | .rsgen n => if n.toNat < 1 ∨ n.toNat > 30 then some 3 else none
  | .vinfo _ f => if f.toNat > 11 then some 3 else none
  | .gfinv a => if a.toNat = 0 then some 5 else none
  | .gflog a => if a.toNat = 0 then some 5 else none
  | .nop | .reset | .rdstat | .rdsize | .rdplen | .rddlen | .rdgp | .gfmul _ _ | .gfmula _ | .gfexp _ | .select
  | .generate => none

/-- No command can read a buffer or the Reed-Solomon registers: each such read-out raises `Fault(SEQ)`. -/
def unreadable (s : State) : Prop :=
  (∀ x y, exec (.rdtile x y) s = .next (faulted s 2)) ∧ (∀ k, exec (.rdcw k) s = .next (faulted s 2)) ∧
  (∀ k, exec (.rddcw k) s = .next (faulted s 2)) ∧ (∀ p q, exec (.rdec p q) s = .next (faulted s 2)) ∧
  (∀ j, exec (.rdgen j) s = .next (faulted s 2)) ∧ (∀ j, exec (.rdrem j) s = .next (faulted s 2))

/-- A bit as a number. -/
def bit (b : Bool) : Nat := if b then 1 else 0

/-- The product of two bit-polynomials of degree below 8, unreduced. -/
def polyProduct (a b : Nat) : Nat :=
  (List.range 8).foldl (fun p k => if b.testBit k then p ^^^ (a <<< k) else p) 0

/-- The remainder of a bit-polynomial of degree at most 14 by `z^8 + z^4 + z^3 + z^2 + 1`, by long division. -/
def polyRemainder (p : Nat) : Nat :=
  [14, 13, 12, 11, 10, 9, 8].foldl (fun r d => if r.testBit d then r ^^^ (0x11D <<< (d - 8)) else r) p

/-- A polynomial over the field, first coefficient the highest power, at a point. -/
def polyEval (cs : List Byte) (x : Byte) : Byte := cs.foldl (fun acc c => gfAdd (gfMul acc x) c) 0

/-- The stored and derived fields of a version, numbered 0 to 11 as in R115, by the formulas of R113. -/
def fieldsOf (r : VersionInfo) : List Nat :=
  [r.version, r.size, r.totalBytes, r.groupBytes, r.numSegments, r.segmentDataBytes, r.groupBytes1,
   r.numSegments1, r.segmentDataBytes1, r.groupBytes / r.numSegments - r.segmentDataBytes,
   r.numSegments * r.segmentDataBytes + r.numSegments1 * r.segmentDataBytes1,
   r.numSegments * r.segmentDataBytes + r.numSegments1 * r.segmentDataBytes1 - (if r.version ≤ 9 then 2 else 3)]

/-- `v` is the smallest supported version whose `input_bytes` holds `n` bytes (R111). -/
def smallestFitting (n v : Nat) : Prop :=
  1 ≤ v ∧ v ≤ 26 ∧ n ≤ inputBytes v ∧ ∀ u, 1 ≤ u → u < v → inputBytes u < n

/-- Where segment `s`'s data byte `i` stands in the interleaved stream (R165): row `i` holds one byte of each
segment, and the last row only those of group 1. -/
def dataPosition (v s i : Nat) : Nat :=
  if i < (info v).segmentDataBytes then i * ns v + s
  else i * ns v + (s - (info v).numSegments)

/-- The remainder `r(v)` of R178. -/
def remainderTiles (v : Nat) : Nat :=
  if v = 1 then 0 else if v ≤ 6 then 7 else if v ≤ 13 then 0 else if v ≤ 20 then 3 else 4

/-- `free(v)`, the number of tiles of `struct(v)` with the structural flag clear (R178). -/
def freeTiles (v : Nat) : Nat := (structTiles v).countP fun t => !t.getLsbD 1

/-- The antilog table of R133, rows 0 to 7. -/
def antilogLow : List Nat :=
  [0x01, 0x02, 0x04, 0x08, 0x10, 0x20, 0x40, 0x80, 0x1D, 0x3A, 0x74, 0xE8, 0xCD, 0x87, 0x13, 0x26] ++
  [0x4C, 0x98, 0x2D, 0x5A, 0xB4, 0x75, 0xEA, 0xC9, 0x8F, 0x03, 0x06, 0x0C, 0x18, 0x30, 0x60, 0xC0] ++
  [0x9D, 0x27, 0x4E, 0x9C, 0x25, 0x4A, 0x94, 0x35, 0x6A, 0xD4, 0xB5, 0x77, 0xEE, 0xC1, 0x9F, 0x23] ++
  [0x46, 0x8C, 0x05, 0x0A, 0x14, 0x28, 0x50, 0xA0, 0x5D, 0xBA, 0x69, 0xD2, 0xB9, 0x6F, 0xDE, 0xA1] ++
  [0x5F, 0xBE, 0x61, 0xC2, 0x99, 0x2F, 0x5E, 0xBC, 0x65, 0xCA, 0x89, 0x0F, 0x1E, 0x3C, 0x78, 0xF0] ++
  [0xFD, 0xE7, 0xD3, 0xBB, 0x6B, 0xD6, 0xB1, 0x7F, 0xFE, 0xE1, 0xDF, 0xA3, 0x5B, 0xB6, 0x71, 0xE2] ++
  [0xD9, 0xAF, 0x43, 0x86, 0x11, 0x22, 0x44, 0x88, 0x0D, 0x1A, 0x34, 0x68, 0xD0, 0xBD, 0x67, 0xCE] ++
  [0x81, 0x1F, 0x3E, 0x7C, 0xF8, 0xED, 0xC7, 0x93, 0x3B, 0x76, 0xEC, 0xC5, 0x97, 0x33, 0x66, 0xCC]

/-- The antilog table of R133, rows 8 to F. -/
def antilogHigh : List Nat :=
  [0x85, 0x17, 0x2E, 0x5C, 0xB8, 0x6D, 0xDA, 0xA9, 0x4F, 0x9E, 0x21, 0x42, 0x84, 0x15, 0x2A, 0x54] ++
  [0xA8, 0x4D, 0x9A, 0x29, 0x52, 0xA4, 0x55, 0xAA, 0x49, 0x92, 0x39, 0x72, 0xE4, 0xD5, 0xB7, 0x73] ++
  [0xE6, 0xD1, 0xBF, 0x63, 0xC6, 0x91, 0x3F, 0x7E, 0xFC, 0xE5, 0xD7, 0xB3, 0x7B, 0xF6, 0xF1, 0xFF] ++
  [0xE3, 0xDB, 0xAB, 0x4B, 0x96, 0x31, 0x62, 0xC4, 0x95, 0x37, 0x6E, 0xDC, 0xA5, 0x57, 0xAE, 0x41] ++
  [0x82, 0x19, 0x32, 0x64, 0xC8, 0x8D, 0x07, 0x0E, 0x1C, 0x38, 0x70, 0xE0, 0xDD, 0xA7, 0x53, 0xA6] ++
  [0x51, 0xA2, 0x59, 0xB2, 0x79, 0xF2, 0xF9, 0xEF, 0xC3, 0x9B, 0x2B, 0x56, 0xAC, 0x45, 0x8A, 0x09] ++
  [0x12, 0x24, 0x48, 0x90, 0x3D, 0x7A, 0xF4, 0xF5, 0xF7, 0xF3, 0xFB, 0xEB, 0xCB, 0x8B, 0x0B, 0x16] ++
  [0x2C, 0x58, 0xB0, 0x7D, 0xFA, 0xE9, 0xCF, 0x83, 0x1B, 0x36, 0x6C, 0xD8, 0xAD, 0x47, 0x8E, 0x01]

end Sys2Proof.Claims

open Sys2Proof Sys2Proof.Machine Sys2Proof.Claims

/-! ## Encoding -/

/-- R72, R73, R74: no bit of an encoding is dropped, for every command and every operand. -/
def Obligations.DecodeOfEncodeIsTheCommand : Prop := ∀ i : Instr, decode (encode i) = .ok i

/-- R74, R77: a word that is a command is that command's only encoding. -/
def Obligations.EncodeOfDecodeIsTheWord : Prop := ∀ (w : Word) (i : Instr), decode w = .ok i → encode i = w

/-- R76: every word either matches exactly one row of the opcode table, and decodes to that row's command, or
decodes to none. -/
def Obligations.DecoderAgreesWithOpcodeTable : Prop :=
  (∀ w : Word, (∃ i, decode w = .ok i) ↔ ∃ r ∈ opcodeRows, r.covers w = true) ∧
  (∀ (w : Word) (i : Instr), decode w = .ok i →
    ∃ r ∈ opcodeRows, r.covers w = true ∧ r.mnemonic = i.mnemonic ∧
      ∀ q ∈ opcodeRows, q.covers w = true → q = r)

/-- R72, R74: words written out from the spec's encodings, one or more of every family, and four illegal ones. -/
def Obligations.SampleWordsDecode : Prop :=
  decode 0b00000000000000000000000000000000#32 = .ok .nop ∧
  decode 0b00000010000000000000000001000001#32 = .ok (.pushb 0x41) ∧
  decode 0b00000110000000000001010000010011#32 = .ok (.rdtile 20 19) ∧
  decode 0b00000111000000000000000100000010#32 = .ok (.rdcw 0x0102) ∧
  decode 0b00001011000000000000000100001001#32 = .ok (.rdec 1 9) ∧
  decode 0b00010000000000000101001111001010#32 = .ok (.gfmul 0x53 0xCA) ∧
  decode 0b00100010000000000000000000010010#32 = .ok (.rsfeed 0x12) ∧
  decode 0b00110010000000000000010100001011#32 = .ok (.vinfo 5 11) ∧
  decode 0b00111111000000000000000000000000#32 = .ok .generate ∧
  decode 0x0C000000#32 = .error .undefinedOpcode ∧
  decode 0x00010000#32 = .error .nonzeroReserved ∧
  decode 0x02000141#32 = .error .nonzeroReserved ∧
  decode 0x3F000001#32 = .error .nonzeroReserved

/-- R75, R79, R80: a command written with its mnemonic and its operands in R75's order assembles to its word, an
operand too wide for its field does not assemble, and the pseudo-commands expand as the table says. -/
def Obligations.AssemblerGivesTheEncodedWord : Prop :=
  (∀ i : Instr, assembleCommand i.mnemonic i.operands = some (encode i)) ∧
  (∀ (m : String) (ops : List Nat) (w : Word), assembleCommand m ops = some w →
    ∃ i, decode w = .ok i ∧ i.mnemonic = m ∧ i.operands = ops) ∧
  (∀ bs : List Byte, (pushBytes bs).map encode = bs.map fun b => 0x02000000 + b.setWidth 32) ∧
  pipeline.map encode =
    [0x30000000, 0x33000000, 0x34000000, 0x35000000, 0x36000000, 0x37000000, 0x38000000]

/-! ## One step -/

/-- R20: one step is the execution of the command the word at `pc` decodes to; nothing is added around it. -/
def Obligations.StepRunsTheDecodedCommand : Prop :=
  ∀ (s : State) (w : Word) (i : Instr), s.fetch = some w → decode w = .ok i → step s = exec i s

/-- R24: every word at `pc`, legal or not, faulted or not, ends with `pc + 1`; the stream is never written; a run
ends when `pc` is past the stream; no command reads `pc`. -/
def Obligations.EveryWordAdvancesPcByOne : Prop :=
  (∀ s : State, s.pc < s.cmds.length → ∃ t, step s = .next t ∧ t.pc = s.pc + 1 ∧ t.cmds = s.cmds) ∧
  (∀ s : State, s.cmds.length ≤ s.pc → ∀ t, step s ≠ .next t) ∧
  (∀ (i : Instr) (s t : State) (k : Nat), exec i s = .next t →
    exec i { s with pc := k } = .next { t with pc := k + 1 })

/-- R77: executing an illegal word raises `Fault(ILLEGAL)` and changes no other state. -/
def Obligations.IllegalWordRaisesIllegal : Prop :=
  ∀ (s : State) (w : Word), s.fault = false → s.fetch = some w →
    (∀ r ∈ opcodeRows, r.covers w = false) → step s = .next (faulted s 1)

/-- R214: while `FAULT` = 1 only `RESET` and `RDSTAT` act; every other word, legal or illegal, does nothing. -/
def Obligations.FaultedBlockObeysOnlyResetAndRdstat : Prop :=
  ∀ (s : State) (w : Word), s.fault = true → s.fetch = some w →
    (w = 0x01000000 → step s = exec .reset s ∧ ∃ t, exec .reset s = .next t ∧ t.fault = false ∧ t.fcause = 0) ∧
    (w = 0x04000000 → step s = .next (emitted s s.status)) ∧
    (w ≠ 0x01000000 → w ≠ 0x04000000 → step s = .next { s with pc := s.pc + 1 })

/-- R212: a step that raises a fault changes `FAULT`, `FCAUSE` and `pc` and nothing else, and emits nothing. -/
def Obligations.RaisingAFaultChangesNothingElse : Prop :=
  ∀ s t : State, s.fault = false → step s = .next t → t.fault = true →
    t = faulted s t.fcause ∧ 1 ≤ t.fcause.toNat ∧ t.fcause.toNat ≤ 6

/-- R213, R215: for every command and every unfaulted state, the fault raised, in the fixed order of the checks, is
the one the table names, and a command the table names no cause for raises none; an illegal word gives code 1. -/
def Obligations.CommandsFaultExactlyAsTheTableSays : Prop :=
  (∀ (i : Instr) (s : State), s.fault = false →
    ∃ t, exec i s = .next t ∧
      (∀ c, causeOf i s = some c → t = faulted s c) ∧ (causeOf i s = none → t.fault = false)) ∧
  (∀ (s : State) (w : Word) (e : Illegal), s.fault = false → s.fetch = some w → decode w = .error e →
    step s = .next (faulted s 1))

/-! ## Reset, control, read-out -/

/-- R91: `RESET` acts in every state, clears every register and the fault, makes every buffer unreadable, and
resets neither `OUT` nor `pc`. -/
def Obligations.ResetCommandClearsEveryRegister : Prop :=
  ∀ s : State, ∃ t, exec .reset s = .next t ∧ t.gp = 0 ∧ t.nec = 0 ∧ t.plen = 0 ∧ t.ver = 0 ∧ t.dlen = 0 ∧
    t.size = 0 ∧ t.stage = 0 ∧ t.valid = false ∧ t.err = false ∧ t.fault = false ∧ t.fcause = 0 ∧
    t.out = s.out ∧ t.pc = s.pc + 1 ∧ t.cmds = s.cmds ∧ unreadable t

/-- R39: the reset values the spec gives, and that the `RESET` command gives the state of hardware reset in every
field but `OUT` and `pc`. That the unspecified contents agree too is this model's choice (log entry 6). -/
def Obligations.ResetCommandGivesTheHardwareResetState : Prop :=
  (State.reset.gp = 0 ∧ State.reset.nec = 0 ∧ State.reset.plen = 0 ∧ State.reset.ver = 0 ∧
    State.reset.dlen = 0 ∧ State.reset.size = 0 ∧ State.reset.stage = 0 ∧ State.reset.valid = false ∧
    State.reset.err = false ∧ State.reset.fault = false ∧ State.reset.fcause = 0 ∧ State.reset.out = [] ∧
    State.reset.pc = 0 ∧ unreadable State.reset) ∧
  (∀ s : State, exec .reset s = .next { State.reset with out := s.out, pc := s.pc + 1, cmds := s.cmds })

/-- R90: `NOP` leaves the state unchanged but `pc`, faulted or not. -/
def Obligations.NopOnlyAdvancesPc : Prop := ∀ s : State, exec .nop s = .next { s with pc := s.pc + 1 }

/-- R92: `PUSHB` faults away from stage 0; up to 1059 bytes it stores the byte at `PAY[PLEN]` and advances `PLEN`;
past that it stores nothing and `PLEN` is 1060. -/
def Obligations.PushbAppendsOneByteOrSaturates : Prop :=
  ∀ (s : State) (imm8 : Byte), s.fault = false →
    (s.stage.toNat ≠ 0 → exec (.pushb imm8) s = .next (faulted s 2)) ∧
    (s.stage.toNat = 0 → s.plen.toNat < 1059 → s.pay.wf = true →
      ∃ t, exec (.pushb imm8) s = .next t ∧
        t = { s with pay := t.pay, plen := BitVec.ofNat 11 (s.plen.toNat + 1), pc := s.pc + 1 } ∧
        t.pay.read s.plen.toNat = imm8 ∧ ∀ a, a ≠ s.plen.toNat → t.pay.read a = s.pay.read a) ∧
    (s.stage.toNat = 0 → 1059 ≤ s.plen.toNat →
      exec (.pushb imm8) s = .next { s with plen := 1060, pc := s.pc + 1 })

/-- R93, R94, R95, R141: each emits its register zero-extended, at every stage, and changes nothing else; the size is
0 where no grid is held and the data length 0 at stage 0. -/
def Obligations.RegisterReadoutsEmitTheRegister : Prop :=
  ∀ s : State, s.fault = false →
    exec .rdplen s = .next (emitted s (BitVec.ofNat 16 s.plen.toNat)) ∧
    exec .rddlen s = .next (emitted s (BitVec.ofNat 16 s.dlen.toNat)) ∧
    exec .rdsize s = .next (emitted s (BitVec.ofNat 16 s.size.toNat)) ∧
    exec .rdgp s = .next (emitted s (BitVec.ofNat 16 s.gp.toNat)) ∧
    (Legal s → s.stage.toNat < 5 → exec .rdsize s = .next (emitted s 0)) ∧
    (Legal s → s.stage.toNat = 0 → exec .rddlen s = .next (emitted s 0))

/-- R26, R96: `RDSTAT` emits the status word assembled from its fields, faulted or not, and changes nothing else. -/
def Obligations.RdstatEmitsTheStatusWord : Prop :=
  ∀ s : State, ∃ v : Half, exec .rdstat s = .next (emitted s v) ∧
    v.toNat = s.ver.toNat * 2048 + s.stage.toNat * 256 + s.fcause.toNat * 16 + bit s.fault * 4 + bit s.err * 2
      + bit s.valid

/-- R97: `RDTILE x, y`; the value read is 0, 1, 2 or 3. -/
def Obligations.RdtileEmitsTheTile : Prop :=
  ∀ (s : State) (x y : Byte), s.fault = false →
    (s.stage.toNat < 5 → exec (.rdtile x y) s = .next (faulted s 2)) ∧
    (5 ≤ s.stage.toNat → s.size.toNat ≤ x.toNat ∨ s.size.toNat ≤ y.toNat →
      exec (.rdtile x y) s = .next (faulted s 4)) ∧
    (5 ≤ s.stage.toNat → x.toNat < s.size.toNat → y.toNat < s.size.toNat →
      exec (.rdtile x y) s =
        .next (emitted s (BitVec.ofNat 16 (s.grid.read (y.toNat * s.size.toNat + x.toNat)).toNat))) ∧
    (Legal s → ∀ a, (s.grid.read a).toNat ≤ 3)

/-- R98, R99, R100: `RDCW`, `RDDCW`, `RDEC`; the stage check comes before the bounds check. -/
def Obligations.CodewordReadoutsEmitTheByte : Prop :=
  ∀ (s : State), s.fault = false →
    (∀ k : Half,
      (s.stage.toNat < 4 → exec (.rdcw k) s = .next (faulted s 2)) ∧
      (4 ≤ s.stage.toNat → totalBytes s.ver.toNat ≤ k.toNat → exec (.rdcw k) s = .next (faulted s 4)) ∧
      (4 ≤ s.stage.toNat → k.toNat < totalBytes s.ver.toNat →
        exec (.rdcw k) s = .next (emitted s (BitVec.ofNat 16 (s.icw.read k.toNat).toNat)))) ∧
    (∀ k : Half,
      (s.stage.toNat < 1 → exec (.rddcw k) s = .next (faulted s 2)) ∧
      (1 ≤ s.stage.toNat → s.dlen.toNat ≤ k.toNat → exec (.rddcw k) s = .next (faulted s 4)) ∧
      (1 ≤ s.stage.toNat → k.toNat < s.dlen.toNat →
        exec (.rddcw k) s = .next (emitted s (BitVec.ofNat 16 (s.dcw.read k.toNat).toNat)))) ∧
    (∀ p q : Byte,
      (s.stage.toNat < 3 → exec (.rdec p q) s = .next (faulted s 2)) ∧
      (3 ≤ s.stage.toNat → ns s.ver.toNat ≤ p.toNat ∨ ecBytes s.ver.toNat ≤ q.toNat →
        exec (.rdec p q) s = .next (faulted s 4)) ∧
      (3 ≤ s.stage.toNat → p.toNat < ns s.ver.toNat → q.toNat < ecBytes s.ver.toNat →
        exec (.rdec p q) s =
          .next (emitted s (BitVec.ofNat 16 (s.ecw.read (ecwIndex p.toNat q.toNat)).toNat))))

/-! ## Field arithmetic -/

/-- R132: `gf_mul` is the product of the two polynomials reduced modulo `m(z)`, and has the laws R132 lists. -/
def Obligations.GfMulIsTheReducedProduct : Prop :=
  (∀ a b : Byte, (gfMul a b).toNat = polyRemainder (polyProduct a.toNat b.toNat)) ∧
  (∀ a b : Byte, gfMul a b = gfMul b a) ∧
  (∀ a b c : Byte, gfMul (gfMul a b) c = gfMul a (gfMul b c)) ∧
  (∀ a b c : Byte, gfMul a (gfAdd b c) = gfAdd (gfMul a b) (gfMul a c)) ∧
  (∀ a : Byte, gfMul a 0 = 0) ∧ (∀ a : Byte, gfMul a 1 = a) ∧
  (∀ a b : Byte, gfMul a b = 0 → a = 0 ∨ b = 0)

/-- R133: the powers of `alpha` = 2: the recursion, the printed table, the 255 nonzero elements each once, and the
period 255. -/
def Obligations.GfExpEnumeratesTheNonzeroElements : Prop :=
  gfExp 0 = 1 ∧ (∀ i, gfExp (i + 1) = gfMul (gfExp i) 2) ∧
  (List.range 256).map (fun i => (gfExp i).toNat) = antilogLow ++ antilogHigh ∧
  (∀ i, gfExp i ≠ 0) ∧ (∀ a : Byte, a ≠ 0 → ∃ i, i < 255 ∧ gfExp i = a) ∧
  (∀ i j, i < 255 → j < 255 → gfExp i = gfExp j → i = j) ∧
  gfExp 255 = 1 ∧ ∀ i, gfExp i = gfExp (i % 255)

/-- R134: `gf_log` is the inverse of `gf_exp` over 0..254, undefined at 0, and turns products into sums. -/
def Obligations.GfLogInvertsGfExp : Prop :=
  (∀ (a : Byte) (i : Nat), gfLog a = some i ↔ i < 255 ∧ gfExp i = a) ∧
  gfLog 0 = none ∧ (∀ a : Byte, a ≠ 0 → ∃ i, gfLog a = some i) ∧ gfLog 1 = some 0 ∧
  (∀ (a b : Byte) (i j : Nat), gfLog a = some i → gfLog b = some j → gfMul a b = gfExp ((i + j) % 255))

/-- R135: for `a` not 0, `gf_inv(a)` is the unique `b` with product 1, the 254th power, and `gf_exp((255 - log a) %
255)`. -/
def Obligations.GfInvIsTheUniqueInverse : Prop :=
  ∀ a : Byte, a ≠ 0 → gfMul a (gfInv a) = 1 ∧ (∀ b, gfMul a b = 1 → b = gfInv a) ∧ gfInv a = gfPow a 254 ∧
    ∀ i, gfLog a = some i → gfInv a = gfExp ((255 - i) % 255)

/-- R136, R137, R139: `GFMUL`, `GFMULA`, `GFEXP` write `GP` and nothing else, at every stage. -/
def Obligations.FieldCommandsWriteGp : Prop :=
  ∀ s : State, s.fault = false →
    (∀ p q : Byte, exec (.gfmul p q) s = .next { s with gp := gfMul p q, pc := s.pc + 1 }) ∧
    (∀ k : Byte, exec (.gfmula k) s = .next { s with gp := gfMul s.gp k, pc := s.pc + 1 }) ∧
    (∀ k : Byte, exec (.gfexp k) s = .next { s with gp := gfExp k.toNat, pc := s.pc + 1 })

/-- R138, R140: `GFINV` and `GFLOG` of 0 raise `Fault(GFZERO)`; of any other byte they complete, with the inverse
and the logarithm. -/
def Obligations.InverseAndLogarithmCommands : Prop :=
  ∀ s : State, s.fault = false →
    exec (.gfinv 0) s = .next (faulted s 5) ∧ exec (.gflog 0) s = .next (faulted s 5) ∧
    (∀ k : Byte, k ≠ 0 → ∃ b, gfMul k b = 1 ∧ exec (.gfinv k) s = .next { s with gp := b, pc := s.pc + 1 }) ∧
    (∀ k : Byte, k ≠ 0 → ∃ i, i < 255 ∧ gfExp i = k ∧
      exec (.gflog k) s = .next { s with gp := BitVec.ofNat 8 i, pc := s.pc + 1 })

/-! ## Reed-Solomon -/

/-- R145: `g_n` has degree `n`, is monic, and has the roots `alpha^0 .. alpha^(n-1)`. -/
def Obligations.GeneratorIsMonicWithConsecutiveRoots : Prop :=
  ∀ n, 1 ≤ n → n ≤ 30 → (genPoly n).length = n + 1 ∧ (genPoly n).getD n 0 = 1 ∧
    ∀ r, r < n → polyEval (genPoly n).reverse (gfExp r) = 0

/-- R150: `RSGEN n`. -/
def Obligations.RsgenLoadsTheGenerator : Prop :=
  ∀ (s : State) (k : Byte), s.fault = false →
    (k.toNat < 1 ∨ 30 < k.toNat → exec (.rsgen k) s = .next (faulted s 3)) ∧
    (1 ≤ k.toNat → k.toNat ≤ 30 →
      ∃ t, exec (.rsgen k) s = .next t ∧
        t = { s with nec := t.nec, gen := t.gen, rem := t.rem, pc := s.pc + 1 } ∧ t.nec.toNat = k.toNat ∧
        (∀ j, j ≤ k.toNat → regRead t.gen j = (genPoly k.toNat).getD j 0) ∧
        (∀ j, k.toNat < j → j < 31 → regRead t.gen j = regRead s.gen j) ∧
        (∀ i, i < k.toNat → regRead t.rem i = 0) ∧
        (∀ i, k.toNat ≤ i → i < 30 → regRead t.rem i = regRead s.rem i))

/-- R151: `RSCLR`. -/
def Obligations.RsclrClearsTheRemainder : Prop :=
  ∀ s : State, s.fault = false →
    (s.nec.toNat = 0 → exec .rsclr s = .next (faulted s 2)) ∧
    (s.nec.toNat ≠ 0 → s.nec.toNat ≤ 30 →
      ∃ t, exec .rsclr s = .next t ∧ t = { s with rem := t.rem, pc := s.pc + 1 } ∧
        (∀ i, i < s.nec.toNat → regRead t.rem i = 0) ∧
        (∀ i, s.nec.toNat ≤ i → i < 30 → regRead t.rem i = regRead s.rem i))

/-- R146, R152: `RSFEED` makes one division step, every new byte computed from the old remainder. -/
def Obligations.RsfeedMakesOneDivisionStep : Prop :=
  ∀ (s : State) (d : Byte), s.fault = false →
    (s.nec.toNat = 0 → exec (.rsfeed d) s = .next (faulted s 2)) ∧
    (s.nec.toNat ≠ 0 → s.nec.toNat ≤ 30 →
      ∃ t, exec (.rsfeed d) s = .next t ∧ t = { s with rem := t.rem, pc := s.pc + 1 } ∧
        (∀ i, i < s.nec.toNat →
          regRead t.rem i =
            (if i + 1 ≤ s.nec.toNat - 1 then regRead s.rem (i + 1) else 0) ^^^
              gfMul (regRead s.gen (s.nec.toNat - 1 - i)) (d ^^^ regRead s.rem 0)) ∧
        (∀ i, s.nec.toNat ≤ i → i < 30 → regRead t.rem i = regRead s.rem i))

/-- R153, R154: `RDGEN` and `RDREM`; `RDGEN NEC` emits 1, the generator being monic. -/
def Obligations.DatapathReadoutsEmitTheByte : Prop :=
  ∀ (s : State) (j : Byte), s.fault = false →
    (s.nec.toNat = 0 → exec (.rdgen j) s = .next (faulted s 2) ∧ exec (.rdrem j) s = .next (faulted s 2)) ∧
    (s.nec.toNat ≠ 0 → s.nec.toNat < j.toNat → exec (.rdgen j) s = .next (faulted s 4)) ∧
    (s.nec.toNat ≠ 0 → j.toNat ≤ s.nec.toNat →
      exec (.rdgen j) s = .next (emitted s (BitVec.ofNat 16 (regRead s.gen j.toNat).toNat))) ∧
    (s.nec.toNat ≠ 0 → s.nec.toNat ≤ j.toNat → exec (.rdrem j) s = .next (faulted s 4)) ∧
    (s.nec.toNat ≠ 0 → j.toNat < s.nec.toNat →
      exec (.rdrem j) s = .next (emitted s (BitVec.ofNat 16 (regRead s.rem j.toNat).toNat))) ∧
    (Legal s → s.nec.toNat ≠ 0 → j.toNat = s.nec.toNat → exec (.rdgen j) s = .next (emitted s 1))

/-- R148: every codeword `D ++ rs_encode(D, n)` has all its syndromes 0, for every message and every `n` in 1..30. -/
def Obligations.EveryCodewordHasZeroSyndromes : Prop :=
  ∀ (data : List Byte) (n : Nat), 1 ≤ n → n ≤ 30 → (rsEncode data n).length = n ∧
    ∀ r, r < n → polyEval (data ++ rsEncode data n) (gfExp r) = 0

/-- R147: the encoding is linear; an empty message and a message of zeros give zero parity. -/
def Obligations.RsEncodeIsLinear : Prop :=
  (∀ (a b : List Byte) (n : Nat), a.length = b.length →
    rsEncode (List.zipWith gfAdd a b) n = List.zipWith gfAdd (rsEncode a n) (rsEncode b n)) ∧
  (∀ n, rsEncode [] n = List.replicate n 0) ∧
  (∀ k n, rsEncode (List.replicate k 0) n = List.replicate n 0)

/-- R155: `ECC` loads the divider, stores the parity of every segment, leaves the last parity in `REM`, and moves to
stage 3; elsewhere it faults. -/
def Obligations.EccStoresTheParityOfEverySegment : Prop :=
  ∀ s : State, s.fault = false →
    (s.stage.toNat ≠ 2 → exec .ecc s = .next (faulted s 2)) ∧
    (s.stage.toNat = 2 → 1 ≤ s.ver.toNat → s.ver.toNat ≤ 26 →
      ∃ t, exec .ecc s = .next t ∧
        t = { s with nec := t.nec, gen := t.gen, rem := t.rem, ecw := t.ecw, stage := 3, pc := s.pc + 1 } ∧
        t.nec.toNat = ecBytes s.ver.toNat ∧
        regPrefix t.gen (ecBytes s.ver.toNat + 1) = genPoly (ecBytes s.ver.toNat) ∧
        (∀ j, ecBytes s.ver.toNat < j → j < 31 → regRead t.gen j = regRead s.gen j) ∧
        (∀ k, k < ns s.ver.toNat → t.ecw.readRange (ecwIndex k 0) (ecBytes s.ver.toNat) =
          rsEncode (s.dcw.readRange (segOff s.ver.toNat k) (segLen s.ver.toNat k)) (ecBytes s.ver.toNat)) ∧
        regPrefix t.rem (ecBytes s.ver.toNat) =
          t.ecw.readRange (ecwIndex (ns s.ver.toNat - 1) 0) (ecBytes s.ver.toNat) ∧
        (∀ i, ecBytes s.ver.toNat ≤ i → i < 30 → regRead t.rem i = regRead s.rem i) ∧
        (∀ a, (∀ k i, k < ns s.ver.toNat → i < ecBytes s.ver.toNat → a ≠ ecwIndex k i) →
          t.ecw.read a = s.ecw.read a))

/-! ## Versions -/

/-- R115: `VINFO v, f`: the selector is checked first, an unsupported version emits the absent marker. -/
def Obligations.VinfoEmitsTheFieldOrTheAbsentMarker : Prop :=
  ∀ (s : State) (v f : Byte), s.fault = false →
    (11 < f.toNat → exec (.vinfo v f) s = .next (faulted s 3)) ∧
    (f.toNat ≤ 11 → v.toNat < 1 ∨ 26 < v.toNat → exec (.vinfo v f) s = .next (emitted s 0xFFFF)) ∧
    (f.toNat ≤ 11 → 1 ≤ v.toNat → v.toNat ≤ 26 →
      ∃ r, vi v.toNat = some r ∧
        exec (.vinfo v f) s = .next (emitted s (BitVec.ofNat 16 ((fieldsOf r).getD f.toNat 0))))

/-- R116(a) to (f), R113 `size(v)`: the invariants of the version table. -/
def Obligations.VersionTableInvariants : Prop :=
  (∀ v, 1 ≤ v → v ≤ 26 → ∃ r, vi v = some r ∧ r.version = v ∧ r.size = 17 + 4 * v ∧
    r.totalBytes = r.groupBytes + r.groupBytes1 ∧
    r.groupBytes % r.numSegments = 0 ∧ (r.numSegments1 = 0 → r.groupBytes1 = 0) ∧
    (0 < r.numSegments1 → r.groupBytes1 % r.numSegments1 = 0 ∧
      r.groupBytes1 / r.numSegments1 - r.segmentDataBytes1 = ecBytes v ∧
      r.segmentDataBytes1 = r.segmentDataBytes + 1) ∧
    1 ≤ ecBytes v ∧ ecBytes v ≤ 30 ∧ 1 ≤ ns v ∧ ns v ≤ 23 ∧ dataBytes v ≤ 1062 ∧ r.totalBytes ≤ 1706) ∧
  (∀ u v, 1 ≤ u → u < v → v ≤ 26 → inputBytes u < inputBytes v) ∧
  (∀ v, v < 1 ∨ 26 < v → vi v = none)

/-- R111: `SELECT` restarts and picks the smallest version that fits, or ends in CapacityExceeded, exactly when
`PLEN` is above 1059. That the stale contents of `DCW`, `ECW`, `ICW` and `GRID` are kept across `restart()` is this
model's choice (log entry 7): R38 and R243 leave them open. -/
def Obligations.SelectPicksTheSmallestFittingVersion : Prop :=
  ∀ s : State, s.fault = false →
    (∀ v, smallestFitting s.plen.toNat v →
      exec .select s = .next { s with ver := BitVec.ofNat 5 v, stage := 1, dlen := 0, size := 0, valid := false,
                                      err := false, pc := s.pc + 1 }) ∧
    (1059 < s.plen.toNat →
      exec .select s = .next { s with ver := 0, stage := 0, dlen := 0, size := 0, valid := false, err := true,
                                      pc := s.pc + 1 }) ∧
    (s.plen.toNat ≤ 1059 → ∃ v, smallestFitting s.plen.toNat v)

/-- R112: `SETVER`. That the stale contents of `DCW`, `ECW`, `ICW` and `GRID` are kept across `restart()` is this
model's choice (log entry 7): R38 and R243 leave them open. -/
def Obligations.SetverForcesTheVersion : Prop :=
  ∀ (s : State) (k : Byte), s.fault = false →
    (k.toNat < 1 ∨ 26 < k.toNat → exec (.setver k) s = .next (faulted s 3)) ∧
    (1 ≤ k.toNat → k.toNat ≤ 26 →
      exec (.setver k) s = .next { s with ver := BitVec.ofNat 5 k.toNat, stage := 1, dlen := 0, size := 0,
                                          valid := false, err := false, pc := s.pc + 1 })

/-! ## Data encoder -/

/-- R120, R121, R122: the framed and padded bytes, written out, and their exact number. -/
def Obligations.FramedBytesWrittenOut : Prop :=
  ∀ (v : Nat) (p : List Byte), 1 ≤ v → v ≤ 26 → p.length ≤ inputBytes v →
    (frameBytes v p).length = dataBytes v ∧
    (v ≤ 9 →
      (frameBytes v p).getD 0 0 = BitVec.ofNat 8 (0x40 ||| (p.length >>> 4)) ∧
      (frameBytes v p).getD 1 0 = BitVec.ofNat 8 (((p.length &&& 0xF) <<< 4) ||| ((p.getD 0 0).toNat >>> 4))) ∧
    (10 ≤ v →
      (frameBytes v p).getD 0 0 = BitVec.ofNat 8 (0x40 ||| (p.length >>> 12)) ∧
      (frameBytes v p).getD 1 0 = BitVec.ofNat 8 ((p.length >>> 4) &&& 0xFF) ∧
      (frameBytes v p).getD 2 0 = BitVec.ofNat 8 (((p.length &&& 0xF) <<< 4) ||| ((p.getD 0 0).toNat >>> 4))) ∧
    (∀ i, 1 ≤ i → i + 1 ≤ p.length →
      (frameBytes v p).getD (overhead v - 1 + i) 0 =
        BitVec.ofNat 8 ((((p.getD (i - 1) 0).toNat &&& 0xF) <<< 4) ||| ((p.getD i 0).toNat >>> 4))) ∧
    (1 ≤ p.length →
      (frameBytes v p).getD (overhead v - 1 + p.length) 0 =
        BitVec.ofNat 8 (((p.getD (p.length - 1) 0).toNat &&& 0xF) <<< 4)) ∧
    (∀ k, p.length + overhead v + k < dataBytes v →
      (frameBytes v p).getD (p.length + overhead v + k) 0 = if k % 2 = 0 then 0xEC else 0x11)

/-- R123: `FRAME`. -/
def Obligations.FrameFillsTheDataCodewords : Prop :=
  ∀ s : State, s.fault = false →
    (s.stage.toNat ≠ 1 ∨ s.dlen.toNat ≠ 0 → exec .frame s = .next (faulted s 2)) ∧
    (s.stage.toNat = 1 → s.dlen.toNat = 0 → inputBytes s.ver.toNat < s.plen.toNat →
      exec .frame s = .next (faulted s 6)) ∧
    (s.stage.toNat = 1 → s.dlen.toNat = 0 → 1 ≤ s.ver.toNat → s.ver.toNat ≤ 26 →
      s.plen.toNat ≤ inputBytes s.ver.toNat →
      ∃ t, exec .frame s = .next t ∧
        t = { s with dcw := t.dcw, dlen := t.dlen, stage := 2, pc := s.pc + 1 } ∧
        t.dlen.toNat = dataBytes s.ver.toNat ∧
        t.dcw.readRange 0 (dataBytes s.ver.toNat) =
          frameBytes s.ver.toNat ((List.range s.plen.toNat).map fun i => s.pay.read i) ∧
        ∀ a, dataBytes s.ver.toNat ≤ a → t.dcw.read a = s.dcw.read a)

/-- R124: `PUSHD`; the push that fills `DCW` moves to stage 2. -/
def Obligations.PushdLoadsOneDataCodeword : Prop :=
  ∀ (s : State) (k : Byte), s.fault = false →
    (s.stage.toNat ≠ 1 → exec (.pushd k) s = .next (faulted s 2)) ∧
    (s.stage.toNat = 1 → 1 ≤ s.ver.toNat → s.ver.toNat ≤ 26 → s.dlen.toNat < dataBytes s.ver.toNat →
      s.dcw.wf = true →
      ∃ t, exec (.pushd k) s = .next t ∧
        t = { s with dcw := t.dcw, dlen := t.dlen, stage := t.stage, pc := s.pc + 1 } ∧
        t.dlen.toNat = s.dlen.toNat + 1 ∧
        t.stage = (if s.dlen.toNat + 1 = dataBytes s.ver.toNat then 2 else 1) ∧
        t.dcw.read s.dlen.toNat = k ∧ ∀ a, a ≠ s.dlen.toNat → t.dcw.read a = s.dcw.read a)

/-! ## Matrix painter -/

/-- R166: `ILV`. -/
def Obligations.IlvStoresTheInterleavedStream : Prop :=
  ∀ s : State, s.fault = false →
    (s.stage.toNat ≠ 3 → exec .ilv s = .next (faulted s 2)) ∧
    (s.stage.toNat = 3 → 1 ≤ s.ver.toNat → s.ver.toNat ≤ 26 →
      ∃ t, exec .ilv s = .next t ∧ t = { s with icw := t.icw, stage := 4, pc := s.pc + 1 } ∧
        (interleave s.ver.toNat s.dcw s.ecw).length = totalBytes s.ver.toNat ∧
        t.icw.readRange 0 (totalBytes s.ver.toNat) = interleave s.ver.toNat s.dcw s.ecw ∧
        ∀ a, totalBytes s.ver.toNat ≤ a → t.icw.read a = s.icw.read a)

/-- R165: where each data and parity byte stands in the interleaved stream: all data columns first, a shorter
segment having no byte in the last of them, then all parity columns. -/
def Obligations.InterleavePlacesEveryByte : Prop :=
  ∀ (v : Nat) (dcw ecw : Memory), 1 ≤ v → v ≤ 26 →
    (∀ s i, s < ns v → i < segLen v s →
      (interleave v dcw ecw)[dataPosition v s i]? = some (dcw.read (segOff v s + i))) ∧
    (∀ s i, s < ns v → i < ecBytes v →
      (interleave v dcw ecw)[dataBytes v + i * ns v + s]? = some (ecw.read (ecwIndex s i)))

/-- R177: `PAINTS`. -/
def Obligations.PaintsStoresTheStructuralGrid : Prop :=
  ∀ s : State, s.fault = false →
    (s.stage.toNat ≠ 4 → exec .paints s = .next (faulted s 2)) ∧
    (s.stage.toNat = 4 → 1 ≤ s.ver.toNat → s.ver.toNat ≤ 26 →
      ∃ t, exec .paints s = .next t ∧
        t = { s with size := t.size, grid := t.grid, stage := 5, pc := s.pc + 1 } ∧
        t.size.toNat = 17 + 4 * s.ver.toNat ∧
        (∀ x y, x < t.size.toNat → y < t.size.toNat →
          t.grid.read (y * t.size.toNat + x) = structTileAt s.ver.toNat x y) ∧
        ∀ a, t.size.toNat * t.size.toNat ≤ a → t.grid.read a = s.grid.read a)

/-- R169 to R176: every structural element stands whole in `struct(v)`: finders with separators, timing, alignment
patterns, format placeholders, dark module, version information; every other tile is 0. -/
def Obligations.StructuralElementsStandWhole : Prop :=
  ∀ v, 1 ≤ v → v ≤ 26 →
    (∀ c ∈ [(3, 3), (gridSide v - 4, 3), (3, gridSide v - 4)], ∀ x y, x < gridSide v → y < gridSide v →
      ringOf c.1 c.2 x y ≤ 4 →
      structTileAt v x y = if ringOf c.1 c.2 x y = 2 ∨ ringOf c.1 c.2 x y = 4 then 2 else 3) ∧
    (∀ i, 8 ≤ i → i ≤ gridSide v - 9 →
      structTileAt v i 6 = (if i % 2 = 0 then 3 else 2) ∧ structTileAt v 6 i = (if i % 2 = 0 then 3 else 2)) ∧
    (∀ c ∈ alignCentres v, ∀ x y, ringOf c.1 c.2 x y ≤ 2 →
      structTileAt v x y = if ringOf c.1 c.2 x y = 1 then 2 else 3) ∧
    (∀ i, i < 15 → structTileAt v (firstCopy i).1 (firstCopy i).2 = 2 ∧
      structTileAt v (secondCopy (gridSide v) i).1 (secondCopy (gridSide v) i).2 = 2) ∧
    structTileAt v 8 (gridSide v - 8) = 3 ∧
    (7 ≤ v → ∀ i, i < 18 →
      structTileAt v (gridSide v - 11 + i % 3) (i / 3) = (if (versionWord v).getLsbD i then 3 else 2) ∧
      structTileAt v (i / 3) (gridSide v - 11 + i % 3) = (if (versionWord v).getLsbD i then 3 else 2)) ∧
    (∀ x y, isStructural (structTileAt v x y) = false → structTileAt v x y = 0)

/-- R178: the capacity identity, with the remainders, for all 26 versions. -/
def Obligations.CapacityIdentity : Prop :=
  ∀ v, 1 ≤ v → v ≤ 26 →
    freeTiles v = 8 * totalBytes v + remainderTiles v ∧ (order v).length = freeTiles v

/-- R179: placement visits every non-structural tile of the grid exactly once and no other. -/
def Obligations.PlacementVisitsEveryFreeTileOnce : Prop :=
  ∀ v, 1 ≤ v → v ≤ 26 → (order v).Nodup ∧
    ∀ x y, (x, y) ∈ order v ↔ x < gridSide v ∧ y < gridSide v ∧ isStructural (structTileAt v x y) = false

/-- R180, R181, R182: `PLACE` writes bit `k` of the stream, masked, at the `k`-th tile of the order; the remainder
tiles, the structural tiles and everything else are not written. -/
def Obligations.PlaceWritesTheMaskedBits : Prop :=
  ∀ s : State, s.fault = false →
    (s.stage.toNat ≠ 5 → exec .place s = .next (faulted s 2)) ∧
    (s.stage.toNat = 5 → 1 ≤ s.ver.toNat → s.ver.toNat ≤ 26 → s.size.toNat = gridSide s.ver.toNat →
      s.grid.wf = true →
      ∃ t, exec .place s = .next t ∧ t = { s with grid := t.grid, stage := 6, pc := s.pc + 1 } ∧
        (∀ k x y, k < 8 * totalBytes s.ver.toNat → (order s.ver.toNat)[k]? = some (x, y) →
          t.grid.read (y * s.size.toNat + x) =
            BitVec.ofNat 8 (bit ((s.icw.read (k / 8)).getLsbD (7 - k % 8)) ^^^ (if (x + y) % 3 = 0 then 1 else 0))) ∧
        (∀ a, (∀ k x y, k < 8 * totalBytes s.ver.toNat → (order s.ver.toNat)[k]? = some (x, y) →
            a ≠ y * s.size.toNat + x) → t.grid.read a = s.grid.read a))

/-! ## Masking and format -/

/-- R192, R193, R194, R175: the format word and its check, the format tiles as tabulated, the version words. -/
def Obligations.FormatAndVersionConstants : Prop :=
  fmtData = 3 ∧ formatBits = 0x5B4B ∧ (formatBits ^^^ 0x5412) >>> 10 = 0b00011 ∧
  (List.range 15).map firstCopy =
    [(8, 0), (8, 1), (8, 2), (8, 3), (8, 4), (8, 5), (8, 7), (8, 8), (7, 8), (5, 8), (4, 8), (3, 8), (2, 8),
     (1, 8), (0, 8)] ∧
  (List.range 15).map (secondCopy 21) =
    [(20, 8), (19, 8), (18, 8), (17, 8), (16, 8), (15, 8), (14, 8), (13, 8), (8, 14), (8, 15), (8, 16), (8, 17),
     (8, 18), (8, 19), (8, 20)] ∧
  (List.range' 7 20).map versionWord =
    [0x07C94, 0x085BC, 0x09A99, 0x0A4D3, 0x0BBF6, 0x0C762, 0x0D847, 0x0E60D, 0x0F928, 0x10B78, 0x1145D, 0x12A17,
     0x13532, 0x149A6, 0x15683, 0x168C9, 0x177EC, 0x18EC4, 0x191E1, 0x1AFAB]

/-- R195: `FMT` writes the thirty format tiles, unmasked, and completes the code. -/
def Obligations.FmtWritesTheFormatTiles : Prop :=
  ∀ s : State, s.fault = false →
    (s.stage.toNat ≠ 6 → exec .fmt s = .next (faulted s 2)) ∧
    (s.stage.toNat = 6 → 21 ≤ s.size.toNat → s.grid.wf = true →
      ∃ t, exec .fmt s = .next t ∧
        t = { s with grid := t.grid, stage := 7, valid := true, pc := s.pc + 1 } ∧
        (∀ i, i < 15 →
          t.grid.read ((firstCopy i).2 * s.size.toNat + (firstCopy i).1) =
            (if (0x5B4B : Nat).testBit i then 3 else 2) ∧
          t.grid.read ((secondCopy s.size.toNat i).2 * s.size.toNat + (secondCopy s.size.toNat i).1) =
            (if (0x5B4B : Nat).testBit i then 3 else 2)) ∧
        (∀ a, (∀ i, i < 15 → a ≠ (firstCopy i).2 * s.size.toNat + (firstCopy i).1 ∧
            a ≠ (secondCopy s.size.toNat i).2 * s.size.toNat + (secondCopy s.size.toNat i).1) →
          t.grid.read a = s.grid.read a))

/-! ## GENERATE -/

/-- R117, R200: `GENERATE` succeeds on every payload of at most 1059 bytes, with the smallest fitting version and a
complete code, and never faults; above that the result is absent. That no buffer is changed then is this model's
choice (log entry 7): R38 and R243 leave the stale contents of `DCW`, `ECW`, `ICW` and `GRID` open. -/
def Obligations.GenerateCompletesOrReportsCapacityExceeded : Prop :=
  ∀ s : State, s.fault = false →
    (s.plen.toNat ≤ 1059 →
      ∃ t v, smallestFitting s.plen.toNat v ∧ exec .generate s = .next t ∧
        t.ver.toNat = v ∧ t.size.toNat = 17 + 4 * v ∧ t.stage = 7 ∧ t.valid = true ∧ t.err = false ∧
        t.dlen.toNat = dataBytes v ∧ t.fault = false ∧ t.fcause = s.fcause ∧ t.gp = s.gp ∧ t.pay = s.pay ∧
        t.plen = s.plen ∧ t.out = s.out ∧ t.pc = s.pc + 1 ∧ t.cmds = s.cmds) ∧
    (1059 < s.plen.toNat →
      exec .generate s = .next { s with ver := 0, stage := 0, dlen := 0, size := 0, valid := false, err := true,
                                        pc := s.pc + 1 })

/-- R201, second half, and R80: where the payload fits, `GENERATE` and the seven separate commands reach the same
state but for `pc`; where it does not, `FRAME` after the failed `SELECT` raises `Fault(SEQ)`. -/
def Obligations.GenerateEqualsThePipeline : Prop :=
  ∀ s : State, s.fault = false →
    (s.plen.toNat ≤ 1059 →
      ∃ t, exec .generate s = .next t ∧ execAll pipeline s = some { t with pc := s.pc + 7 }) ∧
    (1059 < s.plen.toNat →
      ∃ t u, exec .generate s = .next t ∧ t.err = true ∧ t.fault = false ∧
        execAll [.select, .frame] s = some u ∧ u.fault = true ∧ u.fcause = 2)

/-- R201, first half: what `GENERATE` leaves readable is a function of the payload alone: two states that agree on
`PLEN` and on the payload bytes agree afterwards on every register the encode writes and on every readable byte,
whatever their buffers held before. -/
def Obligations.GenerateDependsOnThePayloadAlone : Prop :=
  ∀ a b : State, a.fault = false → b.fault = false → a.grid.wf = true → b.grid.wf = true →
    a.plen = b.plen → a.plen.toNat ≤ 1059 → (∀ i, i < a.plen.toNat → a.pay.read i = b.pay.read i) →
    ∃ t u, exec .generate a = .next t ∧ exec .generate b = .next u ∧
      t.ver = u.ver ∧ t.dlen = u.dlen ∧ t.size = u.size ∧ t.stage = u.stage ∧ t.valid = u.valid ∧ t.err = u.err ∧
      t.nec = u.nec ∧ regPrefix t.gen (t.nec.toNat + 1) = regPrefix u.gen (t.nec.toNat + 1) ∧
      regPrefix t.rem t.nec.toNat = regPrefix u.rem t.nec.toNat ∧
      (∀ i, i < t.dlen.toNat → t.dcw.read i = u.dcw.read i) ∧
      (∀ k i, k < ns t.ver.toNat → i < ecBytes t.ver.toNat →
        t.ecw.read (ecwIndex k i) = u.ecw.read (ecwIndex k i)) ∧
      (∀ i, i < totalBytes t.ver.toNat → t.icw.read i = u.icw.read i) ∧
      (∀ i, i < t.size.toNat * t.size.toNat → t.grid.read i = u.grid.read i)

/-! ## Invariants and whole-machine rules -/

/-- R31, R39, R243: no command reads an element that has not been written since the last reset or restart: two legal
states that agree on what is readable step to states that agree on what is readable, `OUT` included. So nothing
observable rests on the values log entries 4 to 7 choose for unspecified and stale contents. -/
def Obligations.UnspecifiedContentsAreUnobservable : Prop :=
  ∀ a b t : State, Legal a → Legal b → SameReadable a b → step a = .next t →
    ∃ u, step b = .next u ∧ SameReadable t u

/-- The invariants hold at reset (R39, R40). -/
def Obligations.ResetStateIsLegal : Prop := Legal State.reset ∧ StageHolds State.reset

/-- R40 and the legal values of R23, R25, R29, R30, R32, R50: every step from a legal state ends in one. -/
def Obligations.EveryStepKeepsTheStateLegal : Prop := ∀ s t : State, Legal s → step s = .next t → Legal t

/-- R29: what each stage says the buffers hold, they hold, after every step from a legal state. -/
def Obligations.EveryStepKeepsWhatTheStageHolds : Prop :=
  ∀ s t : State, Legal s → StageHolds s → step s = .next t → StageHolds t

/-- R27: `VALID` is set only by `FMT` and by `GENERATE`, and cleared only by `SELECT`, `SETVER`, `GENERATE` and
`RESET`. -/
def Obligations.ValidIsSetOnlyByFmtAndGenerate : Prop :=
  ∀ (s t : State) (w : Word), s.fetch = some w → step s = .next t →
    (s.valid = false → t.valid = true → decode w = .ok .fmt ∨ decode w = .ok .generate) ∧
    (s.valid = true → t.valid = false →
      decode w = .ok .select ∨ (∃ k, decode w = .ok (.setver k)) ∨ decode w = .ok .generate ∨
        decode w = .ok .reset)

/-- R22: `GP` is written only by the five field commands and by `RESET`. -/
def Obligations.GpIsWrittenOnlyByFieldCommandsAndReset : Prop :=
  ∀ (s t : State) (w : Word), s.fetch = some w → step s = .next t → t.gp ≠ s.gp →
    (∃ p q, decode w = .ok (.gfmul p q)) ∨ (∃ k, decode w = .ok (.gfmula k)) ∨ (∃ k, decode w = .ok (.gfinv k)) ∨
    (∃ k, decode w = .ok (.gfexp k)) ∨ (∃ k, decode w = .ok (.gflog k)) ∨ decode w = .ok .reset

/-- R35, R62: `OUT` is append-only: a step appends at most one value, and only a read-out command appends. -/
def Obligations.OutIsAppendOnly : Prop :=
  ∀ (s t : State) (w : Word), s.fetch = some w → step s = .next t →
    t.out = s.out ∨
    ((∃ v, t.out = s.out ++ [v]) ∧
      ∃ i, decode w = .ok i ∧ i.mnemonic ∈
        ["RDSTAT", "RDSIZE", "RDTILE", "RDCW", "RDDCW", "RDPLEN", "RDDLEN", "RDEC", "RDGP", "RDREM", "RDGEN",
         "VINFO"])

/-- R235, R51: the payload is frozen by selection: away from stage 0 no step but `RESET` changes `PAY` or `PLEN`; at
stage 0 only `PUSHB` and `RESET` do. -/
def Obligations.PayloadIsFrozenBySelection : Prop :=
  ∀ (s t : State) (w : Word), s.fetch = some w → step s = .next t → (t.pay ≠ s.pay ∨ t.plen ≠ s.plen) →
    decode w = .ok .reset ∨ (s.stage = 0 ∧ ∃ k, decode w = .ok (.pushb k))
end

