-- ==== Sys2Proof/Laws/Decode.lean ====
section
/-! SUPPORT. Laws/Decode.lean: the fields of a packed word, and a word from its fields (R71). -/

namespace Sys2Proof

@[simp] theorem opField_packWord (op b c : Byte) : opField (packWord op b c) = op := by
  ext i hi
  simp only [opField, packWord, BitVec.getElem_extractLsb', BitVec.getLsbD_append]
  rw [if_neg (by omega), if_neg (by omega), if_neg (by omega), BitVec.getElem_eq_testBit_toNat, BitVec.getLsbD]
  congr 1
  omega

@[simp] theorem aField_packWord (op b c : Byte) : aField (packWord op b c) = 0 := by
  ext i hi
  simp only [aField, packWord, BitVec.getElem_extractLsb', BitVec.getLsbD_append]
  rw [if_neg (by omega), if_neg (by omega), if_pos (by omega)]
  simp

@[simp] theorem bField_packWord (op b c : Byte) : bField (packWord op b c) = b := by
  ext i hi
  simp only [bField, packWord, BitVec.getElem_extractLsb', BitVec.getLsbD_append]
  rw [if_neg (by omega), if_pos (by omega), BitVec.getElem_eq_testBit_toNat, BitVec.getLsbD]
  congr 1
  omega

@[simp] theorem cField_packWord (op b c : Byte) : cField (packWord op b c) = c := by
  ext i hi
  simp only [cField, packWord, BitVec.getElem_extractLsb', BitVec.getLsbD_append]
  rw [if_pos (by omega), BitVec.getElem_eq_testBit_toNat, BitVec.getLsbD]
  congr 1
  omega

@[simp] theorem opField_packHalf (op : Byte) (k : Half) : opField (packHalf op k) = op := by
  ext i hi
  simp only [opField, packHalf, BitVec.getElem_extractLsb', BitVec.getLsbD_append]
  rw [if_neg (by omega), if_neg (by omega), BitVec.getElem_eq_testBit_toNat, BitVec.getLsbD]
  congr 1
  omega

@[simp] theorem aField_packHalf (op : Byte) (k : Half) : aField (packHalf op k) = 0 := by
  ext i hi
  simp only [aField, packHalf, BitVec.getElem_extractLsb', BitVec.getLsbD_append]
  rw [if_neg (by omega), if_pos (by omega)]
  simp

@[simp] theorem immField_packHalf (op : Byte) (k : Half) : immField (packHalf op k) = k := by
  ext i hi
  simp only [immField, packHalf, BitVec.getElem_extractLsb', BitVec.getLsbD_append]
  rw [if_pos (by omega), BitVec.getElem_eq_testBit_toNat, BitVec.getLsbD]
  congr 1
  omega

theorem getLsbD_of_aField {w : Word} (h : aField w = 0) {i : Nat} (h1 : 16 ≤ i) (h2 : i < 24) :
    w.getLsbD i = false := by
  have := congrArg (fun v : Byte => v.getLsbD (i - 16)) h
  simpa [aField, show i - 16 < 8 by omega, show 16 + (i - 16) = i by omega] using this

/-- A word whose reserved field is 0 is the packing of its fields. -/
theorem packWord_fields (w : Word) (h : aField w = 0) : packWord (opField w) (bField w) (cField w) = w := by
  ext i hi
  rw [← BitVec.getLsbD_eq_getElem, ← BitVec.getLsbD_eq_getElem]
  simp only [packWord, BitVec.getLsbD_append, cField, bField, opField, BitVec.getLsbD_extractLsb']
  by_cases h1 : i < 8
  · simp [h1]
  by_cases h2 : i < 16
  · simp [h1, show i - 8 < 8 by omega, show 8 + (i - 8) = i by omega]
  by_cases h3 : i < 24
  · simp [h1, show ¬ i - 8 < 8 by omega, show i - 8 - 8 < 8 by omega, getLsbD_of_aField h (by omega) h3]
  · simp [h1, show ¬ i - 8 < 8 by omega, show ¬ i - 8 - 8 < 8 by omega, show i - 8 - 8 - 8 < 8 by omega,
      show 24 + (i - 8 - 8 - 8) = i by omega]

/-- A word whose reserved field is 0 is the packing of its opcode and its half-word field. -/
theorem packHalf_fields (w : Word) (h : aField w = 0) : packHalf (opField w) (immField w) = w := by
  ext i hi
  rw [← BitVec.getLsbD_eq_getElem, ← BitVec.getLsbD_eq_getElem]
  simp only [packHalf, BitVec.getLsbD_append, immField, opField, BitVec.getLsbD_extractLsb']
  by_cases h2 : i < 16
  · simp [h2]
  by_cases h3 : i < 24
  · simp [h2, show i - 16 < 8 by omega, getLsbD_of_aField h (by omega) h3]
  · simp [h2, show ¬ i - 16 < 8 by omega, show i - 16 - 8 < 8 by omega, show 24 + (i - 16 - 8) = i by omega]

/-! What each format's decoder answers. -/

theorem decodeZ_ok {w : Word} {i j : Instr} (h : decodeZ w i = .ok j) :
    j = i ∧ aField w = 0 ∧ bField w = 0 ∧ cField w = 0 := by
  unfold decodeZ at h
  split at h <;> simp_all

theorem decodeB_ok {w : Word} {f : Byte → Instr} {j : Instr} (h : decodeB w f = .ok j) :
    j = f (cField w) ∧ aField w = 0 ∧ bField w = 0 := by
  unfold decodeB at h
  split at h <;> simp_all

theorem decodeBB_ok {w : Word} {f : Byte → Byte → Instr} {j : Instr} (h : decodeBB w f = .ok j) :
    j = f (bField w) (cField w) ∧ aField w = 0 := by
  unfold decodeBB at h
  split at h <;> simp_all

theorem decodeH_ok {w : Word} {f : Half → Instr} {j : Instr} (h : decodeH w f = .ok j) :
    j = f (immField w) ∧ aField w = 0 := by
  unfold decodeH at h
  split at h <;> simp_all

theorem decodeXY_ok {w : Word} {f : Byte → Byte → Instr} {j : Instr} (h : decodeXY w f = .ok j) :
    j = f (bField w) (cField w) ∧ aField w = 0 := by
  unfold decodeXY at h
  split at h <;> simp_all

end Sys2Proof
end

