-- ==== Sys2Proof/Laws/Memory.lean ====
section
/-! SUPPORT. Laws/Memory.lean: reading after every kind of write, and that each keeps the canonical form. -/

namespace Sys2Proof.Machine

/-- The canonical form, as the two facts proofs use. -/
theorem Memory.wf_iff (m : Memory) :
    m.wf = true ↔ m.Pairwise (fun a b => a.1 < b.1) ∧ ∀ c ∈ m, c.2 ≠ unlisted := by
  induction m with
  | nil => simp [Memory.wf]
  | cons c rest ih =>
    obtain ⟨a, v⟩ := c
    cases rest with
    | nil => simp [Memory.wf]
    | cons d tail =>
      obtain ⟨b, w⟩ := d
      simp only [Memory.wf, Bool.and_eq_true, decide_eq_true_eq, ih, List.pairwise_cons, List.mem_cons]
      constructor
      · rintro ⟨⟨hv, hab⟩, ⟨hb, ht⟩, hne⟩
        refine ⟨⟨?_, hb, ht⟩, ?_⟩
        · rintro c (rfl | hc)
          · exact hab
          · exact lt_trans hab (hb c hc)
        · rintro c (rfl | hc)
          · exact hv
          · exact hne c hc
      · rintro ⟨⟨ha, hb, ht⟩, hne⟩
        exact ⟨⟨hne _ (.inl rfl), ha _ (.inl rfl)⟩, ⟨hb, ht⟩, fun c hc => hne c (.inr hc)⟩

@[simp] theorem Memory.wf_nil : Memory.wf [] = true := rfl

@[simp] theorem Memory.read_nil (i : Nat) : Memory.read [] i = unlisted := rfl

theorem Memory.read_cons (c : Host.Cell) (m : Memory) (i : Nat) :
    Memory.read (c :: m) i = if c.1 = i then c.2 else m.read i := rfl

/-- An index that no cell lists reads as unlisted. -/
theorem Memory.read_of_not_listed {m : Memory} {i : Nat} (h : ∀ c ∈ m, c.1 ≠ i) : m.read i = unlisted := by
  induction m with
  | nil => rfl
  | cons c rest ih =>
    rw [Memory.read_cons, if_neg (h c (List.mem_cons_self ..))]
    exact ih fun d hd => h d (List.mem_cons_of_mem _ hd)

theorem Memory.read_append_of_not_listed {m n : Memory} {i : Nat} (h : ∀ c ∈ m, c.1 ≠ i) :
    Memory.read (m ++ n) i = n.read i := by
  induction m with
  | nil => rfl
  | cons c rest ih =>
    rw [List.cons_append, Memory.read_cons, if_neg (h c (List.mem_cons_self ..))]
    exact ih fun d hd => h d (List.mem_cons_of_mem _ hd)

theorem Memory.read_append_of_not_listed_right {m n : Memory} {i : Nat} (h : ∀ c ∈ n, c.1 ≠ i) :
    Memory.read (m ++ n) i = m.read i := by
  induction m with
  | nil => exact Memory.read_of_not_listed h
  | cons c rest ih => rw [List.cons_append, Memory.read_cons, Memory.read_cons, ih]

theorem Memory.mem_cells {i : Nat} {v : Byte} {c : Host.Cell} (h : c ∈ Memory.cells i v) :
    c = (i, v) ∧ v ≠ unlisted := by
  unfold Memory.cells at h
  split at h
  · simp at h
  · exact ⟨by simpa using h, by assumption⟩

theorem Memory.read_cells_self (i : Nat) (v : Byte) : Memory.read (Memory.cells i v) i = v := by
  unfold Memory.cells
  split
  · simp_all
  · simp [Memory.read_cons]

/-! ## One byte -/

/-- Every cell of a write is the written one or an old one at another index. -/
theorem Memory.mem_write {m : Memory} {i : Nat} {v : Byte} {c : Host.Cell}
    (hm : m.Pairwise (fun a b => a.1 < b.1)) (h : c ∈ m.write i v) :
    (c = (i, v) ∧ v ≠ unlisted) ∨ (c ∈ m ∧ c.1 ≠ i) := by
  induction m with
  | nil => exact .inl (Memory.mem_cells h)
  | cons d rest ih =>
    rw [List.pairwise_cons] at hm
    unfold Memory.write at h
    split at h
    · rename_i hlt
      rcases List.mem_cons.1 h with rfl | h
      · exact .inr ⟨List.mem_cons_self .., by omega⟩
      · rcases ih hm.2 h with h | ⟨h, hne⟩
        · exact .inl h
        · exact .inr ⟨List.mem_cons_of_mem _ h, hne⟩
    · rename_i hge
      rcases List.mem_append.1 h with h | h
      · exact .inl (Memory.mem_cells h)
      · split at h
        · rename_i heq
          have := hm.1 c h
          exact .inr ⟨List.mem_cons_of_mem _ h, by omega⟩
        · rename_i hne
          rcases List.mem_cons.1 h with rfl | h'
          · exact .inr ⟨List.mem_cons_self .., hne⟩
          · have := hm.1 c h'
            exact .inr ⟨List.mem_cons_of_mem _ h', by omega⟩

/-- A write keeps the canonical form. -/
theorem Memory.wf_write {m : Memory} (i : Nat) (v : Byte) (h : m.wf = true) : (m.write i v).wf = true := by
  rw [Memory.wf_iff] at h ⊢
  obtain ⟨hs, hne⟩ := h
  refine ⟨?_, ?_⟩
  · induction m with
    | nil => unfold Memory.write Memory.cells; split <;> simp
    | cons d rest ih =>
      have hs' := List.pairwise_cons.1 hs
      unfold Memory.write
      split
      · rename_i hlt
        refine List.pairwise_cons.2 ⟨fun c hc => ?_, ih hs'.2 fun c hc => hne c (List.mem_cons_of_mem _ hc)⟩
        rcases Memory.mem_write hs'.2 hc with ⟨rfl, -⟩ | ⟨hc, -⟩
        · exact hlt
        · exact hs'.1 c hc
      · rename_i hge
        refine List.pairwise_append.2 ⟨?_, ?_, ?_⟩
        · unfold Memory.cells; split <;> simp
        · split
          · exact hs'.2
          · exact hs
        · intro a ha b hb
          obtain ⟨rfl, -⟩ := Memory.mem_cells ha
          split at hb
          · have := hs'.1 b hb; simp only; omega
          · rcases List.mem_cons.1 hb with rfl | hb
            · simp only; omega
            · have := hs'.1 b hb; simp only; omega
  · intro c hc
    rcases Memory.mem_write hs hc with ⟨rfl, hv⟩ | ⟨hc, -⟩
    · exact hv
    · exact hne c hc

/-- A read after a write: the byte written at its index, every other byte as before. -/
theorem Memory.read_write {m : Memory} (i : Nat) (v : Byte) (j : Nat) (h : m.wf = true) :
    (m.write i v).read j = if i = j then v else m.read j := by
  have hs := ((Memory.wf_iff m).1 h).1
  clear h
  induction m with
  | nil =>
    unfold Memory.write
    split
    · subst j; exact Memory.read_cells_self i v
    · rename_i hne
      exact Memory.read_of_not_listed fun c hc => by obtain ⟨rfl, -⟩ := Memory.mem_cells hc; exact hne
  | cons d rest ih =>
    rw [List.pairwise_cons] at hs
    unfold Memory.write
    split
    · rename_i hlt
      rw [Memory.read_cons, Memory.read_cons, ih hs.2]
      split
      · rw [if_neg (by omega)]
      · rfl
    · rename_i hge
      by_cases hij : i = j
      · subst j
        rw [if_pos rfl, Memory.read_append_of_not_listed_right, Memory.read_cells_self]
        intro c hc
        split at hc
        · have := hs.1 c hc; omega
        · rcases List.mem_cons.1 hc with rfl | hc
          · assumption
          · have := hs.1 c hc; omega
      · rw [if_neg hij, Memory.read_append_of_not_listed
          (fun c hc => by obtain ⟨rfl, -⟩ := Memory.mem_cells hc; exact hij)]
        split
        · rw [Memory.read_cons, if_neg (by omega)]
        · rfl

/-! ## Several bytes in list order -/

@[simp] theorem Memory.writeMany_nil (m : Memory) : m.writeMany [] = m := rfl

@[simp] theorem Memory.writeMany_cons (m : Memory) (w : Host.Cell) (ws : List Host.Cell) :
    m.writeMany (w :: ws) = (m.write w.1 w.2).writeMany ws := rfl

theorem Memory.wf_writeMany {m : Memory} (ws : List Host.Cell) (h : m.wf = true) : (m.writeMany ws).wf = true := by
  induction ws generalizing m with
  | nil => exact h
  | cons w ws ih => exact ih (Memory.wf_write w.1 w.2 h)

/-- An index that no write names reads as before. -/
theorem Memory.read_writeMany_of_not_mem {m : Memory} {ws : List Host.Cell} {j : Nat} (h : m.wf = true)
    (hj : ∀ w ∈ ws, w.1 ≠ j) : (m.writeMany ws).read j = m.read j := by
  induction ws generalizing m with
  | nil => rfl
  | cons w ws ih =>
    rw [Memory.writeMany_cons, ih (Memory.wf_write w.1 w.2 h) fun v hv => hj v (List.mem_cons_of_mem _ hv),
      Memory.read_write _ _ _ h, if_neg (hj w (List.mem_cons_self ..))]

/-- The value read is fixed by the writes and, where none of them names the index, by the old value. -/
theorem Memory.read_writeMany_congr {m n : Memory} {ws : List Host.Cell} {j : Nat} (hm : m.wf = true)
    (hn : n.wf = true) (h : m.read j = n.read j) : (m.writeMany ws).read j = (n.writeMany ws).read j := by
  induction ws generalizing m n with
  | nil => exact h
  | cons w ws ih =>
    refine ih (Memory.wf_write _ _ hm) (Memory.wf_write _ _ hn) ?_
    rw [Memory.read_write _ _ _ hm, Memory.read_write _ _ _ hn, h]

/-! ## A whole range -/

theorem Memory.mem_lay {i : Nat} {vs : List Byte} {c : Host.Cell} (h : c ∈ Memory.lay i vs) :
    i ≤ c.1 ∧ c.1 < i + vs.length ∧ c.2 ≠ unlisted ∧ c.2 ∈ vs := by
  induction vs generalizing i with
  | nil => simp [Memory.lay] at h
  | cons v vs ih =>
    rcases List.mem_append.1 (by simpa only [Memory.lay] using h) with h | h
    · obtain ⟨rfl, hv⟩ := Memory.mem_cells h
      exact ⟨le_refl _, by simp, hv, by simp⟩
    · obtain ⟨h1, h2, h3, h4⟩ := ih h
      exact ⟨by omega, by simp only [List.length_cons]; omega, h3, List.mem_cons_of_mem _ h4⟩

theorem Memory.wf_lay (i : Nat) (vs : List Byte) : (Memory.lay i vs).wf = true := by
  rw [Memory.wf_iff]
  refine ⟨?_, fun c hc => (Memory.mem_lay hc).2.2.1⟩
  induction vs generalizing i with
  | nil => simp [Memory.lay]
  | cons v vs ih =>
    unfold Memory.lay
    refine List.pairwise_append.2 ⟨?_, ih (i + 1), fun a ha b hb => ?_⟩
    · unfold Memory.cells; split <;> simp
    · obtain ⟨rfl, -⟩ := Memory.mem_cells ha
      have := (Memory.mem_lay hb).1
      simp only
      omega

theorem Memory.read_lay (i : Nat) (vs : List Byte) (k : Nat) (hk : k < vs.length) :
    (Memory.lay i vs).read (i + k) = vs.getD k 0 := by
  induction vs generalizing i k with
  | nil => simp at hk
  | cons v vs ih =>
    unfold Memory.lay
    cases k with
    | zero =>
      rw [Memory.read_append_of_not_listed_right]
      · simpa using Memory.read_cells_self i v
      · intro c hc
        have := (Memory.mem_lay hc).1
        omega
    | succ k =>
      rw [Memory.read_append_of_not_listed
        (fun c hc => by obtain ⟨rfl, -⟩ := Memory.mem_cells hc; simp)]
      have := ih (i + 1) k (by simpa using hk)
      rw [show i + (k + 1) = i + 1 + k by omega, this]
      simp

theorem Memory.pairwise_filter {m : Memory} (p : Host.Cell → Bool)
    (h : m.Pairwise (fun a b => a.1 < b.1)) : (m.filter p).Pairwise (fun a b => a.1 < b.1) := h.filter p

theorem Memory.wf_writeRange {m : Memory} (i : Nat) (vs : List Byte) (h : m.wf = true) :
    (m.writeRange i vs).wf = true := by
  rw [Memory.wf_iff] at h ⊢
  obtain ⟨hs, hne⟩ := h
  have hl := (Memory.wf_iff _).1 (Memory.wf_lay i vs)
  refine ⟨?_, ?_⟩
  · unfold Memory.writeRange
    refine List.pairwise_append.2 ⟨List.pairwise_append.2 ⟨hs.filter _, hl.1, ?_⟩, hs.filter _, ?_⟩
    · intro a ha b hb
      have := (List.mem_filter.1 ha).2
      have := (Memory.mem_lay hb).1
      simp only [decide_eq_true_eq] at *
      omega
    · intro a ha b hb
      have hb := (List.mem_filter.1 hb).2
      simp only [decide_eq_true_eq] at hb
      rcases List.mem_append.1 ha with ha | ha
      · have := (List.mem_filter.1 ha).2
        simp only [decide_eq_true_eq] at this
        omega
      · have := (Memory.mem_lay ha).2.1
        omega
  · intro c hc
    rcases List.mem_append.1 hc with hc | hc
    · rcases List.mem_append.1 hc with hc | hc
      · exact hne c (List.mem_filter.1 hc).1
      · exact hl.2 c hc
    · exact hne c (List.mem_filter.1 hc).1

theorem Memory.read_filter_of_keep {m : Memory} {p : Host.Cell → Bool} {j : Nat} (h : ∀ v, p (j, v) = true) :
    Memory.read (m.filter p) j = m.read j := by
  induction m with
  | nil => rfl
  | cons c rest ih =>
    obtain ⟨a, v⟩ := c
    by_cases hp : p (a, v) = true
    · rw [List.filter_cons_of_pos hp, Memory.read_cons, Memory.read_cons, ih]
    · rw [List.filter_cons_of_neg hp, Memory.read_cons, ih, if_neg]
      rintro rfl
      exact hp (h v)

/-- A read after a range was written: the range's bytes, and every byte outside it as before. -/
theorem Memory.read_writeRange (m : Memory) (i : Nat) (vs : List Byte) (j : Nat) :
    (m.writeRange i vs).read j =
      if i ≤ j ∧ j < i + vs.length then vs.getD (j - i) 0 else m.read j := by
  have hfst : ∀ c ∈ m.filter (fun c => decide (c.1 < i)), c.1 < i := fun c hc => by
    simpa using (List.mem_filter.1 hc).2
  have hlst : ∀ c ∈ m.filter (fun c => decide (i + vs.length ≤ c.1)), i + vs.length ≤ c.1 := fun c hc => by
    simpa using (List.mem_filter.1 hc).2
  unfold Memory.writeRange
  split
  · rename_i h
    rw [Memory.read_append_of_not_listed_right (fun c hc => by have := hlst c hc; omega),
      Memory.read_append_of_not_listed (fun c hc => by have := hfst c hc; omega)]
    have := Memory.read_lay i vs (j - i) (by omega)
    rwa [show i + (j - i) = j by omega] at this
  · rename_i h
    by_cases hj : j < i
    · rw [Memory.read_append_of_not_listed_right (fun c hc => by have := hlst c hc; omega),
        Memory.read_append_of_not_listed_right (fun c hc => by have := (Memory.mem_lay hc).1; omega),
        Memory.read_filter_of_keep (by simpa using hj)]
    · rw [List.append_assoc, Memory.read_append_of_not_listed (fun c hc => by have := hfst c hc; omega),
        Memory.read_append_of_not_listed (fun c hc => by have := (Memory.mem_lay hc).2.1; omega),
        Memory.read_filter_of_keep (by simp; omega)]

@[simp] theorem Memory.length_readRange (m : Memory) (i k : Nat) : (m.readRange i k).length = k := by
  simp [Memory.readRange]

theorem Memory.getElem?_readRange (m : Memory) (i k j : Nat) (h : j < k) :
    (m.readRange i k)[j]? = some (m.read (i + j)) := by
  simp [Memory.readRange, h]

/-- Two memories that read alike on a range have the same bytes there. -/
theorem Memory.readRange_congr {m n : Memory} {i k : Nat} (h : ∀ j < k, m.read (i + j) = n.read (i + j)) :
    m.readRange i k = n.readRange i k := by
  unfold Memory.readRange
  exact List.map_congr_left fun j hj => h j (List.mem_range.1 hj)

/-- Reading back a range just written. -/
theorem Memory.readRange_writeRange (m : Memory) (i : Nat) (vs : List Byte) :
    (m.writeRange i vs).readRange i vs.length = vs := by
  refine List.ext_getElem? fun j => ?_
  by_cases hj : j < vs.length
  · rw [Memory.getElem?_readRange _ _ _ _ hj, Memory.read_writeRange, if_pos ⟨by omega, by omega⟩]
    simp [hj]
  · simp [Memory.readRange, hj]

/-! ## Register files -/

theorem regRead_regLoad {n : Nat} (r : Vector Byte n) (vs : List Byte) (i : Nat) (h : i < n) :
    regRead (regLoad r vs) i = if i < vs.length then vs.getD i 0 else regRead r i := by
  simp [regRead, regLoad, h]

theorem regPrefix_length {n : Nat} (r : Vector Byte n) (k : Nat) (h : k ≤ n) : (regPrefix r k).length = k := by
  simp [regPrefix, h]

theorem regPrefix_getD {n : Nat} (r : Vector Byte n) (k i : Nat) (h : i < k) :
    (regPrefix r k).getD i 0 = regRead r i := by
  simp [regPrefix, regRead, h]

/-- The entries just loaded read back as a list. -/
theorem regPrefix_regLoad {n : Nat} (r : Vector Byte n) (vs : List Byte) (h : vs.length ≤ n) :
    regPrefix (regLoad r vs) vs.length = vs := by
  refine List.ext_getElem? fun j => ?_
  by_cases hj : j < vs.length
  · have hn : j < n := by omega
    simp [regPrefix, regLoad, hj, hn]
  · simp [regPrefix, hj]

end Sys2Proof.Machine
end

