-- ==== Sys2Proof/Laws/State.lean ====
section
/-! SUPPORT. Laws/State.lean: what each named update of State writes and what it leaves, field by field. -/

namespace Sys2Proof.Machine

/-! ### `State.emit` -/

@[simp] theorem State.emit_gp (s : State) (v : Half) : (s.emit v).gp = s.gp := rfl
@[simp] theorem State.emit_nec (s : State) (v : Half) : (s.emit v).nec = s.nec := rfl
@[simp] theorem State.emit_gen (s : State) (v : Half) : (s.emit v).gen = s.gen := rfl
@[simp] theorem State.emit_rem (s : State) (v : Half) : (s.emit v).rem = s.rem := rfl
@[simp] theorem State.emit_plen (s : State) (v : Half) : (s.emit v).plen = s.plen := rfl
@[simp] theorem State.emit_ver (s : State) (v : Half) : (s.emit v).ver = s.ver := rfl
@[simp] theorem State.emit_dlen (s : State) (v : Half) : (s.emit v).dlen = s.dlen := rfl
@[simp] theorem State.emit_size (s : State) (v : Half) : (s.emit v).size = s.size := rfl
@[simp] theorem State.emit_stage (s : State) (v : Half) : (s.emit v).stage = s.stage := rfl
@[simp] theorem State.emit_valid (s : State) (v : Half) : (s.emit v).valid = s.valid := rfl
@[simp] theorem State.emit_err (s : State) (v : Half) : (s.emit v).err = s.err := rfl
@[simp] theorem State.emit_fault (s : State) (v : Half) : (s.emit v).fault = s.fault := rfl
@[simp] theorem State.emit_fcause (s : State) (v : Half) : (s.emit v).fcause = s.fcause := rfl
@[simp] theorem State.emit_pay (s : State) (v : Half) : (s.emit v).pay = s.pay := rfl
@[simp] theorem State.emit_dcw (s : State) (v : Half) : (s.emit v).dcw = s.dcw := rfl
@[simp] theorem State.emit_ecw (s : State) (v : Half) : (s.emit v).ecw = s.ecw := rfl
@[simp] theorem State.emit_icw (s : State) (v : Half) : (s.emit v).icw = s.icw := rfl
@[simp] theorem State.emit_grid (s : State) (v : Half) : (s.emit v).grid = s.grid := rfl
@[simp] theorem State.emit_out (s : State) (v : Half) : (s.emit v).out = s.out ++ [v] := rfl
@[simp] theorem State.emit_pc (s : State) (v : Half) : (s.emit v).pc = s.pc := rfl
@[simp] theorem State.emit_cmds (s : State) (v : Half) : (s.emit v).cmds = s.cmds := rfl

/-! ### `State.raiseFault` -/

@[simp] theorem State.raiseFault_gp (s : State) (c : Cause) : (s.raiseFault c).gp = s.gp := rfl
@[simp] theorem State.raiseFault_nec (s : State) (c : Cause) : (s.raiseFault c).nec = s.nec := rfl
@[simp] theorem State.raiseFault_gen (s : State) (c : Cause) : (s.raiseFault c).gen = s.gen := rfl
@[simp] theorem State.raiseFault_rem (s : State) (c : Cause) : (s.raiseFault c).rem = s.rem := rfl
@[simp] theorem State.raiseFault_plen (s : State) (c : Cause) : (s.raiseFault c).plen = s.plen := rfl
@[simp] theorem State.raiseFault_ver (s : State) (c : Cause) : (s.raiseFault c).ver = s.ver := rfl
@[simp] theorem State.raiseFault_dlen (s : State) (c : Cause) : (s.raiseFault c).dlen = s.dlen := rfl
@[simp] theorem State.raiseFault_size (s : State) (c : Cause) : (s.raiseFault c).size = s.size := rfl
@[simp] theorem State.raiseFault_stage (s : State) (c : Cause) : (s.raiseFault c).stage = s.stage := rfl
@[simp] theorem State.raiseFault_valid (s : State) (c : Cause) : (s.raiseFault c).valid = s.valid := rfl
@[simp] theorem State.raiseFault_err (s : State) (c : Cause) : (s.raiseFault c).err = s.err := rfl
@[simp] theorem State.raiseFault_fault (s : State) (c : Cause) : (s.raiseFault c).fault = true := rfl
@[simp] theorem State.raiseFault_fcause (s : State) (c : Cause) : (s.raiseFault c).fcause = c.code := rfl
@[simp] theorem State.raiseFault_pay (s : State) (c : Cause) : (s.raiseFault c).pay = s.pay := rfl
@[simp] theorem State.raiseFault_dcw (s : State) (c : Cause) : (s.raiseFault c).dcw = s.dcw := rfl
@[simp] theorem State.raiseFault_ecw (s : State) (c : Cause) : (s.raiseFault c).ecw = s.ecw := rfl
@[simp] theorem State.raiseFault_icw (s : State) (c : Cause) : (s.raiseFault c).icw = s.icw := rfl
@[simp] theorem State.raiseFault_grid (s : State) (c : Cause) : (s.raiseFault c).grid = s.grid := rfl
@[simp] theorem State.raiseFault_out (s : State) (c : Cause) : (s.raiseFault c).out = s.out := rfl
@[simp] theorem State.raiseFault_pc (s : State) (c : Cause) : (s.raiseFault c).pc = s.pc := rfl
@[simp] theorem State.raiseFault_cmds (s : State) (c : Cause) : (s.raiseFault c).cmds = s.cmds := rfl

/-! ### `State.clear` -/

@[simp] theorem State.clear_gp (s : State) : (s.clear).gp = State.reset.gp := rfl
@[simp] theorem State.clear_nec (s : State) : (s.clear).nec = State.reset.nec := rfl
@[simp] theorem State.clear_gen (s : State) : (s.clear).gen = State.reset.gen := rfl
@[simp] theorem State.clear_rem (s : State) : (s.clear).rem = State.reset.rem := rfl
@[simp] theorem State.clear_plen (s : State) : (s.clear).plen = State.reset.plen := rfl
@[simp] theorem State.clear_ver (s : State) : (s.clear).ver = State.reset.ver := rfl
@[simp] theorem State.clear_dlen (s : State) : (s.clear).dlen = State.reset.dlen := rfl
@[simp] theorem State.clear_size (s : State) : (s.clear).size = State.reset.size := rfl
@[simp] theorem State.clear_stage (s : State) : (s.clear).stage = State.reset.stage := rfl
@[simp] theorem State.clear_valid (s : State) : (s.clear).valid = State.reset.valid := rfl
@[simp] theorem State.clear_err (s : State) : (s.clear).err = State.reset.err := rfl
@[simp] theorem State.clear_fault (s : State) : (s.clear).fault = State.reset.fault := rfl
@[simp] theorem State.clear_fcause (s : State) : (s.clear).fcause = State.reset.fcause := rfl
@[simp] theorem State.clear_pay (s : State) : (s.clear).pay = State.reset.pay := rfl
@[simp] theorem State.clear_dcw (s : State) : (s.clear).dcw = State.reset.dcw := rfl
@[simp] theorem State.clear_ecw (s : State) : (s.clear).ecw = State.reset.ecw := rfl
@[simp] theorem State.clear_icw (s : State) : (s.clear).icw = State.reset.icw := rfl
@[simp] theorem State.clear_grid (s : State) : (s.clear).grid = State.reset.grid := rfl
@[simp] theorem State.clear_out (s : State) : (s.clear).out = s.out := rfl
@[simp] theorem State.clear_pc (s : State) : (s.clear).pc = s.pc := rfl
@[simp] theorem State.clear_cmds (s : State) : (s.clear).cmds = s.cmds := rfl

/-! ### `State.capacityExceeded` -/

@[simp] theorem State.capacityExceeded_gp (s : State) : (s.capacityExceeded).gp = s.gp := rfl
@[simp] theorem State.capacityExceeded_nec (s : State) : (s.capacityExceeded).nec = s.nec := rfl
@[simp] theorem State.capacityExceeded_gen (s : State) : (s.capacityExceeded).gen = s.gen := rfl
@[simp] theorem State.capacityExceeded_rem (s : State) : (s.capacityExceeded).rem = s.rem := rfl
@[simp] theorem State.capacityExceeded_plen (s : State) : (s.capacityExceeded).plen = s.plen := rfl
@[simp] theorem State.capacityExceeded_ver (s : State) : (s.capacityExceeded).ver = s.ver := rfl
@[simp] theorem State.capacityExceeded_dlen (s : State) : (s.capacityExceeded).dlen = s.dlen := rfl
@[simp] theorem State.capacityExceeded_size (s : State) : (s.capacityExceeded).size = s.size := rfl
@[simp] theorem State.capacityExceeded_stage (s : State) : (s.capacityExceeded).stage = s.stage := rfl
@[simp] theorem State.capacityExceeded_valid (s : State) : (s.capacityExceeded).valid = s.valid := rfl
@[simp] theorem State.capacityExceeded_err (s : State) : (s.capacityExceeded).err = true := rfl
@[simp] theorem State.capacityExceeded_fault (s : State) : (s.capacityExceeded).fault = s.fault := rfl
@[simp] theorem State.capacityExceeded_fcause (s : State) : (s.capacityExceeded).fcause = s.fcause := rfl
@[simp] theorem State.capacityExceeded_pay (s : State) : (s.capacityExceeded).pay = s.pay := rfl
@[simp] theorem State.capacityExceeded_dcw (s : State) : (s.capacityExceeded).dcw = s.dcw := rfl
@[simp] theorem State.capacityExceeded_ecw (s : State) : (s.capacityExceeded).ecw = s.ecw := rfl
@[simp] theorem State.capacityExceeded_icw (s : State) : (s.capacityExceeded).icw = s.icw := rfl
@[simp] theorem State.capacityExceeded_grid (s : State) : (s.capacityExceeded).grid = s.grid := rfl
@[simp] theorem State.capacityExceeded_out (s : State) : (s.capacityExceeded).out = s.out := rfl
@[simp] theorem State.capacityExceeded_pc (s : State) : (s.capacityExceeded).pc = s.pc := rfl
@[simp] theorem State.capacityExceeded_cmds (s : State) : (s.capacityExceeded).cmds = s.cmds := rfl

/-! ### `State.restart` -/

@[simp] theorem State.restart_gp (s : State) : (s.restart).gp = s.gp := rfl
@[simp] theorem State.restart_nec (s : State) : (s.restart).nec = s.nec := rfl
@[simp] theorem State.restart_gen (s : State) : (s.restart).gen = s.gen := rfl
@[simp] theorem State.restart_rem (s : State) : (s.restart).rem = s.rem := rfl
@[simp] theorem State.restart_plen (s : State) : (s.restart).plen = s.plen := rfl
@[simp] theorem State.restart_ver (s : State) : (s.restart).ver = 0 := rfl
@[simp] theorem State.restart_dlen (s : State) : (s.restart).dlen = 0 := rfl
@[simp] theorem State.restart_size (s : State) : (s.restart).size = 0 := rfl
@[simp] theorem State.restart_stage (s : State) : (s.restart).stage = 0 := rfl
@[simp] theorem State.restart_valid (s : State) : (s.restart).valid = false := rfl
@[simp] theorem State.restart_err (s : State) : (s.restart).err = false := rfl
@[simp] theorem State.restart_fault (s : State) : (s.restart).fault = s.fault := rfl
@[simp] theorem State.restart_fcause (s : State) : (s.restart).fcause = s.fcause := rfl
@[simp] theorem State.restart_pay (s : State) : (s.restart).pay = s.pay := rfl
@[simp] theorem State.restart_dcw (s : State) : (s.restart).dcw = s.dcw := rfl
@[simp] theorem State.restart_ecw (s : State) : (s.restart).ecw = s.ecw := rfl
@[simp] theorem State.restart_icw (s : State) : (s.restart).icw = s.icw := rfl
@[simp] theorem State.restart_grid (s : State) : (s.restart).grid = s.grid := rfl
@[simp] theorem State.restart_out (s : State) : (s.restart).out = s.out := rfl
@[simp] theorem State.restart_pc (s : State) : (s.restart).pc = s.pc := rfl
@[simp] theorem State.restart_cmds (s : State) : (s.restart).cmds = s.cmds := rfl

/-! ### `State.advance` -/

@[simp] theorem State.advance_gp (s : State) : (s.advance).gp = s.gp := rfl
@[simp] theorem State.advance_nec (s : State) : (s.advance).nec = s.nec := rfl
@[simp] theorem State.advance_gen (s : State) : (s.advance).gen = s.gen := rfl
@[simp] theorem State.advance_rem (s : State) : (s.advance).rem = s.rem := rfl
@[simp] theorem State.advance_plen (s : State) : (s.advance).plen = s.plen := rfl
@[simp] theorem State.advance_ver (s : State) : (s.advance).ver = s.ver := rfl
@[simp] theorem State.advance_dlen (s : State) : (s.advance).dlen = s.dlen := rfl
@[simp] theorem State.advance_size (s : State) : (s.advance).size = s.size := rfl
@[simp] theorem State.advance_stage (s : State) : (s.advance).stage = s.stage := rfl
@[simp] theorem State.advance_valid (s : State) : (s.advance).valid = s.valid := rfl
@[simp] theorem State.advance_err (s : State) : (s.advance).err = s.err := rfl
@[simp] theorem State.advance_fault (s : State) : (s.advance).fault = s.fault := rfl
@[simp] theorem State.advance_fcause (s : State) : (s.advance).fcause = s.fcause := rfl
@[simp] theorem State.advance_pay (s : State) : (s.advance).pay = s.pay := rfl
@[simp] theorem State.advance_dcw (s : State) : (s.advance).dcw = s.dcw := rfl
@[simp] theorem State.advance_ecw (s : State) : (s.advance).ecw = s.ecw := rfl
@[simp] theorem State.advance_icw (s : State) : (s.advance).icw = s.icw := rfl
@[simp] theorem State.advance_grid (s : State) : (s.advance).grid = s.grid := rfl
@[simp] theorem State.advance_out (s : State) : (s.advance).out = s.out := rfl
@[simp] theorem State.advance_pc (s : State) : (s.advance).pc = s.pc + 1 := rfl
@[simp] theorem State.advance_cmds (s : State) : (s.advance).cmds = s.cmds := rfl

/-! ### `State.choose` -/

@[simp] theorem State.choose_gp (s : State) (v : Nat) : (s.choose v).gp = s.gp := rfl
@[simp] theorem State.choose_nec (s : State) (v : Nat) : (s.choose v).nec = s.nec := rfl
@[simp] theorem State.choose_gen (s : State) (v : Nat) : (s.choose v).gen = s.gen := rfl
@[simp] theorem State.choose_rem (s : State) (v : Nat) : (s.choose v).rem = s.rem := rfl
@[simp] theorem State.choose_plen (s : State) (v : Nat) : (s.choose v).plen = s.plen := rfl
@[simp] theorem State.choose_ver (s : State) (v : Nat) : (s.choose v).ver = BitVec.ofNat 5 v := rfl
@[simp] theorem State.choose_dlen (s : State) (v : Nat) : (s.choose v).dlen = s.dlen := rfl
@[simp] theorem State.choose_size (s : State) (v : Nat) : (s.choose v).size = s.size := rfl
@[simp] theorem State.choose_stage (s : State) (v : Nat) : (s.choose v).stage = 1 := rfl
@[simp] theorem State.choose_valid (s : State) (v : Nat) : (s.choose v).valid = s.valid := rfl
@[simp] theorem State.choose_err (s : State) (v : Nat) : (s.choose v).err = s.err := rfl
@[simp] theorem State.choose_fault (s : State) (v : Nat) : (s.choose v).fault = s.fault := rfl
@[simp] theorem State.choose_fcause (s : State) (v : Nat) : (s.choose v).fcause = s.fcause := rfl
@[simp] theorem State.choose_pay (s : State) (v : Nat) : (s.choose v).pay = s.pay := rfl
@[simp] theorem State.choose_dcw (s : State) (v : Nat) : (s.choose v).dcw = s.dcw := rfl
@[simp] theorem State.choose_ecw (s : State) (v : Nat) : (s.choose v).ecw = s.ecw := rfl
@[simp] theorem State.choose_icw (s : State) (v : Nat) : (s.choose v).icw = s.icw := rfl
@[simp] theorem State.choose_grid (s : State) (v : Nat) : (s.choose v).grid = s.grid := rfl
@[simp] theorem State.choose_out (s : State) (v : Nat) : (s.choose v).out = s.out := rfl
@[simp] theorem State.choose_pc (s : State) (v : Nat) : (s.choose v).pc = s.pc := rfl
@[simp] theorem State.choose_cmds (s : State) (v : Nat) : (s.choose v).cmds = s.cmds := rfl

/-! ### `State.complete` -/

@[simp] theorem State.complete_gp (s : State) : (s.complete).gp = s.gp := rfl
@[simp] theorem State.complete_nec (s : State) : (s.complete).nec = s.nec := rfl
@[simp] theorem State.complete_gen (s : State) : (s.complete).gen = s.gen := rfl
@[simp] theorem State.complete_rem (s : State) : (s.complete).rem = s.rem := rfl
@[simp] theorem State.complete_plen (s : State) : (s.complete).plen = s.plen := rfl
@[simp] theorem State.complete_ver (s : State) : (s.complete).ver = s.ver := rfl
@[simp] theorem State.complete_dlen (s : State) : (s.complete).dlen = s.dlen := rfl
@[simp] theorem State.complete_size (s : State) : (s.complete).size = s.size := rfl
@[simp] theorem State.complete_stage (s : State) : (s.complete).stage = 7 := rfl
@[simp] theorem State.complete_valid (s : State) : (s.complete).valid = true := rfl
@[simp] theorem State.complete_err (s : State) : (s.complete).err = s.err := rfl
@[simp] theorem State.complete_fault (s : State) : (s.complete).fault = s.fault := rfl
@[simp] theorem State.complete_fcause (s : State) : (s.complete).fcause = s.fcause := rfl
@[simp] theorem State.complete_pay (s : State) : (s.complete).pay = s.pay := rfl
@[simp] theorem State.complete_dcw (s : State) : (s.complete).dcw = s.dcw := rfl
@[simp] theorem State.complete_ecw (s : State) : (s.complete).ecw = s.ecw := rfl
@[simp] theorem State.complete_icw (s : State) : (s.complete).icw = s.icw := rfl
@[simp] theorem State.complete_grid (s : State) : (s.complete).grid = s.grid := rfl
@[simp] theorem State.complete_out (s : State) : (s.complete).out = s.out := rfl
@[simp] theorem State.complete_pc (s : State) : (s.complete).pc = s.pc := rfl
@[simp] theorem State.complete_cmds (s : State) : (s.complete).cmds = s.cmds := rfl

end Sys2Proof.Machine
end

