-- ==== Sys2Proof/Laws/Exec.lean ====
section
/-! SUPPORT. Laws/Exec.lean: what running a command can do, said once; every command as its body; what one step
can do. Proofs about commands start from `exec_eq` and `step_eq_next`. -/

namespace Sys2Proof.Machine

/-! ## Running a body -/

@[simp] theorem settle_ok {b : Body} {s t : State} (h : b s = .ok t) : settle b s = t := by simp [settle, h]

@[simp] theorem settle_error {b : Body} {s : State} {c : Cause} (h : b s = .error c) :
    settle b s = s.raiseFault c := by simp [settle, h]

/-- A command that is not skipped ends normally or with a fault that wrote nothing else (R210, R212). -/
theorem settle_cases (b : Body) (s : State) :
    (∃ t, b s = .ok t ∧ settle b s = t) ∨ ∃ c, b s = .error c ∧ settle b s = s.raiseFault c := by
  cases h : b s with
  | ok t => exact .inl ⟨t, rfl, settle_ok h⟩
  | error c => exact .inr ⟨c, rfl, settle_error h⟩

theorem runGuarded_of_fault {b : Body} {s : State} (h : s.fault = true) : runGuarded b s = .next s.advance := by
  simp [runGuarded, h]

theorem runGuarded_of_ok {b : Body} {s t : State} (hf : s.fault = false) (h : b s = .ok t) :
    runGuarded b s = .next t.advance := by simp [runGuarded, hf, settle_ok h]

theorem runGuarded_of_error {b : Body} {s : State} {c : Cause} (hf : s.fault = false) (h : b s = .error c) :
    runGuarded b s = .next (s.raiseFault c).advance := by simp [runGuarded, hf, settle_error h]

/-! ## Every command as its body -/

/-- The pseudocode of each command. -/
def bodyOf : Instr → Body
  | .nop => bodyNop
  | .reset => bodyReset
  | .pushb k => bodyPushb k
  | .pushd k => bodyPushd k
  | .rdstat => bodyRdstat
  | .rdsize => bodyRdsize
  | .rdtile x y => bodyRdtile x y
  | .rdcw k => bodyRdcw k
  | .rddcw k => bodyRddcw k
  | .rdplen => bodyRdplen
  | .rddlen => bodyRddlen
  | .rdec p q => bodyRdec p q
  | .gfmul p q => bodyGfmul p q
  | .gfmula k => bodyGfmula k
  | .gfinv k => bodyGfinv k
  | .gfexp k => bodyGfexp k
  | .gflog k => bodyGflog k
  | .rdgp => bodyRdgp
  | .rsgen k => bodyRsgen k
  | .rsclr => bodyRsclr
  | .rsfeed k => bodyRsfeed k
  | .rdrem k => bodyRdrem k
  | .rdgen k => bodyRdgen k
  | .select => bodySelect
  | .setver k => bodySetver k
  | .vinfo v f => bodyVinfo v f
  | .frame => bodyFrame
  | .ecc => bodyEcc
  | .ilv => bodyIlv
  | .paints => bodyPaints
  | .place => bodyPlace
  | .fmt => bodyFmt
  | .generate => bodyGenerate

/-- The commands that act while `FAULT` = 1 (R214). -/
def actsFaulted : Instr → Bool
  | .reset => true
  | .rdstat => true
  | _ => false

/-- Every command answers a next state: skipped, ended normally, or ended by a fault; then `pc` advances. -/
theorem exec_eq (i : Instr) (s : State) :
    exec i s = .next (if s.fault && !actsFaulted i then s else settle (bodyOf i) s).advance := by
  cases i <;> simp [exec, actsFaulted, bodyOf, execReset, execRdstat, runAlways] <;> rfl

/-! ## The bodies that end normally: what each leaves behind -/

theorem emitRead_ok {s t : State} {r : Except Cause Byte} (h : s.emitRead r = .ok t) :
    ∃ v, r = .ok v ∧ t = s.emit (zext16 v) := by
  cases r with
  | ok v => exact ⟨v, rfl, by simpa [State.emitRead] using h.symm⟩
  | error c => simp [State.emitRead] at h

/-- The one state a guarded read can end in when its guard fails. -/
theorem emitRead_error {s : State} {r : Except Cause Byte} {c : Cause} (h : r = .error c) :
    s.emitRead r = .error c := by simp [State.emitRead, h]

@[simp] theorem State.version_eq (s : State) : s.version = s.ver.toNat := rfl

/-- The selection loop answers a supported version that fits, and none only when no version fits (R111). -/
theorem selectVersion_some {n v : Nat} (h : selectVersion n = some v) :
    1 ≤ v ∧ v ≤ 26 ∧ n ≤ inputBytes v := by
  have h1 := List.mem_of_find?_eq_some h
  have h2 := List.find?_some h
  simp only [List.mem_range'_1, decide_eq_true_eq] at h1 h2
  omega

theorem selectVersion_none {n : Nat} (h : selectVersion n = none) : ∀ v, 1 ≤ v → v ≤ 26 → inputBytes v < n := by
  intro v h1 h2
  have := List.find?_eq_none.1 h v (by simp only [List.mem_range'_1]; omega)
  simpa using this

/-! ## One step -/

/-- A step with a next state executes the word at `pc`: a command, or an illegal word. -/
theorem step_eq_next {s t : State} (h : step s = .next t) :
    ∃ w, s.fetch = some w ∧
      ((∃ i, decode w = .ok i ∧ exec i s = .next t) ∨ (∃ e, decode w = .error e ∧ runIllegal s = .next t)) := by
  unfold step at h
  cases hw : s.fetch with
  | none => simp [hw] at h
  | some w =>
    refine ⟨w, rfl, ?_⟩
    cases hd : decode w with
    | ok i => exact .inl ⟨i, rfl, by simpa [hw, hd] using h⟩
    | error e => exact .inr ⟨e, rfl, by simpa [hw, hd] using h⟩

/-- A word that is no command: skipped while `FAULT` = 1, else `Fault(ILLEGAL)`. -/
theorem runIllegal_eq (s : State) :
    runIllegal s = .next (if s.fault then s else s.raiseFault .illegal).advance := by
  unfold runIllegal runGuarded
  rfl

/-- The word just presented is the one fetched. -/
theorem fetch_withFetchWord (s : State) (nbits w : Nat) :
    (s.withFetchWord nbits w).fetch = some (BitVec.ofNat 32 (w % 2 ^ nbits)) := by
  simp only [State.withFetchWord, State.fetch, placeWord]
  have hlen : (s.cmds.take s.pc ++ List.replicate (s.pc - s.cmds.length) (0 : Word)).length = s.pc := by
    simp only [List.length_append, List.length_take, List.length_replicate]
    omega
  rw [List.getElem?_append_right (le_of_eq hlen), hlen]
  simp

end Sys2Proof.Machine
end

