-- ==== Sys2Proof/Laws/Painter.lean ====
section
/-! SUPPORT. Laws/Painter.lean: the structural flag of a tile as a test on its coordinates, cheap to evaluate. -/

namespace Sys2Proof.Machine

theorem isStructural_structTile (b : Bool) : isStructural (structTile b) = true := by cases b <;> decide

/-- A supported version's side (R113). -/
theorem gridSide_eq {v : Nat} (h1 : 1 ≤ v) (h2 : v ≤ 26) : gridSide v = 17 + 4 * v := by
  interval_cases v <;> decide

/-- The format tiles by their coordinates (R194). -/
theorem mem_formatTiles {n x y : Nat} (hn : 21 ≤ n) :
    (x, y) ∈ formatTiles n ↔
      (x = 8 ∧ (y ≤ 5 ∨ y = 7 ∨ y = 8 ∨ (n - 7 ≤ y ∧ y < n))) ∨
      (y = 8 ∧ (x ≤ 5 ∨ x = 7 ∨ (n - 8 ≤ x ∧ x < n))) := by
  simp only [formatTiles, List.mem_flatMap, List.mem_range, List.mem_cons, List.not_mem_nil, or_false]
  constructor
  · rintro ⟨i, hi, h | h⟩
    · unfold firstCopy at h
      split_ifs at h <;> simp only [Prod.mk.injEq] at h <;> omega
    · unfold secondCopy at h
      split_ifs at h <;> simp only [Prod.mk.injEq] at h <;> omega
  · rintro (⟨rfl, h | h | h | h⟩ | ⟨rfl, h | h | h⟩)
    · exact ⟨y, by omega, .inl (by simp [firstCopy, h])⟩
    · exact ⟨6, by omega, .inl (by simp [firstCopy, h])⟩
    · exact ⟨7, by omega, .inl (by simp [firstCopy, h])⟩
    · refine ⟨y + 15 - n, by omega, .inr ?_⟩
      unfold secondCopy
      rw [if_neg (by omega)]
      simp only [Prod.mk.injEq, true_and]
      omega
    · refine ⟨14 - x, by omega, .inl ?_⟩
      unfold firstCopy
      rw [if_neg (by omega), if_neg (by omega), if_neg (by omega), if_neg (by omega)]
      simp only [Prod.mk.injEq, and_true]
      omega
    · exact ⟨8, by omega, .inl (by simp [firstCopy, h])⟩
    · refine ⟨n - 1 - x, by omega, .inr ?_⟩
      unfold secondCopy
      rw [if_pos (by omega)]
      simp only [Prod.mk.injEq, and_true]
      omega

theorem absDiff_le {a b k : Nat} : absDiff a b ≤ k ↔ a ≤ b + k ∧ b ≤ a + k := by
  unfold absDiff
  omega

theorem ringOf_le {cx cy x y k : Nat} :
    ringOf cx cy x y ≤ k ↔ (cx ≤ x + k ∧ x ≤ cx + k) ∧ cy ≤ y + k ∧ y ≤ cy + k := by
  unfold ringOf
  rw [max_le_iff, absDiff_le, absDiff_le]

/-- Whether a coordinate lies within 2 of an alignment coordinate. -/
def nearCoord (v x : Nat) : Bool := (alignCoords v).any fun c => Nat.ble c (x + 2) && Nat.ble x (c + 2)

/-- Whether a tile belongs to an alignment pattern or to the corner that replaces the one at (6, 6). -/
def nearAlign (v n x y : Nat) : Bool :=
  nearCoord v x && nearCoord v y && !(Nat.ble x 8 && Nat.ble (n - 9) y) && !(Nat.ble (n - 9) x && Nat.ble y 8)

/-- The structural flag from the coordinates alone. -/
def structFlag (v x y : Nat) : Bool :=
  let n := gridSide v
  (x == 6 || y == 6) || (Nat.ble x 8 && (Nat.ble y 8 || Nat.ble (n - 8) y)) || (Nat.ble (n - 8) x && Nat.ble y 8)
    || nearAlign v n x y
    || (Nat.ble 7 v && (Nat.ble (n - 11) x && Nat.ble x (n - 9) && Nat.ble y 5
      || Nat.ble (n - 11) y && Nat.ble y (n - 9) && Nat.ble x 5))

/-- The spacing of the alignment coordinates that the excluded patterns rest on (R168). -/
theorem alignCoords_spacing {v : Nat} (h1 : 1 ≤ v) (h2 : v ≤ 26) :
    ∀ i < (alignCoords v).length,
      ((alignCoords v).getD i 0 ≤ 10 → i = 0) ∧
      (gridSide v - 11 ≤ (alignCoords v).getD i 0 → i = (alignCoords v).length - 1) := by
  interval_cases v <;> decide

theorem alignCoords_ends {v : Nat} (h1 : 1 ≤ v) (h2 : v ≤ 26) (hk : 0 < (alignCoords v).length) :
    (alignCoords v).getD 0 0 = 6 ∧ (alignCoords v).getD ((alignCoords v).length - 1) 0 = gridSide v - 7 := by
  revert hk
  interval_cases v <;> decide

theorem nearCoord_iff {v x : Nat} :
    nearCoord v x = true ↔
      ∃ i < (alignCoords v).length, (alignCoords v).getD i 0 ≤ x + 2 ∧ x ≤ (alignCoords v).getD i 0 + 2 := by
  simp only [nearCoord, List.any_eq_true, Bool.and_eq_true, Nat.ble_eq]
  constructor
  · rintro ⟨c, hc, h⟩
    obtain ⟨i, hi, rfl⟩ := List.getElem_of_mem hc
    exact ⟨i, hi, by simpa [hi] using h⟩
  · rintro ⟨i, hi, h⟩
    exact ⟨(alignCoords v)[i], List.getElem_mem hi, by simpa [hi] using h⟩

theorem mem_alignPairs {k i j : Nat} :
    (i, j) ∈ alignPairs k ↔
      (i < k ∧ j < k) ∧ (i, j) ≠ (0, 0) ∧ (i, j) ≠ (0, k - 1) ∧ (i, j) ≠ (k - 1, 0) := by
  simp only [alignPairs, List.mem_filter, List.mem_flatMap, List.mem_map, List.mem_range, Prod.mk.injEq,
    decide_eq_true_eq, ne_eq]
  constructor
  · rintro ⟨⟨a, ha, b, hb, rfl, rfl⟩, h⟩
    exact ⟨⟨ha, hb⟩, h⟩
  · rintro ⟨⟨ha, hb⟩, h⟩
    exact ⟨⟨i, ha, j, hb, rfl, rfl⟩, h⟩

/-- A tile outside the top-left corner lies in an alignment pattern exactly when `nearAlign` says so. -/
theorem alignStamp_isSome {v x y : Nat} (h1 : 1 ≤ v) (h2 : v ≤ 26) (hc : ¬ (x ≤ 8 ∧ y ≤ 8)) :
    (alignStamp v x y).isSome = nearAlign v (gridSide v) x y := by
  have hn := gridSide_eq h1 h2
  rw [Bool.eq_iff_iff, alignStamp, List.findSome?_isSome_iff]
  simp only [nearAlign, Bool.and_eq_true, Bool.not_eq_true', Bool.and_eq_false_iff, nearCoord_iff, alignCentres,
    List.mem_map, alignAt]
  have hx : ∀ b : Bool, (b = false ↔ ¬ b = true) := by simp
  simp only [hx, Nat.ble_eq]
  constructor
  · rintro ⟨c, ⟨⟨i, j⟩, hp, rfl⟩, hsome⟩
    obtain ⟨⟨hi, hj⟩, h00, h0k, hk0⟩ := mem_alignPairs.1 hp
    have hring : ringOf ((alignCoords v).getD i 0) ((alignCoords v).getD j 0) x y ≤ 2 := by
      by_contra hgt
      rw [if_neg hgt] at hsome
      simp at hsome
    obtain ⟨⟨hx1, hx2⟩, hy1, hy2⟩ := ringOf_le.1 hring
    have si := alignCoords_spacing h1 h2 i hi
    have sj := alignCoords_spacing h1 h2 j hj
    refine ⟨⟨⟨⟨i, hi, hx1, hx2⟩, j, hj, hy1, hy2⟩, ?_⟩, ?_⟩
    · by_contra hneg
      have : i = 0 := si.1 (by omega)
      have : j = (alignCoords v).length - 1 := sj.2 (by omega)
      exact h0k (by simp [*])
    · by_contra hneg
      have : i = (alignCoords v).length - 1 := si.2 (by omega)
      have : j = 0 := sj.1 (by omega)
      exact hk0 (by simp [*])
  · rintro ⟨⟨⟨⟨i, hi, hx1, hx2⟩, j, hj, hy1, hy2⟩, hA⟩, hB⟩
    have hk : 0 < (alignCoords v).length := by omega
    obtain ⟨e0, ek⟩ := alignCoords_ends h1 h2 hk
    refine ⟨_, ⟨(i, j), mem_alignPairs.2 ⟨⟨hi, hj⟩, ?_, ?_, ?_⟩, rfl⟩, ?_⟩
    · rintro h
      simp only [Prod.mk.injEq] at h
      obtain ⟨rfl, rfl⟩ := h
      omega
    · rintro h
      simp only [Prod.mk.injEq] at h
      obtain ⟨rfl, rfl⟩ := h
      omega
    · rintro h
      simp only [Prod.mk.injEq] at h
      obtain ⟨rfl, rfl⟩ := h
      omega
    · have : ringOf ((alignCoords v).getD i 0) ((alignCoords v).getD j 0) x y ≤ 2 :=
        ringOf_le.2 ⟨⟨hx1, hx2⟩, hy1, hy2⟩
      rw [if_pos this]
      rfl

/-- The tile a chain of stamps answers is structural exactly when some stamp applies, if stamps are structural. -/
theorem isStructural_getD {o : Option Byte} (h : ∀ t, o = some t → isStructural t = true) :
    isStructural (o.getD 0) = o.isSome := by
  cases o with
  | none => decide
  | some t => simpa using h t rfl

theorem isStructural_orElse {a b : Option Byte} (ha : ∀ t, a = some t → isStructural t = true)
    (hb : ∀ t, b = some t → isStructural t = true) : ∀ t, (a <|> b) = some t → isStructural t = true := by
  intro t ht
  cases a with
  | none => exact hb t (by simpa using ht)
  | some u => exact ha t (by simpa using ht)

theorem isSome_orElse (a b : Option Byte) : (a <|> b).isSome = (a.isSome || b.isSome) := by
  cases a <;> simp

theorem isStructural_timingStamp {x y : Nat} : ∀ t, timingStamp x y = some t → isStructural t = true := by
  intro t h
  unfold timingStamp at h
  split_ifs at h <;> · cases h; exact isStructural_structTile _

theorem isStructural_finderAt {cx cy x y : Nat} : ∀ t, finderAt cx cy x y = some t → isStructural t = true := by
  intro t h
  simp only [finderAt] at h
  split_ifs at h
  cases h
  exact isStructural_structTile _

theorem isStructural_finderStamp {n x y : Nat} : ∀ t, finderStamp n x y = some t → isStructural t = true :=
  isStructural_orElse isStructural_finderAt (isStructural_orElse isStructural_finderAt isStructural_finderAt)

theorem isStructural_alignStamp {v x y : Nat} : ∀ t, alignStamp v x y = some t → isStructural t = true := by
  intro t h
  obtain ⟨c, -, hc⟩ := List.exists_of_findSome?_eq_some h
  simp only [alignAt] at hc
  split_ifs at hc
  cases hc
  exact isStructural_structTile _

theorem isStructural_formatStamp {n x y : Nat} : ∀ t, formatStamp n x y = some t → isStructural t = true := by
  intro t h
  unfold formatStamp at h
  split_ifs at h
  cases h
  exact isStructural_structTile _

theorem isStructural_darkStamp {n x y : Nat} : ∀ t, darkStamp n x y = some t → isStructural t = true := by
  intro t h
  unfold darkStamp at h
  split_ifs at h
  cases h
  exact isStructural_structTile _

theorem isStructural_versionBlock {v n a b : Nat} : ∀ t, versionBlock v n a b = some t → isStructural t = true := by
  intro t h
  unfold versionBlock at h
  split_ifs at h
  cases h
  exact isStructural_structTile _

theorem isStructural_versionStamp {v n x y : Nat} : ∀ t, versionStamp v n x y = some t → isStructural t = true := by
  intro t h
  unfold versionStamp at h
  split_ifs at h
  exact isStructural_orElse isStructural_versionBlock isStructural_versionBlock t h

/-- The structural flag of every tile of `struct(v)`, from its coordinates (R169 to R176). -/
theorem isStructural_structTileAt {v x y : Nat} (h1 : 1 ≤ v) (h2 : v ≤ 26) (hx : x < gridSide v)
    (hy : y < gridSide v) : isStructural (structTileAt v x y) = structFlag v x y := by
  have hn := gridSide_eq h1 h2
  have hfmt : (formatStamp (gridSide v) x y).isSome = decide ((x, y) ∈ formatTiles (gridSide v)) := by
    unfold formatStamp
    by_cases hm : (x, y) ∈ formatTiles (gridSide v)
    · have := (mem_formatTiles (by omega)).1 hm
      have h8 : (x == 8 || y == 8) = true := by
        rcases this with ⟨rfl, -⟩ | ⟨rfl, -⟩ <;> simp
      simp [hm, h8]
    · simp [hm]
  rw [structTileAt, isStructural_getD
    (isStructural_orElse isStructural_versionStamp <| isStructural_orElse isStructural_darkStamp <|
      isStructural_orElse isStructural_formatStamp <| isStructural_orElse isStructural_alignStamp <|
      isStructural_orElse isStructural_finderStamp isStructural_timingStamp)]
  simp only [isSome_orElse, hfmt, finderStamp]
  by_cases hc : x ≤ 8 ∧ y ≤ 8
  · have hr : structFlag v x y = true := by simp [structFlag, hc]
    rw [hr]
    by_cases hf : x ≤ 7 ∧ y ≤ 7
    · have : ringOf 3 3 x y ≤ 4 := ringOf_le.2 (by omega)
      simp [finderAt, this]
    · by_cases ht : x = 6 ∨ y = 6
      · have : (timingStamp x y).isSome = true := by unfold timingStamp; split_ifs <;> simp_all
        simp [this]
      · have : (x, y) ∈ formatTiles (gridSide v) := (mem_formatTiles (by omega)).2 (by omega)
        simp [this]
  · rw [alignStamp_isSome h1 h2 hc, Bool.eq_iff_iff]
    have hf : ∀ cx cy, (finderAt cx cy x y).isSome = decide (ringOf cx cy x y ≤ 4) := by
      intro cx cy; simp only [finderAt]; split_ifs <;> simp_all
    have ht : (timingStamp x y).isSome = (x == 6 || y == 6) := by
      unfold timingStamp; split_ifs <;> simp_all
    have hd : (darkStamp (gridSide v) x y).isSome = decide (x = 8 ∧ y = gridSide v - 8) := by
      unfold darkStamp; split_ifs <;> simp_all
    have hb : ∀ a b, (versionBlock v (gridSide v) a b).isSome =
        decide (gridSide v - 11 ≤ a ∧ a ≤ gridSide v - 9 ∧ b ≤ 5) := by
      intro a b; unfold versionBlock; split_ifs <;> simp_all
    have hv : (versionStamp v (gridSide v) x y).isSome =
        (Nat.ble 7 v && (decide (gridSide v - 11 ≤ x ∧ x ≤ gridSide v - 9 ∧ y ≤ 5)
          || decide (gridSide v - 11 ≤ y ∧ y ≤ gridSide v - 9 ∧ x ≤ 5))) := by
      unfold versionStamp
      by_cases h7 : v < 7
      · have : Nat.ble 7 v = false := by rw [Bool.eq_false_iff, ne_eq, Nat.ble_eq]; omega
        simp [h7, this]
      · have : Nat.ble 7 v = true := by rw [Nat.ble_eq]; omega
        rw [if_neg h7, isSome_orElse, hb, hb, this, Bool.true_and]
    simp only [hf, ht, hd, hv, structFlag, Bool.or_eq_true, Bool.and_eq_true, decide_eq_true_eq, beq_iff_eq,
      Nat.ble_eq, mem_formatTiles (show 21 ≤ gridSide v by omega), ringOf_le]
    generalize nearAlign v (gridSide v) x y = A
    cases A
    · simp only [Bool.false_eq_true, false_or, or_false]
      constructor
      · intro h
        omega
      · rintro ((((h | h) | h) | h) | h) <;> omega
    · simp

end Sys2Proof.Machine
end

