-- ==== Sys2Proof/Laws/PerInstr.lean ====
section
/-! SUPPORT. Laws/PerInstr.lean: facts stated for every command, one lemma per constructor. -/

namespace Sys2Proof.Laws.EncodedFields

/-- The encoding carries the command's opcode byte and a zero reserved field `a` (R71, R74). -/
def Statement (i : Instr) : Prop := opField (encode i) = i.opcode ∧ aField (encode i) = 0

theorem nop : Statement .nop := by simp [Statement, encode]
theorem reset : Statement .reset := by simp [Statement, encode]
theorem pushb (imm8 : Byte) : Statement (.pushb imm8) := by simp [Statement, encode]
theorem pushd (imm8 : Byte) : Statement (.pushd imm8) := by simp [Statement, encode]
theorem rdstat : Statement .rdstat := by simp [Statement, encode]
theorem rdsize : Statement .rdsize := by simp [Statement, encode]
theorem rdtile (x y : Byte) : Statement (.rdtile x y) := by simp [Statement, encode]
theorem rdcw (imm16 : Half) : Statement (.rdcw imm16) := by simp [Statement, encode]
theorem rddcw (imm16 : Half) : Statement (.rddcw imm16) := by simp [Statement, encode]
theorem rdplen : Statement .rdplen := by simp [Statement, encode]
theorem rddlen : Statement .rddlen := by simp [Statement, encode]
theorem rdec (s i : Byte) : Statement (.rdec s i) := by simp [Statement, encode]
theorem gfmul (p q : Byte) : Statement (.gfmul p q) := by simp [Statement, encode]
theorem gfmula (imm8 : Byte) : Statement (.gfmula imm8) := by simp [Statement, encode]
theorem gfinv (imm8 : Byte) : Statement (.gfinv imm8) := by simp [Statement, encode]
theorem gfexp (imm8 : Byte) : Statement (.gfexp imm8) := by simp [Statement, encode]
theorem gflog (imm8 : Byte) : Statement (.gflog imm8) := by simp [Statement, encode]
theorem rdgp : Statement .rdgp := by simp [Statement, encode]
theorem rsgen (imm8 : Byte) : Statement (.rsgen imm8) := by simp [Statement, encode]
theorem rsclr : Statement .rsclr := by simp [Statement, encode]
theorem rsfeed (imm8 : Byte) : Statement (.rsfeed imm8) := by simp [Statement, encode]
theorem rdrem (imm8 : Byte) : Statement (.rdrem imm8) := by simp [Statement, encode]
theorem rdgen (imm8 : Byte) : Statement (.rdgen imm8) := by simp [Statement, encode]
theorem select : Statement .select := by simp [Statement, encode]
theorem setver (imm8 : Byte) : Statement (.setver imm8) := by simp [Statement, encode]
theorem vinfo (v f : Byte) : Statement (.vinfo v f) := by simp [Statement, encode]
theorem frame : Statement .frame := by simp [Statement, encode]
theorem ecc : Statement .ecc := by simp [Statement, encode]
theorem ilv : Statement .ilv := by simp [Statement, encode]
theorem paints : Statement .paints := by simp [Statement, encode]
theorem place : Statement .place := by simp [Statement, encode]
theorem fmt : Statement .fmt := by simp [Statement, encode]
theorem generate : Statement .generate := by simp [Statement, encode]

end Sys2Proof.Laws.EncodedFields
end

