-- ==== Sys2Proof/WellFormed.lean ====
section
/-! DEFINITION. WellFormed.lean: which commands have operands that the command accepts whatever the state (R78,
rows OPERAND and GFZERO of R213). Field widths need no check: an operand's type is its field. The decoder and the
machine never consult this predicate: a command that fails it still decodes and runs, and raises its fault. -/

namespace Sys2Proof

/-- The version operand of `SETVER` is a supported version (R112). -/
def Instr.versionSupported : Instr → Bool
  | .setver imm8 => decide (1 ≤ imm8.toNat ∧ imm8.toNat ≤ 26)
  | _ => true

/-- The degree operand of `RSGEN` is a degree the datapath supports (R150). -/
def Instr.degreeSupported : Instr → Bool
  | .rsgen imm8 => decide (1 ≤ imm8.toNat ∧ imm8.toNat ≤ 30)
  | _ => true

/-- The field selector of `VINFO` names a field (R115). -/
def Instr.selectorKnown : Instr → Bool
  | .vinfo _ f => decide (f.toNat ≤ 11)
  | _ => true

/-- The operand of `GFINV` or `GFLOG` is not the field's zero (R138, R140). -/
def Instr.fieldNonzero : Instr → Bool
  | .gfinv imm8 => decide (imm8 ≠ 0)
  | .gflog imm8 => decide (imm8 ≠ 0)
  | _ => true

/-- Every operand is one that the command accepts whatever the state. -/
def Instr.wellFormed (i : Instr) : Bool :=
  i.versionSupported && i.degreeSupported && i.selectorKnown && i.fieldNonzero

end Sys2Proof
end

