-- ==== Sys2Proof/Tests/Slice0.lean ====
section
/-! SUPPORT. Tests/Slice0.lean: tests and witnesses. Expected values are those of spec/95_test_vectors.md (the section
is named) or of the rule named, never the model's own answer. -/

namespace Sys2Proof.Tests

open Sys2Proof.Machine Sys2Proof.Claims

/-! ## Helpers -/

/-- The next state of an outcome. -/
def nextOf (o : Host.Outcome State Fault Refusal) : Option State :=
  match o with
  | .next t => some t
  | .fault _ => none
  | .refused _ => none

/-- A small state: reset with these registers. -/
def stateAt (stage ver dlen size plen nec : Nat) : State :=
  { State.reset with
    stage := BitVec.ofNat 3 stage, ver := BitVec.ofNat 5 ver, dlen := BitVec.ofNat 11 dlen
    size := BitVec.ofNat 7 size, plen := BitVec.ofNat 11 plen, nec := BitVec.ofNat 5 nec }

/-- What one command emits on a state. -/
def emits (i : Instr) (s : State) : Option (List Half) := (nextOf (exec i s)).map (·.out)

/-- The status word after one command. -/
def statusAfter (i : Instr) (s : State) : Option Half := (nextOf (exec i s)).map State.status

/-- The state after one command, for a second one; the state itself where there is none. -/
def after (i : Instr) (s : State) : State := (nextOf (exec i s)).getD s

/-! ## WellFormed: a term each check refuses, and the bounds each accepts -/

theorem test_wf_version : (Instr.setver 27).versionSupported = false ∧ (Instr.setver 0).versionSupported = false ∧
    (Instr.setver 1).versionSupported = true ∧ (Instr.setver 26).versionSupported = true := by decide
theorem test_wf_degree : (Instr.rsgen 0).degreeSupported = false ∧ (Instr.rsgen 31).degreeSupported = false ∧
    (Instr.rsgen 1).degreeSupported = true ∧ (Instr.rsgen 30).degreeSupported = true := by decide
theorem test_wf_selector : (Instr.vinfo 5 12).selectorKnown = false ∧ (Instr.vinfo 0 11).selectorKnown = true := by
  decide
theorem test_wf_nonzero : (Instr.gfinv 0).fieldNonzero = false ∧ (Instr.gflog 0).fieldNonzero = false ∧
    (Instr.gflog 1).fieldNonzero = true := by decide
theorem test_wf_whole : (Instr.setver 27).wellFormed = false ∧ (Instr.rsgen 31).wellFormed = false ∧
    (Instr.vinfo 5 12).wellFormed = false ∧ (Instr.gfinv 0).wellFormed = false ∧
    Instr.generate.wellFormed = true := by decide

/-! ## Decode: every constructor from a word written out from R72 and R74 -/

theorem test_decode_nop : decode 0b00000000_00000000_00000000_00000000 = .ok .nop := by rfl
theorem test_decode_reset : decode 0b00000001_00000000_00000000_00000000 = .ok .reset := by rfl
theorem test_decode_pushb : decode 0b00000010_00000000_00000000_01000001 = .ok (.pushb 0x41) := by rfl
theorem test_decode_pushd : decode 0b00000011_00000000_00000000_11111110 = .ok (.pushd 0xFE) := by rfl
theorem test_decode_rdstat : decode 0b00000100_00000000_00000000_00000000 = .ok .rdstat := by rfl
theorem test_decode_rdsize : decode 0b00000101_00000000_00000000_00000000 = .ok .rdsize := by rfl
theorem test_decode_rdtile : decode 0b00000110_00000000_00010100_00010011 = .ok (.rdtile 20 19) := by rfl
theorem test_decode_rdcw : decode 0b00000111_00000000_00000001_00000010 = .ok (.rdcw 0x0102) := by rfl
theorem test_decode_rddcw : decode 0b00001000_00000000_00000011_00000100 = .ok (.rddcw 0x0304) := by rfl
theorem test_decode_rdplen : decode 0b00001001_00000000_00000000_00000000 = .ok .rdplen := by rfl
theorem test_decode_rddlen : decode 0b00001010_00000000_00000000_00000000 = .ok .rddlen := by rfl
theorem test_decode_rdec : decode 0b00001011_00000000_00000001_00001001 = .ok (.rdec 1 9) := by rfl
theorem test_decode_gfmul : decode 0b00010000_00000000_01010011_11001010 = .ok (.gfmul 0x53 0xCA) := by rfl
theorem test_decode_gfmula : decode 0b00010001_00000000_00000000_00000010 = .ok (.gfmula 2) := by rfl
theorem test_decode_gfinv : decode 0b00010010_00000000_00000000_01010011 = .ok (.gfinv 0x53) := by rfl
theorem test_decode_gfexp : decode 0b00010011_00000000_00000000_00001000 = .ok (.gfexp 8) := by rfl
theorem test_decode_gflog : decode 0b00010100_00000000_00000000_11111111 = .ok (.gflog 0xFF) := by rfl
theorem test_decode_rdgp : decode 0b00010101_00000000_00000000_00000000 = .ok .rdgp := by rfl
theorem test_decode_rsgen : decode 0b00100000_00000000_00000000_00000011 = .ok (.rsgen 3) := by rfl
theorem test_decode_rsclr : decode 0b00100001_00000000_00000000_00000000 = .ok .rsclr := by rfl
theorem test_decode_rsfeed : decode 0b00100010_00000000_00000000_00010010 = .ok (.rsfeed 0x12) := by rfl
theorem test_decode_rdrem : decode 0b00100011_00000000_00000000_00000010 = .ok (.rdrem 2) := by rfl
theorem test_decode_rdgen : decode 0b00100100_00000000_00000000_00000100 = .ok (.rdgen 4) := by rfl
theorem test_decode_select : decode 0b00110000_00000000_00000000_00000000 = .ok .select := by rfl
theorem test_decode_setver : decode 0b00110001_00000000_00000000_00011011 = .ok (.setver 27) := by rfl
theorem test_decode_vinfo : decode 0b00110010_00000000_00000101_00001011 = .ok (.vinfo 5 11) := by rfl
theorem test_decode_frame : decode 0b00110011_00000000_00000000_00000000 = .ok .frame := by rfl
theorem test_decode_ecc : decode 0b00110100_00000000_00000000_00000000 = .ok .ecc := by rfl
theorem test_decode_ilv : decode 0b00110101_00000000_00000000_00000000 = .ok .ilv := by rfl
theorem test_decode_paints : decode 0b00110110_00000000_00000000_00000000 = .ok .paints := by rfl
theorem test_decode_place : decode 0b00110111_00000000_00000000_00000000 = .ok .place := by rfl
theorem test_decode_fmt : decode 0b00111000_00000000_00000000_00000000 = .ok .fmt := by rfl
theorem test_decode_generate : decode 0b00111111_00000000_00000000_00000000 = .ok .generate := by rfl

/-- The illegal words of section 2.8, and both ends of each reserved range of R77. -/
theorem test_decode_illegal :
    decode 0x00010000 = .error .nonzeroReserved ∧ decode 0x3F000001 = .error .nonzeroReserved ∧
    decode 0x02000141 = .error .nonzeroReserved ∧ decode 0x06010000 = .error .nonzeroReserved ∧
    decode 0x0C000000 = .error .undefinedOpcode ∧ decode 0x0F000000 = .error .undefinedOpcode ∧
    decode 0x16000000 = .error .undefinedOpcode ∧ decode 0x1F000000 = .error .undefinedOpcode ∧
    decode 0x25000000 = .error .undefinedOpcode ∧ decode 0x2F000000 = .error .undefinedOpcode ∧
    decode 0x39000000 = .error .undefinedOpcode ∧ decode 0x3E000000 = .error .undefinedOpcode ∧
    decode 0x40000000 = .error .undefinedOpcode ∧ decode 0xFF000000 = .error .undefinedOpcode := by
  refine ⟨?_, ?_, ?_, ?_, ?_, ?_, ?_, ?_, ?_, ?_, ?_, ?_, ?_, ?_⟩ <;> rfl

theorem test_encode_gfmul : encode (.gfmul 0x53 0xCA) = 0x100053CA := by decide
theorem test_decodeTableWord : decodeTableWord 32 0x06001413 = some (.rdtile 20 19) ∧
    decodeTableWord 32 0x0C000000 = none := by decide

/-! ## Assembler (R79, R80) -/

/-- Lines of the programs of section 3 and the three pseudo-commands; text that is no program. -/
theorem test_assemble :
    assembleLine "GFMUL 0x53, 0xCA   ; GP = 8F".toList = some [0x100053CA] ∧
    assembleLine "RDTILE 20, 19".toList = some [0x06001413] ∧
    assembleLine "PUSHS \"A;\" ; text".toList = some [0x02000041, 0x0200003B] ∧
    assembleLine "PUSHBS 1, 0x02".toList = some [0x02000001, 0x02000002] ∧
    assembleLine "  ; nothing".toList = some [] ∧
    assembleLine "PUSHB 256".toList = none ∧ assembleLine "JMP 0".toList = none := by decide
theorem test_assemble_program : assemble "PUSHB 0x41\nGENERATE\nRDSTAT" =
    some [0x02000041, 0x3F000000, 0x04000000] := by decide

/-! ## Control and read-out (section 2.7, section 2.8) -/

theorem test_nop : nextOf (exec .nop (stateAt 7 1 16 21 0 10)) = some { stateAt 7 1 16 21 0 10 with pc := 1 } := by decide
/-- R91: after a fault, with `OUT` kept. -/
theorem test_reset :
    (nextOf (exec .reset { stateAt 1 1 0 0 5 3 with fault := true, fcause := 2, out := [7], gp := 9 })).map
      (fun t => (t.status, t.out, t.plen)) = some (0, [7], 0) ∧
    (nextOf (exec .reset { stateAt 1 1 0 0 5 3 with fault := true, fcause := 2, out := [7], gp := 9 })).map
      (fun t => (t.nec, t.gp, t.pc)) = some (0, 0, 1) := by decide
theorem test_pushb : (nextOf (exec (.pushb 0x41) (stateAt 0 0 0 0 1058 0))).map
    (fun t => (t.pay, t.plen)) = some ([(1058, 0x41)], 1059) := by decide
/-- R92: the 1060th push saturates `PLEN` and stores nothing; `SELECT; PUSHB 1` ends with 0x0924. -/
theorem test_pushb_edges : (nextOf (exec (.pushb 0x41) (stateAt 0 0 0 0 1059 0))).map (fun t => (t.pay, t.plen)) =
      some ([], 1060) ∧ statusAfter (.pushb 1) (stateAt 1 1 0 0 0 0) = some 0x0924 := by decide
theorem test_rdstat : emits .rdstat { stateAt 7 26 1062 121 0 30 with valid := true } = some [0xD701] := by decide
theorem test_rdstat_faulted : emits .rdstat { State.reset with fault := true, fcause := 2 } = some [0x0024] := by decide
theorem test_rdsize : emits .rdsize (stateAt 7 1 16 21 0 10) = some [0x0015] := by decide
theorem test_rdplen : emits .rdplen (stateAt 0 0 0 0 1060 0) = some [1060] := by decide
theorem test_rddlen : emits .rddlen (stateAt 2 1 16 0 0 0) = some [0x0010] := by decide
/-- Row-major index `y*SIZE + x` (R55): (20, 19) of side 21 is index 419. -/
theorem test_rdtile : emits (.rdtile 20 19) { stateAt 5 1 16 21 0 10 with grid := [(419, 3)] } = some [0x0003] := by decide
theorem test_rdtile_faults : statusAfter (.rdtile 21 0) (stateAt 7 1 16 21 0 10) = some 0x0F44 ∧
    statusAfter (.rdtile 200 200) State.reset = some 0x0024 := by decide
theorem test_rdcw : emits (.rdcw 25) { stateAt 4 1 16 0 0 10 with icw := [(25, 0x34)] } = some [0x0034] := by decide
theorem test_rdcw_faults : statusAfter (.rdcw 26) (stateAt 7 1 16 21 0 10) = some 0x0F44 ∧
    statusAfter (.rdcw 0) (stateAt 3 1 16 0 0 10) = some 0x0B24 := by decide
theorem test_rddcw : emits (.rddcw 15) { stateAt 2 1 16 0 0 0 with dcw := [(15, 0xEC)] } = some [0x00EC] := by decide
theorem test_rddcw_faults : statusAfter (.rddcw 16) (stateAt 7 1 16 21 0 10) = some 0x0F44 ∧
    statusAfter (.rddcw 0) State.reset = some 0x0024 := by decide
/-- Segment 1, byte 17 of version 4, whose parity is 18 bytes long. -/
theorem test_rdec : emits (.rdec 1 17) { stateAt 3 4 64 0 0 18 with ecw := [(47, 0x70)] } = some [0x0070] := by decide
theorem test_rdec_faults : statusAfter (.rdec 1 0) (stateAt 7 1 16 21 0 10) = some 0x0F44 ∧
    statusAfter (.rdec 0 10) (stateAt 7 1 16 21 0 10) = some 0x0F44 := by decide

/-! ## Field arithmetic (section 2.1) -/

theorem test_gfmul_table : gfMul 0x53 0xCA = 0x8F ∧ gfMul 0xFF 0xFF = 0xE2 ∧ gfMul 0x02 0x8E = 0x01 ∧
    gfMul 0x80 0x80 = 0x13 ∧ gfMul 0x1D 0x1D = 0x4C ∧ gfMul 0 0x53 = 0 := by decide
theorem test_gfmul : (nextOf (exec (.gfmul 0x02 0x80) State.reset)).map (·.gp) = some 0x1D := by decide
theorem test_gfmula : (nextOf (exec (.gfmula 0x02) { State.reset with gp := 0x8F })).map (·.gp) = some 0x03 := by decide
theorem test_gfinv : (nextOf (exec (.gfinv 0x53) State.reset)).map (·.gp) = some 0x8C := by decide +kernel
theorem test_gfinv_zero : statusAfter (.gfinv 0) State.reset = some 0x0054 := by decide
theorem test_gfexp : (nextOf (exec (.gfexp 25) State.reset)).map (·.gp) = some 0x03 := by decide +kernel
theorem test_gfexp_wraps : gfExp 255 = 0x01 := by decide +kernel
theorem test_gflog : (nextOf (exec (.gflog 0xFF) State.reset)).map (·.gp) = some 0xAF := by decide +kernel
theorem test_gflog_zero : statusAfter (.gflog 0) State.reset = some 0x0054 := by decide +kernel
theorem test_rdgp : emits .rdgp { State.reset with gp := 0x8F } = some [0x008F] := by decide

/-! ## Reed-Solomon (section 2.4) -/

/-- A state with the degree 3 generator of section 2.4 and a given remainder. -/
def loaded3 (r0 r1 r2 : Byte) : State :=
  { State.reset with
    nec := 3, gen := regLoad State.reset.gen [0x08, 0x0E, 0x07, 0x01], rem := regLoad State.reset.rem [r0, r1, r2] }

theorem test_rsgen : (nextOf (exec (.rsgen 3) State.reset)).map (fun t => (t.nec, regPrefix t.gen 4)) =
    some (3, [0x08, 0x0E, 0x07, 0x01]) := by decide
theorem test_rsgen_refused : statusAfter (.rsgen 0) State.reset = some 0x0034 ∧
    statusAfter (.rsgen 31) State.reset = some 0x0034 := by decide
theorem test_rsclr : (nextOf (exec .rsclr (loaded3 0x81 0xC3 0x32))).map (fun t => regPrefix t.rem 3) =
    some [0, 0, 0] := by decide
theorem test_rsfeed : (nextOf (exec (.rsfeed 0x34) (loaded3 0x7E 0xFC 0x90))).map (fun t => regPrefix t.rem 3) =
    some [0x17, 0x5B, 0x6A] := by decide
theorem test_rsfeed_unloaded : statusAfter (.rsfeed 1) State.reset = some 0x0024 := by decide
theorem test_rdrem : emits (.rdrem 1) (loaded3 0x81 0xC3 0x32) = some [0x00C3] ∧
    statusAfter (.rdrem 3) (loaded3 0 0 0) = some 0x0044 := by decide
theorem test_rdgen : emits (.rdgen 3) (loaded3 0 0 0) = some [0x0001] ∧
    statusAfter (.rdgen 4) (loaded3 0 0 0) = some 0x0044 := by decide
theorem test_rsEncode : rsEncode [0x01] 2 = [0x03, 0x02] ∧ rsEncode [0xFF, 0xFF, 0xFF] 2 = [0xB7, 0x48] ∧
    rsEncode [0x11, 0x22, 0x33] 4 = [0xD3, 0x78, 0x86, 0x2D] := by decide

/-- The data codewords of the payload "A" at version 1 (section 2.3). -/
def dcwOfA : Memory :=
  Memory.lay 0 [0x40, 0x14, 0x10, 0xEC, 0x11, 0xEC, 0x11, 0xEC, 0x11, 0xEC, 0x11, 0xEC, 0x11, 0xEC, 0x11, 0xEC]

theorem test_ecc : (nextOf (exec .ecc { stateAt 2 1 16 0 1 0 with dcw := dcwOfA })).map (fun t => t.ecw.readRange 0 10) =
    some [0x6B, 0x70, 0xF4, 0x18, 0xA3, 0x7A, 0x11, 0x5F, 0x34, 0xFC] := by decide +kernel
theorem test_ecc_early : statusAfter .ecc (stateAt 1 1 0 0 0 0) = some 0x0924 := by decide

/-! ## Versions (section 2.2) -/

theorem test_select : (nextOf (exec .select (stateAt 0 0 0 0 1059 0))).map (fun t => t.ver) = some 26 ∧
    (nextOf (exec .select (stateAt 0 0 0 0 42 0))).map (fun t => t.ver) = some 3 := by decide
theorem test_select_capacity : statusAfter .select (stateAt 7 1 16 21 1060 0) = some 0x0002 := by decide
theorem test_setver : statusAfter (.setver 5) State.reset = some 0x2900 := by decide
theorem test_setver_refused : statusAfter (.setver 0) State.reset = some 0x0034 ∧
    statusAfter (.setver 27) State.reset = some 0x0034 := by decide
theorem test_vinfo : emits (.vinfo 26 11) State.reset = some [1059] ∧ emits (.vinfo 8 9) State.reset = some [22] := by
  decide
theorem test_vinfo_absent : emits (.vinfo 27 0) State.reset = some [0xFFFF] ∧
    statusAfter (.vinfo 0 12) State.reset = some 0x0034 := by decide

/-! ## Data encoder (section 2.3) -/

theorem test_frame : (nextOf (exec .frame { stateAt 1 1 0 0 1 0 with pay := [(0, 0x41)] })).map
    (fun t => (t.dcw, t.status)) = some (dcwOfA, 0x0A00) := by decide
/-- Version 10, "hi": the 16-bit length field; and 15 bytes at version 1 raise `Fault(INVARIANT)`. -/
theorem test_frame_wide : (frameBytes 10 [0x68, 0x69]).take 8 = [0x40, 0x00, 0x26, 0x86, 0x90, 0xEC, 0x11, 0xEC] ∧
    statusAfter .frame (stateAt 1 1 0 0 15 0) = some 0x0964 := by decide
theorem test_pushd : (nextOf (exec (.pushd 0x99) (stateAt 1 1 15 0 0 0))).map (fun t => (t.dcw, t.status)) =
    some ([(15, 0x99)], 0x0A00) := by decide
theorem test_pushd_late : statusAfter (.pushd 0) (stateAt 2 1 16 0 0 0) = some 0x0A24 := by decide

/-! ## Matrix painter (section 2.5) -/

/-- Version 8: the first row of data columns, the short column and the first parity column. -/
theorem test_ilv : (nextOf (exec .ilv { stateAt 3 8 154 0 0 22 with
      dcw := [(38, 0x26), (76, 0x4C), (114, 0x72), (115, 0x73), (153, 0x99)], ecw := [(0, 0x4F), (30, 0x0E)] })).map
    (fun t => (t.icw.readRange 0 4, t.icw.readRange 152 4)) =
    some ([0x00, 0x26, 0x4C, 0x73], [0x72, 0x99, 0x4F, 0x0E]) := by decide +kernel
/-- The corner, the separator, the first timing tile and the dark module of version 1 (section 3.1). -/
theorem test_paints : (nextOf (exec .paints (stateAt 4 1 16 0 0 10))).map
    (fun t => (t.tile 0 0, t.tile 7 7, t.tile 8 6, t.tile 8 13)) = some (3, 2, 3, 3) := by decide +kernel
theorem test_versionWord : versionWord 7 = 0x07C94 ∧ versionWord 8 = 0x085BC ∧ versionWord 26 = 0x1AFAB := by decide
theorem test_order : (order 1).take 4 = [(20, 20), (19, 20), (20, 19), (19, 19)] ∧ (order 1).length = 208 := by
  decide +kernel
/-- `ICW[0]` = 0x40 gives 0 0 1 0 at (20,20) (19,20) (20,19) (19,19). -/
theorem test_place : (nextOf (exec .place { stateAt 5 1 16 21 0 10 with icw := [(0, 0x40)] })).map
    (fun t => (t.tile 20 20, t.tile 19 20, t.tile 20 19, t.tile 19 19)) = some (0, 0, 1, 0) := by decide +kernel

/-! ## Format and the whole encode (sections 2.6, 2.7, 3.1) -/

theorem test_formatBits : formatBits = 0x5B4B ∧ formatWord 0 = 0x5412 ∧ formatWord 7 = 0x4AA0 := by decide
/-- `F[0]`, `F[2]`, `F[14]` at (8,0), (8,2), (0,8). -/
theorem test_fmt : (nextOf (exec .fmt (stateAt 6 1 16 21 0 10))).map
    (fun t => (t.tile 8 0, t.tile 8 2, t.tile 0 8, t.status)) = some (3, 2, 3, 0x0F01) := by decide +kernel
theorem test_generate : statusAfter .generate State.reset = some 0x0F01 := by decide +kernel
theorem test_generate_capacity : statusAfter .generate (stateAt 0 0 0 0 1060 0) = some 0x0002 := by decide

/-! ## One step -/

theorem test_step : nextOf (step (State.reset.withFetchWord 32 0x09000000)) =
    some { State.reset with cmds := [0x09000000], out := [0], pc := 1 } := by decide
theorem test_step_illegal : (nextOf (step (State.reset.withFetchWord 32 0x0C000000))).map State.status = some 0x0014 := by
  decide
theorem test_step_end : step State.reset = .fault .streamEnded := by rfl

/-! ## Witnesses: for each statement with hypotheses, states and operands that meet them, each clause at a boundary -/

/-- An unfaulted block at each of the boundary stages, and the same block faulted. -/
def faultedBlock (w : Word) : State := { stateAt 2 1 16 0 0 0 with fault := true, fcause := 2, cmds := [w] }

theorem witness_EncodeOfDecodeIsTheWord : decode 0x0B000109 = .ok (.rdec 1 9) := by rfl
theorem witness_DecoderAgreesWithOpcodeTable : (∃ r ∈ opcodeRows, r.covers 0x0B000109 = true) ∧
    ∀ r ∈ opcodeRows, r.covers 0x0C000000 = false := by decide
theorem witness_AssemblerGivesTheEncodedWord : assembleCommand "RDTILE" [255, 0] = some 0x0600FF00 := by decide
theorem witness_StepRunsTheDecodedCommand : (State.reset.withFetchWord 32 0x02000041).fetch = some 0x02000041 ∧
    decode 0x02000041 = .ok (.pushb 0x41) := ⟨by decide, by rfl⟩
theorem witness_EveryWordAdvancesPcByOne :
    (State.reset.withFetchWord 32 0).pc < (State.reset.withFetchWord 32 0).cmds.length ∧
    State.reset.cmds.length ≤ State.reset.pc ∧
    (nextOf (exec .generate (stateAt 0 0 0 0 1060 0))).isSome = true := by decide
theorem witness_IllegalWordRaisesIllegal : (State.reset.withFetchWord 32 0xFF000000).fault = false ∧
    (State.reset.withFetchWord 32 0xFF000000).fetch = some 0xFF000000 ∧
    ∀ r ∈ opcodeRows, r.covers 0xFF000000 = false := by decide
theorem witness_FaultedBlockObeysOnlyResetAndRdstat :
    (faultedBlock 0x01000000).fault = true ∧ (faultedBlock 0x01000000).fetch = some 0x01000000 ∧
    (faultedBlock 0x04000000).fetch = some 0x04000000 ∧ (faultedBlock 0x0C000000).fetch = some 0x0C000000 ∧
    (0x0C000000 : Word) ≠ 0x01000000 ∧ (0x0C000000 : Word) ≠ 0x04000000 := by decide
theorem witness_RaisingAFaultChangesNothingElse :
    (State.reset.withFetchWord 32 0x33000000).fault = false ∧
    (nextOf (step (State.reset.withFetchWord 32 0x33000000))).map (·.fault) = some true := by decide
/-- A command that faults and one that does not, and an illegal word. -/
theorem witness_CommandsFaultExactlyAsTheTableSays : causeOf (.rdcw 26) (stateAt 4 1 16 0 0 10) = some 4 ∧
    causeOf (.rdcw 25) (stateAt 4 1 16 0 0 10) = none ∧ (stateAt 4 1 16 0 0 10).fault = false ∧
    (State.reset.withFetchWord 32 0x0C000000).fetch = some 0x0C000000 := by decide
theorem witness_CommandsFault_illegal : decode 0x0C000000 = .error .undefinedOpcode := by rfl
/-- `PLEN` 0, 1058 (stored) and 1059, 1060 (dropped); stages 0, 1 and 7. -/
theorem witness_PushbAppendsOneByteOrSaturates : (stateAt 1 1 0 0 0 0).stage.toNat ≠ 0 ∧
    (stateAt 7 1 16 21 0 0).stage.toNat ≠ 0 ∧ (stateAt 0 0 0 0 1058 0).stage.toNat = 0 ∧
    (stateAt 0 0 0 0 1058 0).plen.toNat < 1059 ∧ (stateAt 0 0 0 0 1058 0).pay.wf = true ∧
    1059 ≤ (stateAt 0 0 0 0 1059 0).plen.toNat ∧ 1059 ≤ (stateAt 0 0 0 0 1060 0).plen.toNat ∧
    (stateAt 0 0 0 0 1058 0).fault = false := by decide
theorem witness_unfaulted : State.reset.fault = false := by rfl
/-- Stage 4 and 5; coordinates 20 and 21 of side 21. -/
theorem witness_RdtileEmitsTheTile : (stateAt 4 1 16 0 0 10).stage.toNat < 5 ∧
    5 ≤ (stateAt 5 1 16 21 0 10).stage.toNat ∧ (stateAt 5 1 16 21 0 10).size.toNat ≤ (21 : Byte).toNat ∧
    (20 : Byte).toNat < (stateAt 5 1 16 21 0 10).size.toNat ∧ (stateAt 5 1 16 21 0 10).fault = false := by decide
/-- Stages 0, 2, 3 (too early) and 1, 3, 4 (early enough); the last good and the first bad index of version 1. -/
theorem witness_CodewordReadoutsEmitTheByte : (stateAt 3 1 16 0 0 10).stage.toNat < 4 ∧
    totalBytes (stateAt 4 1 16 0 0 10).ver.toNat ≤ (26 : Half).toNat ∧
    (25 : Half).toNat < totalBytes (stateAt 4 1 16 0 0 10).ver.toNat ∧ (stateAt 0 0 0 0 0 0).stage.toNat < 1 ∧
    (stateAt 1 1 1 0 0 0).dlen.toNat ≤ (1 : Half).toNat ∧ (0 : Half).toNat < (stateAt 1 1 1 0 0 0).dlen.toNat ∧
    (stateAt 2 1 16 0 0 0).stage.toNat < 3 ∧ ns (stateAt 3 1 16 0 0 10).ver.toNat ≤ (1 : Byte).toNat ∧
    ecBytes (stateAt 3 1 16 0 0 10).ver.toNat ≤ (10 : Byte).toNat ∧
    (0 : Byte).toNat < ns (stateAt 3 1 16 0 0 10).ver.toNat ∧
    (9 : Byte).toNat < ecBytes (stateAt 3 1 16 0 0 10).ver.toNat := by decide
theorem witness_GfMulIsTheReducedProduct : gfMul 0 5 = 0 := by decide
theorem witness_GfExpEnumeratesTheNonzeroElements : (0x8E : Byte) ≠ 0 ∧ 254 < 255 ∧
    gfExp 254 = 0x8E := by decide +kernel
theorem witness_GfLogInvertsGfExp : gfLog 0x02 = some 1 ∧ gfLog 0x1D = some 8 := by decide +kernel
theorem witness_GfInvIsTheUniqueInverse : (0x53 : Byte) ≠ 0 ∧ gfMul 0x53 0x8C = 1 ∧ gfLog 0x02 = some 1 := by
  decide +kernel
theorem witness_InverseAndLogarithmCommands : (1 : Byte) ≠ 0 ∧ (255 : Byte) ≠ 0 := by decide
theorem witness_GeneratorIsMonicWithConsecutiveRoots : 1 ≤ 30 ∧ 30 ≤ 30 ∧ 29 < 30 := by decide
theorem witness_RsgenLoadsTheGenerator : (0 : Byte).toNat < 1 ∧ 30 < (31 : Byte).toNat ∧ 1 ≤ (1 : Byte).toNat ∧
    (30 : Byte).toNat ≤ 30 := by decide
theorem witness_Datapath_loaded : (stateAt 0 0 0 0 0 0).nec.toNat = 0 ∧ (stateAt 0 0 0 0 0 1).nec.toNat ≠ 0 ∧
    (stateAt 0 0 0 0 0 30).nec.toNat ≠ 0 ∧ (stateAt 0 0 0 0 0 30).nec.toNat ≤ 30 := by decide
theorem witness_DatapathReadoutsEmitTheByte : (stateAt 0 0 0 0 0 3).nec.toNat < (4 : Byte).toNat ∧
    (3 : Byte).toNat ≤ (stateAt 0 0 0 0 0 3).nec.toNat ∧ (stateAt 0 0 0 0 0 3).nec.toNat ≤ (3 : Byte).toNat ∧
    (2 : Byte).toNat < (stateAt 0 0 0 0 0 3).nec.toNat := by decide
theorem witness_EveryCodewordHasZeroSyndromes :
    polyEval ([0x01] ++ rsEncode [0x01] 2) (gfExp 1) = 0 ∧ (rsEncode [0x01] 2).length = 2 := by decide
theorem witness_RsEncodeIsLinear : [(0x01 : Byte), 0x02].length = [(0x10 : Byte), 0x20].length := by decide
theorem witness_EccStoresTheParityOfEverySegment : (stateAt 1 1 0 0 0 0).stage.toNat ≠ 2 ∧
    (stateAt 2 1 16 0 0 0).stage.toNat = 2 ∧ 1 ≤ (stateAt 2 1 16 0 0 0).ver.toNat ∧
    (stateAt 2 26 1062 0 0 0).ver.toNat ≤ 26 ∧ (stateAt 2 26 1062 0 0 0).stage.toNat = 2 := by decide
theorem witness_VinfoEmitsTheFieldOrTheAbsentMarker : 11 < (12 : Byte).toNat ∧ (11 : Byte).toNat ≤ 11 ∧
    (0 : Byte).toNat < 1 ∧ 26 < (27 : Byte).toNat ∧ 1 ≤ (1 : Byte).toNat ∧ (26 : Byte).toNat ≤ 26 := by decide
theorem witness_VersionTableInvariants : 0 < (info 8).numSegments1 ∧ (info 1).numSegments1 = 0 := by decide
theorem witness_SelectPicksTheSmallestFittingVersion :
    smallestFitting (stateAt 0 0 0 0 15 0).plen.toNat 2 ∧ smallestFitting (stateAt 0 0 0 0 0 0).plen.toNat 1 ∧
    1059 < (stateAt 0 0 0 0 1060 0).plen.toNat ∧ (stateAt 0 0 0 0 1059 0).plen.toNat ≤ 1059 := by
  refine ⟨⟨by decide, by decide, by decide, ?_⟩, ⟨by decide, by decide, by decide, ?_⟩, by decide, by decide⟩
  · intro u h1 h2
    obtain rfl : u = 1 := by omega
    decide
  · intro u h1 h2
    omega
theorem witness_SetverForcesTheVersion : (0 : Byte).toNat < 1 ∧ 26 < (27 : Byte).toNat ∧ 1 ≤ (1 : Byte).toNat ∧
    (26 : Byte).toNat ≤ 26 := by decide
/-- An empty payload and a full one, versions 9 and 10. -/
theorem witness_FramedBytesWrittenOut : ([] : List Byte).length ≤ inputBytes 1 ∧
    (List.replicate 14 (0xFF : Byte)).length ≤ inputBytes 1 ∧ (List.replicate 180 (0xA5 : Byte)).length ≤ inputBytes 9 ∧
    (List.replicate 213 (0 : Byte)).length ≤ inputBytes 10 ∧ 1 + overhead 1 + 12 < dataBytes 1 := by decide +kernel
theorem witness_FrameFillsTheDataCodewords : (stateAt 1 1 1 0 0 0).dlen.toNat ≠ 0 ∧
    inputBytes (stateAt 1 1 0 0 15 0).ver.toNat < (stateAt 1 1 0 0 15 0).plen.toNat ∧
    (stateAt 1 1 0 0 14 0).plen.toNat ≤ inputBytes (stateAt 1 1 0 0 14 0).ver.toNat ∧
    (stateAt 1 1 0 0 14 0).stage.toNat = 1 ∧ (stateAt 1 1 0 0 14 0).dlen.toNat = 0 := by decide
theorem witness_PushdLoadsOneDataCodeword : (stateAt 2 1 16 0 0 0).stage.toNat ≠ 1 ∧
    (stateAt 1 1 15 0 0 0).dlen.toNat < dataBytes (stateAt 1 1 15 0 0 0).ver.toNat ∧
    (stateAt 1 26 1061 0 0 0).dlen.toNat < dataBytes (stateAt 1 26 1061 0 0 0).ver.toNat ∧
    (stateAt 1 1 15 0 0 0).dcw.wf = true ∧ (stateAt 1 1 15 0 0 0).stage.toNat = 1 := by decide
theorem witness_IlvStoresTheInterleavedStream : (stateAt 2 1 16 0 0 0).stage.toNat ≠ 3 ∧
    (stateAt 3 1 16 0 0 10).stage.toNat = 3 ∧ 1 ≤ (stateAt 3 1 16 0 0 10).ver.toNat ∧
    (stateAt 3 26 1062 0 0 28).ver.toNat ≤ 26 := by decide
/-- Version 8: the last byte of the short column, and the last parity byte. -/
theorem witness_InterleavePlacesEveryByte : 3 < ns 8 ∧ 38 < segLen 8 3 ∧ 21 < ecBytes 8 ∧ ¬ 38 < segLen 8 0 := by decide
theorem witness_PaintsStoresTheStructuralGrid : (stateAt 5 1 16 21 0 10).stage.toNat ≠ 4 ∧
    (stateAt 4 1 16 0 0 10).stage.toNat = 4 ∧ (stateAt 4 26 1062 0 0 28).ver.toNat ≤ 26 := by decide
/-- A finder tile on the separator, the first timing tile, an alignment corner, version information. -/
theorem witness_StructuralElementsStandWhole : ringOf 3 3 7 7 ≤ 4 ∧ 8 ≤ gridSide 1 - 9 ∧
    (18, 18) ∈ alignCentres 2 ∧ ringOf 18 18 20 16 ≤ 2 ∧ 7 ≤ 7 ∧ isStructural (structTileAt 1 9 9) = false := by decide
theorem witness_PlacementVisitsEveryFreeTileOnce : 20 < gridSide 1 ∧ isStructural (structTileAt 1 20 20) = false := by
  decide
theorem witness_PlaceWritesTheMaskedBits : (stateAt 6 1 16 21 0 10).stage.toNat ≠ 5 ∧
    (stateAt 5 1 16 21 0 10).stage.toNat = 5 ∧
    (stateAt 5 1 16 21 0 10).size.toNat = gridSide (stateAt 5 1 16 21 0 10).ver.toNat ∧
    (stateAt 5 1 16 21 0 10).grid.wf = true ∧ 207 < 8 * totalBytes 1 ∧ (order 1)[207]? = some (0, 12) := by
  decide +kernel
theorem witness_FmtWritesTheFormatTiles : (stateAt 7 1 16 21 0 10).stage.toNat ≠ 6 ∧
    (stateAt 6 1 16 21 0 10).stage.toNat = 6 ∧ 21 ≤ (stateAt 6 1 16 21 0 10).size.toNat ∧
    (stateAt 6 1 16 21 0 10).grid.wf = true := by decide
theorem witness_Generate : (stateAt 0 0 0 0 1059 0).plen.toNat ≤ 1059 ∧ 1059 < (stateAt 0 0 0 0 1060 0).plen.toNat ∧
    (stateAt 0 0 0 0 1059 0).grid.wf = true := by decide
/-- Two blocks with the payload "A" and different leftovers. -/
theorem witness_GenerateDependsOnThePayloadAlone :
    let a : State := { stateAt 0 0 0 0 1 0 with pay := [(0, 0x41)] }
    let b : State := { stateAt 7 1 16 21 1 10 with pay := [(0, 0x41), (5, 9)], dcw := [(3, 7)], grid := [(2, 1)] }
    a.fault = false ∧ b.fault = false ∧ a.grid.wf = true ∧ b.grid.wf = true ∧ a.plen = b.plen ∧
      a.plen.toNat ≤ 1059 ∧ ∀ i < a.plen.toNat, a.pay.read i = b.pay.read i := by decide
/-- `GP`, `OUT`, `VALID` and the payload do change somewhere. -/
theorem witness_whole_machine_rules :
    (nextOf (step (State.reset.withFetchWord 32 0x100053CA))).map (·.gp) = some 0x8F ∧
    (nextOf (step ({ stateAt 7 1 16 21 0 10 with valid := true }.withFetchWord 32 0x30000000))).map (·.valid) =
      some false ∧
    (nextOf (step (State.reset.withFetchWord 32 0x02000041))).map (·.plen) = some 1 := by decide
theorem witness_valid_is_set :
    (nextOf (step ((stateAt 6 1 16 21 0 10).withFetchWord 32 0x38000000))).map (·.valid) = some true := by
  decide +kernel

/-! ### Legal states -/

/-- A block at `ECDONE` of version 1 with a payload of zeros, whose parity is ten zeros (section 2.4), and `ILV` to
execute. -/
def ecDone : State := (stateAt 3 1 16 0 0 0).withFetchWord 32 0x35000000

theorem witness_legal : Legal ecDone := by constructor <;> decide
/-- A block at stage 0, one with a grid, one with a loaded generator. -/
theorem witness_legal_idle : Legal (stateAt 0 0 0 0 5 0) := by constructor <;> decide
theorem witness_legal_grid : Legal (stateAt 5 1 16 21 0 0) := by constructor <;> decide
theorem witness_legal_loaded : Legal (loaded3 0 0 0) ∧ (loaded3 0 0 0).nec.toNat = (3 : Byte).toNat := by
  refine ⟨?_, by decide⟩
  constructor <;> decide

theorem witness_stageHolds : StageHolds ecDone where
  ecw_holds := by decide +kernel
  icw_holds := by decide
  painted := by decide
  placed := by decide
  finished := by decide

/-- Two blocks with the payload "A" and `GENERATE` to execute, with different leftovers. -/
def twinA : State := { stateAt 0 0 0 0 1 0 with pay := [(0, 0x41)] }.withFetchWord 32 0x3F000000
def twinB : State :=
  { stateAt 0 0 0 0 1 0 with
    pay := [(0, 0x41), (5, 9)], dcw := [(3, 7)], grid := [(2, 1)], gen := regLoad State.reset.gen [1, 2, 3]
  }.withFetchWord 32 0x3F000000
theorem witness_UnspecifiedContentsAreUnobservable : Legal twinA ∧ Legal twinB ∧ SameReadable twinA twinB ∧
    (nextOf (step twinA)).isSome = true := by
  refine ⟨?_, ?_, ?_, by decide⟩ <;> constructor <;> decide

/-- The step of the block at `ECDONE` answers a next state, so both invariant statements say something of it. -/
theorem witness_legal_step : (nextOf (step ecDone)).map (·.stage) = some 4 := by decide +kernel

end Sys2Proof.Tests
end

