-- ==== Sys2Proof/Proofs/CommandStream.lean ====
section
/-! Proofs of 10_state.md: the command stream. No body reads or writes `pc` or the host's stream, said once as a commuting
law (`IgnoresStream`); that a command keeps both until `pc` advances is its instance at the state's own stream. -/

namespace Sys2Proof.Machine

/-! ## The block under another stream -/

/-- The same block with the host's stream `cs`, about to execute its word `k`. -/
def State.withStream (s : State) (k : Nat) (cs : List Word) : State := { s with pc := k, cmds := cs }

@[simp] theorem State.withStream_pc (s : State) (k : Nat) (cs : List Word) : (s.withStream k cs).pc = k := rfl
@[simp] theorem State.withStream_cmds (s : State) (k : Nat) (cs : List Word) : (s.withStream k cs).cmds = cs := rfl
@[simp] theorem State.withStream_fault (s : State) (k : Nat) (cs : List Word) :
    (s.withStream k cs).fault = s.fault := rfl
@[simp] theorem State.withStream_plen (s : State) (k : Nat) (cs : List Word) :
    (s.withStream k cs).plen = s.plen := rfl
@[simp] theorem State.withStream_self (s : State) : s.withStream s.pc s.cmds = s := rfl

theorem State.advance_withStream (s : State) (k : Nat) (cs : List Word) :
    (s.withStream k cs).advance = s.advance.withStream (k + 1) cs := rfl

theorem State.raiseFault_withStream (s : State) (c : Cause) (k : Nat) (cs : List Word) :
    (s.withStream k cs).raiseFault c = (s.raiseFault c).withStream k cs := rfl

/-! ## Bodies that ignore the stream -/

/-- The body neither reads nor writes `pc` and the stream: under another stream it ends the same way, in the same state
but for that stream. -/
def IgnoresStream (b : Body) : Prop :=
  ∀ (s : State) (k : Nat) (cs : List Word), b (s.withStream k cs) = (b s).map fun t => t.withStream k cs

theorem ignoresStream_ok {f : State → State}
    (hf : ∀ s k cs, f (s.withStream k cs) = (f s).withStream k cs) : IgnoresStream fun s => .ok (f s) :=
  fun s k cs => congrArg Except.ok (hf s k cs)

theorem ignoresStream_error (c : Cause) : IgnoresStream fun _ => .error c := fun _ _ _ => rfl

theorem ignoresStream_ite {p : State → Prop} [DecidablePred p] {a b : Body}
    (hp : ∀ s k cs, p (s.withStream k cs) = p s) (ha : IgnoresStream a) (hb : IgnoresStream b) :
    IgnoresStream fun s => if p s then a s else b s := by
  intro s k cs
  by_cases h : p s
  · simpa [hp, h] using ha s k cs
  · simpa [hp, h] using hb s k cs

theorem ignoresStream_bind {a b : Body} (ha : IgnoresStream a) (hb : IgnoresStream b) :
    IgnoresStream fun s => a s >>= b := by
  intro s k cs
  simp only [ha s k cs]
  cases a s with
  | ok t => exact hb t k cs
  | error c => rfl

theorem ignoresStream_emitRead {r : State → Except Cause Byte}
    (hr : ∀ s k cs, r (s.withStream k cs) = r s) : IgnoresStream fun s => s.emitRead (r s) := by
  intro s k cs
  simp only [hr]
  cases r s <;> rfl

/-! ## Every body ignores the stream -/

theorem bodyPushb_ignoresStream (v : Byte) : IgnoresStream (bodyPushb v) :=
  ignoresStream_ite (fun _ _ _ => rfl) (ignoresStream_error _)
    (ignoresStream_ite (fun _ _ _ => rfl) (ignoresStream_ok fun _ _ _ => rfl) (ignoresStream_ok fun _ _ _ => rfl))

theorem bodyPushd_ignoresStream (v : Byte) : IgnoresStream (bodyPushd v) :=
  ignoresStream_ite (fun _ _ _ => rfl) (ignoresStream_error _)
    (ignoresStream_ite (fun _ _ _ => rfl) (ignoresStream_ok fun _ _ _ => rfl) (ignoresStream_ok fun _ _ _ => rfl))

theorem bodyGflog_ignoresStream (v : Byte) : IgnoresStream (bodyGflog v) := by
  unfold bodyGflog
  cases gfLog v with
  | none => exact ignoresStream_error _
  | some i => exact ignoresStream_ok fun _ _ _ => rfl

theorem bodyVinfo_ignoresStream (v f : Byte) : IgnoresStream (bodyVinfo v f) := by
  refine ignoresStream_ite (fun _ _ _ => rfl) (ignoresStream_error _) ?_
  cases vi v.toNat with
  | none => exact ignoresStream_ok fun _ _ _ => rfl
  | some r => exact ignoresStream_ok fun _ _ _ => rfl

/-- The version `SELECT` chooses is a function of `PLEN`. -/
theorem bodySelect_ignoresStream : IgnoresStream bodySelect := by
  intro s k cs
  simp only [bodySelect, State.withStream_plen]
  cases selectVersion s.plen.toNat <;> rfl

theorem bodyFrame_ignoresStream : IgnoresStream bodyFrame :=
  ignoresStream_ite (fun _ _ _ => rfl) (ignoresStream_error _)
    (ignoresStream_ite (fun _ _ _ => rfl) (ignoresStream_error _) (ignoresStream_ok fun _ _ _ => rfl))

theorem foldl_eccRound_withStream (ks : List Nat) (s : State) (k : Nat) (cs : List Word) :
    ks.foldl eccRound (s.withStream k cs) = (ks.foldl eccRound s).withStream k cs :=
  List.foldl_hom (fun s : State => s.withStream k cs) fun _ _ => rfl

theorem bodyEcc_ignoresStream : IgnoresStream bodyEcc :=
  ignoresStream_ite (fun _ _ _ => rfl) (ignoresStream_error _) <| ignoresStream_ok fun s k cs =>
    have hfold := foldl_eccRound_withStream (List.range (ns s.version))
      { s with nec := BitVec.ofNat 5 (ecBytes s.version), gen := regLoad s.gen (genPoly (ecBytes s.version)) } k cs
    congrArg (fun t : State => { t with stage := 3 }) hfold

theorem bodyIlv_ignoresStream : IgnoresStream bodyIlv :=
  ignoresStream_ite (fun _ _ _ => rfl) (ignoresStream_error _) (ignoresStream_ok fun _ _ _ => rfl)

theorem bodyPaints_ignoresStream : IgnoresStream bodyPaints :=
  ignoresStream_ite (fun _ _ _ => rfl) (ignoresStream_error _) (ignoresStream_ok fun _ _ _ => rfl)

theorem bodyPlace_ignoresStream : IgnoresStream bodyPlace :=
  ignoresStream_ite (fun _ _ _ => rfl) (ignoresStream_error _) (ignoresStream_ok fun _ _ _ => rfl)

/-- Stated for any grid `g`: with the tiles of `FMT` in its place, `rfl` would run their writes. -/
theorem State.complete_withGrid_withStream (s : State) (k : Nat) (cs : List Word) (g : Memory) :
    ({ s.withStream k cs with grid := g } : State).complete =
      ({ s with grid := g } : State).complete.withStream k cs := rfl

theorem bodyFmt_ignoresStream : IgnoresStream bodyFmt :=
  ignoresStream_ite (fun _ _ _ => rfl) (ignoresStream_error _)
    (ignoresStream_ok fun s k cs =>
      State.complete_withGrid_withStream s k cs (s.grid.writeMany (formatWrites s.size.toNat)))

theorem encodeBody_ignoresStream : IgnoresStream encodeBody :=
  ignoresStream_bind bodyFrame_ignoresStream <| ignoresStream_bind bodyEcc_ignoresStream <|
    ignoresStream_bind bodyIlv_ignoresStream <| ignoresStream_bind bodyPaints_ignoresStream <|
    ignoresStream_bind bodyPlace_ignoresStream bodyFmt_ignoresStream

theorem bodyGenerate_ignoresStream : IgnoresStream bodyGenerate :=
  ignoresStream_bind bodySelect_ignoresStream <|
    ignoresStream_ite (fun _ _ _ => rfl) (ignoresStream_ok fun _ _ _ => rfl) encodeBody_ignoresStream

theorem bodyOf_ignoresStream (i : Instr) : IgnoresStream (bodyOf i) := by
  cases i with
  | nop | reset | rdstat | rdsize | rdplen | rddlen | gfmul | gfmula | gfexp | rdgp =>
    exact ignoresStream_ok fun _ _ _ => rfl
  | rdtile | rdcw | rddcw | rdec | rdrem | rdgen => exact ignoresStream_emitRead fun _ _ _ => rfl
  | gfinv | rsgen | rsclr | rsfeed | setver =>
    exact ignoresStream_ite (fun _ _ _ => rfl) (ignoresStream_error _) (ignoresStream_ok fun _ _ _ => rfl)
  | pushb v => exact bodyPushb_ignoresStream v
  | pushd v => exact bodyPushd_ignoresStream v
  | gflog v => exact bodyGflog_ignoresStream v
  | vinfo v f => exact bodyVinfo_ignoresStream v f
  | select => exact bodySelect_ignoresStream
  | frame => exact bodyFrame_ignoresStream
  | ecc => exact bodyEcc_ignoresStream
  | ilv => exact bodyIlv_ignoresStream
  | paints => exact bodyPaints_ignoresStream
  | place => exact bodyPlace_ignoresStream
  | fmt => exact bodyFmt_ignoresStream
  | generate => exact bodyGenerate_ignoresStream

/-! ## Running a command -/

theorem settle_withStream {b : Body} (hb : IgnoresStream b) (s : State) (k : Nat) (cs : List Word) :
    settle b (s.withStream k cs) = (settle b s).withStream k cs := by
  obtain ⟨t, hok, hs⟩ | ⟨c, herr, hs⟩ := settle_cases b s
  · rw [hs]
    exact settle_ok (by rw [hb, hok]; rfl)
  · rw [hs, ← State.raiseFault_withStream]
    exact settle_error (by rw [hb, herr]; rfl)

/-- A command run as word `k` of any stream does what it does on its own, and leaves word `k + 1` to come. -/
theorem exec_withStream {i : Instr} {s t : State} (h : exec i s = .next t) (k : Nat) (cs : List Word) :
    exec i (s.withStream k cs) = .next (t.withStream (k + 1) cs) := by
  rw [exec_eq] at h ⊢
  obtain rfl := Host.Outcome.next.inj h
  rw [← State.advance_withStream, settle_withStream (bodyOf_ignoresStream i), State.withStream_fault]
  split <;> rfl

/-- Every command ends with `pc + 1` and the stream as it was (R24). -/
theorem exec_pc_cmds {i : Instr} {s t : State} (h : exec i s = .next t) : t.pc = s.pc + 1 ∧ t.cmds = s.cmds := by
  have hself := exec_withStream h s.pc s.cmds
  rw [State.withStream_self, h] at hself
  have ht : t = t.withStream (s.pc + 1) s.cmds := Host.Outcome.next.inj hself
  have hpc := congrArg State.pc ht
  have hcmds := congrArg State.cmds ht
  exact ⟨hpc, hcmds⟩

/-- No command reads `pc` (R24). -/
theorem exec_with_pc {i : Instr} {s t : State} (h : exec i s = .next t) (k : Nat) :
    exec i { s with pc := k } = .next { t with pc := k + 1 } := by
  obtain ⟨-, hcmds⟩ := exec_pc_cmds h
  have ht : t.withStream (k + 1) s.cmds = { t with pc := k + 1 } := by rw [← hcmds]; rfl
  rw [← ht]
  exact exec_withStream h k s.cmds

/-- An illegal word ends with `pc + 1` and the stream as it was (R24, R77). -/
theorem runIllegal_pc_cmds {s t : State} (h : runIllegal s = .next t) : t.pc = s.pc + 1 ∧ t.cmds = s.cmds := by
  rw [runIllegal_eq] at h
  obtain rfl := Host.Outcome.next.inj h
  split <;> simp

/-! ## One step -/

theorem exists_step_eq_next {s : State} {w : Word} (hw : s.fetch = some w) : ∃ t, step s = .next t := by
  cases hd : decode w with
  | ok i => exact ⟨_, by simpa only [step, hw, hd] using exec_eq i s⟩
  | error e => exact ⟨_, by simpa only [step, hw, hd] using runIllegal_eq s⟩

theorem step_pc_cmds {s t : State} (h : step s = .next t) : t.pc = s.pc + 1 ∧ t.cmds = s.cmds := by
  obtain ⟨w, -, ⟨i, -, hi⟩ | ⟨e, -, he⟩⟩ := step_eq_next h
  · exact exec_pc_cmds hi
  · exact runIllegal_pc_cmds he

theorem pc_lt_of_step_eq_next {s t : State} (h : step s = .next t) : s.pc < s.cmds.length := by
  obtain ⟨w, hw, -⟩ := step_eq_next h
  exact (List.getElem?_eq_some_iff.1 hw).1

/-- Settles O7: a word at `pc` always gives a next state, and no body reads or writes `pc` or the stream. -/
theorem everyWordAdvancesPcByOne : Obligations.EveryWordAdvancesPcByOne := by
  unfold Obligations.EveryWordAdvancesPcByOne
  refine ⟨fun s hpc => ?_, fun s hpc t h => ?_, fun _ _ _ k h => exec_with_pc h k⟩
  · obtain ⟨t, ht⟩ := exists_step_eq_next (List.getElem?_eq_getElem hpc)
    exact ⟨t, ht, step_pc_cmds ht⟩
  · exact absurd (pc_lt_of_step_eq_next h) (Nat.not_lt.2 hpc)

end Sys2Proof.Machine
end

