-- ==== Sys2Proof/Proofs/OpcodeTable.lean ====
section
/-! Proofs of 30_encoding.md: the decoder against the opcode table. Both speak of the opcode byte and of the fields a
format reserves: a row covers a word, and the decoder accepts one, exactly when the opcode is right and those fields
are 0. -/

namespace Sys2Proof

/-! ## A word is its four fields (R71) -/

theorem word_of_fields (w : Word) : opField w ++ aField w ++ bField w ++ cField w = w :=
  calc opField w ++ aField w ++ bField w ++ cField w
      = w.extractLsb' 16 16 ++ bField w ++ cField w :=
        congrArg (· ++ _ ++ _) (BitVec.extractLsb'_append_extractLsb'_eq_extractLsb' rfl)
    _ = w.extractLsb' 8 24 ++ cField w :=
        congrArg (· ++ _) (BitVec.extractLsb'_append_extractLsb'_eq_extractLsb' rfl)
    _ = w := BitVec.extractLsb'_append_extractLsb'

theorem word_eq_iff {v w : Word} :
    v = w ↔ opField v = opField w ∧ aField v = aField w ∧ bField v = bField w ∧ cField v = cField w := by
  refine ⟨by rintro rfl; simp, fun ⟨hop, ha, hb, hc⟩ => ?_⟩
  rw [← word_of_fields v, ← word_of_fields w, hop, ha, hb, hc]

/-! ## Formats and rows -/

/-- The fields a format marks "must be 0" are 0 (R72). -/
def Format.ReservedZero : Format → Word → Prop
  | .z, w => aField w = 0 ∧ bField w = 0 ∧ cField w = 0
  | .b, w => aField w = 0 ∧ bField w = 0
  | .bb, w | .h, w | .xy, w => aField w = 0

/-- The mask of a format keeps the opcode and the reserved fields and drops the operands. -/
theorem and_mask_eq_iff (f : Format) (op : Byte) (w : Word) :
    w &&& f.mask = packWord op 0 0 ↔ opField w = op ∧ f.ReservedZero w := by
  have hones (x : Byte) : x &&& 255#8 = x := BitVec.and_allOnes
  rw [word_eq_iff, opField_packWord, aField_packWord, bField_packWord, cField_packWord]
  cases f <;>
    simp [Format.ReservedZero, Format.mask, opField, aField, bField, cField, BitVec.extractLsb'_and, hones]

/-- The format of each command (R74); `row_mem` checks it against the opcode table. -/
def Instr.format : Instr → Format
  | .nop | .reset | .rdstat | .rdsize | .rdplen | .rddlen | .rdgp | .rsclr | .select | .frame | .ecc | .ilv
  | .paints | .place | .fmt | .generate => .z
  | .pushb _ | .pushd _ | .gfmula _ | .gfinv _ | .gfexp _ | .gflog _ | .rsgen _ | .rsfeed _ | .rdrem _
  | .rdgen _ | .setver _ => .b
  | .rdec _ _ | .gfmul _ _ | .vinfo _ _ => .bb
  | .rdcw _ | .rddcw _ => .h
  | .rdtile _ _ => .xy

/-- The row of the opcode table a command belongs to. -/
def Instr.row (i : Instr) : OpcodeRow := ⟨i.mnemonic, i.format, packWord i.opcode 0 0⟩

theorem row_mem (i : Instr) : i.row ∈ opcodeRows := by
  cases i <;> simp only [Instr.row, Instr.mnemonic, Instr.format, Instr.opcode] <;> decide

theorem row_covers_iff (i : Instr) (w : Word) :
    i.row.covers w = true ↔ opField w = i.opcode ∧ i.format.ReservedZero w := by
  simpa [OpcodeRow.covers, Instr.row] using and_mask_eq_iff ..

/-- Every row is a command's: its word with all operands zero decodes to one. -/
theorem exists_row_eq {r : OpcodeRow} (hr : r ∈ opcodeRows) : ∃ i : Instr, i.row = r := by
  have hdec : ∀ r ∈ opcodeRows, (decode r.matchBits).toOption.map Instr.row = some r := by decide
  obtain ⟨i, -, hi⟩ := Option.map_eq_some_iff.1 (hdec r hr)
  exact ⟨i, hi⟩

theorem opcodes_nodup : (opcodeRows.map fun r => opField r.matchBits).Nodup := by decide

/-- The rows have different opcodes and all compare the whole opcode byte, so no two cover the same word. -/
theorem row_unique {q r : OpcodeRow} {w : Word} (hq : q ∈ opcodeRows) (hr : r ∈ opcodeRows)
    (hqw : q.covers w = true) (hrw : r.covers w = true) : q = r := by
  refine List.inj_on_of_nodup_map opcodes_nodup hq hr ?_
  obtain ⟨i, rfl⟩ := exists_row_eq hq
  obtain ⟨j, rfl⟩ := exists_row_eq hr
  obtain ⟨hi, -⟩ := (row_covers_iff i w).1 hqw
  obtain ⟨hj, -⟩ := (row_covers_iff j w).1 hrw
  simp only [Instr.row, opField_packWord, ← hi, ← hj]

/-! ## The decoder and the rows (R76) -/

theorem fields_of_opcode_eq {w : Word} {i j : Instr} (h : i = j ∧ j.format.ReservedZero w)
    (hop : (opField w).toNat = j.opcode.toNat) : opField w = i.opcode ∧ i.format.ReservedZero w := by
  obtain ⟨rfl, hres⟩ := h
  exact ⟨BitVec.eq_of_toNat_eq hop, hres⟩

/-- An accepted word carries the command's opcode, with the reserved fields 0. Case `h_k` is the `k`-th arm of `decode`;
the arms are gathered by format. -/
theorem fields_of_decode_ok {w : Word} {i : Instr} (h : decode w = .ok i) :
    opField w = i.opcode ∧ i.format.ReservedZero w := by
  unfold decode at h
  split at h
  case h_1 hop | h_2 hop | h_5 hop | h_6 hop | h_10 hop | h_11 hop | h_18 hop | h_20 hop | h_24 hop | h_27 hop
      | h_28 hop | h_29 hop | h_30 hop | h_31 hop | h_32 hop | h_33 hop =>
    exact fields_of_opcode_eq (decodeZ_ok h) hop
  case h_3 hop | h_4 hop | h_14 hop | h_15 hop | h_16 hop | h_17 hop | h_19 hop | h_21 hop | h_22 hop | h_23 hop
      | h_25 hop =>
    exact fields_of_opcode_eq (decodeB_ok h) hop
  case h_12 hop | h_13 hop | h_26 hop => exact fields_of_opcode_eq (decodeBB_ok h) hop
  case h_8 hop | h_9 hop => exact fields_of_opcode_eq (decodeH_ok h) hop
  case h_7 hop => exact fields_of_opcode_eq (decodeXY_ok h) hop
  case h_34 => cases h

/-- The opcode picks the arm of `decode`, and the arm tests the reserved fields of its format. -/
theorem exists_decode_ok_of_fields {w : Word} (i : Instr) (hop : opField w = i.opcode)
    (hres : i.format.ReservedZero w) : ∃ j, decode w = .ok j := by
  cases i <;> exact ⟨_, by rw [decode, hop]; exact if_pos hres⟩

theorem row_covers_of_decode_ok {w : Word} {i : Instr} (h : decode w = .ok i) : i.row.covers w = true :=
  (row_covers_iff i w).2 (fields_of_decode_ok h)

theorem exists_decode_ok_iff (w : Word) : (∃ i, decode w = .ok i) ↔ ∃ r ∈ opcodeRows, r.covers w = true := by
  constructor
  · rintro ⟨i, h⟩
    exact ⟨i.row, row_mem i, row_covers_of_decode_ok h⟩
  · rintro ⟨r, hr, hrw⟩
    obtain ⟨i, rfl⟩ := exists_row_eq hr
    obtain ⟨hop, hres⟩ := (row_covers_iff i w).1 hrw
    exact exists_decode_ok_of_fields i hop hres

/-- A word no row covers is illegal (R77). -/
theorem exists_decode_error {w : Word} (h : ∀ r ∈ opcodeRows, r.covers w = false) : ∃ e, decode w = .error e := by
  cases hd : decode w with
  | error e => exact ⟨e, rfl⟩
  | ok i => exact absurd (row_covers_of_decode_ok hd) (by simp [h i.row (row_mem i)])

/-- Settles O3: the row of the command decoded covers the word, and no other row does. -/
theorem decoderAgreesWithOpcodeTable : Obligations.DecoderAgreesWithOpcodeTable := by
  unfold Obligations.DecoderAgreesWithOpcodeTable
  refine ⟨exists_decode_ok_iff, fun w i h => ⟨i.row, row_mem i, row_covers_of_decode_ok h, rfl, ?_⟩⟩
  exact fun q hq hqw => row_unique hq (row_mem i) hqw (row_covers_of_decode_ok h)

end Sys2Proof

namespace Sys2Proof.Machine

/-! ## Executing an illegal word (R77) -/

theorem step_of_decode_error {s : State} {w : Word} {e : Illegal} (hw : s.fetch = some w)
    (hd : decode w = .error e) : step s = runIllegal s := by
  simp only [step, hw, hd]

theorem runIllegal_of_not_fault {s : State} (hf : s.fault = false) : runIllegal s = .next (Claims.faulted s 1) := by
  rw [runIllegal_eq, hf]
  rfl

/-- Settles O8: a word no row covers does not decode, and the step raises the fault of an illegal word. -/
theorem illegalWordRaisesIllegal : Obligations.IllegalWordRaisesIllegal := by
  unfold Obligations.IllegalWordRaisesIllegal
  intro s w hf hw huncovered
  obtain ⟨e, hd⟩ := exists_decode_error huncovered
  rw [step_of_decode_error hw hd, runIllegal_of_not_fault hf]

end Sys2Proof.Machine
end

