-- ==== Sys2Proof/Proofs/ControlIo.lean ====
section
/-! Proofs of 40_control_io.md: control, payload input and read-out. A command that acts leaves what its body answers; a
read-out answers one of three states, picked by its stage check and then its bounds check (R59, R215), said once for all
of them (`exec_guardedRead`). -/

namespace Sys2Proof.Machine

open Claims

/-! ## A command that acts -/

/-- A command acts when the block is not faulted, or when it is one of the two that act all the same (R214). -/
def Acts (i : Instr) (s : State) : Prop := (s.fault && !actsFaulted i) = false

theorem acts_of_not_fault {s : State} (hf : s.fault = false) (i : Instr) : Acts i s := by simp [Acts, hf]

theorem acts_reset (s : State) : Acts .reset s := Bool.and_false _

theorem acts_rdstat (s : State) : Acts .rdstat s := Bool.and_false _

theorem exec_of_acts {i : Instr} {s : State} (ha : Acts i s) :
    exec i s = .next (settle (bodyOf i) s).advance := by
  rw [Acts] at ha
  simp [exec_eq, ha]

theorem exec_of_ok {i : Instr} {s t : State} (ha : Acts i s) (h : bodyOf i s = .ok t) :
    exec i s = .next t.advance := by
  rw [exec_of_acts ha, settle_ok h]

theorem exec_of_emit {i : Instr} {s : State} {v : Half} (ha : Acts i s) (h : bodyOf i s = .ok (s.emit v)) :
    exec i s = .next (emitted s v) :=
  exec_of_ok ha h

theorem exec_of_error {i : Instr} {s : State} {c : Cause} (ha : Acts i s) (h : bodyOf i s = .error c) :
    exec i s = .next (faulted s c.code) := by
  rw [exec_of_acts ha, settle_error h]
  rfl

/-! ## Read-outs -/

theorem zext16_eq_ofNat {n : Nat} (v : BitVec n) : zext16 v = BitVec.ofNat 16 v.toNat := (BitVec.ofNat_toNat ..).symm

/-- A read-out of a register emits it zero-extended, at every stage (R93, R94, R95, R141). -/
theorem exec_registerRead {n : Nat} (i : Instr) {s : State} {v : BitVec n} (hf : s.fault = false)
    (hbody : bodyOf i s = .ok (s.emit (zext16 v))) : exec i s = .next (emitted s (BitVec.ofNat 16 v.toNat)) := by
  rw [exec_of_emit (acts_of_not_fault hf i) hbody, zext16_eq_ofNat]

/-- The three ways a guarded read-out ends: too early for it, an index outside what is held, or the byte emitted. -/
theorem exec_guardedRead (i : Instr) {s : State} {early outside : Prop} [Decidable early] [Decidable outside]
    {v : Byte} (hf : s.fault = false)
    (hbody : bodyOf i s =
      s.emitRead (if early then .error .seq else if outside then .error .bounds else .ok v)) :
    (early → exec i s = .next (faulted s 2)) ∧
    (¬early → outside → exec i s = .next (faulted s 4)) ∧
    (¬early → ¬outside → exec i s = .next (emitted s (BitVec.ofNat 16 v.toNat))) := by
  have ha := acts_of_not_fault hf i
  refine ⟨fun he => ?_, fun he ho => ?_, fun he ho => ?_⟩
  · rw [if_pos he] at hbody
    exact exec_of_error ha hbody
  · rw [if_neg he, if_pos ho] at hbody
    exact exec_of_error ha hbody
  · rw [if_neg he, if_neg ho] at hbody
    exact exec_registerRead i hf hbody

/-- At stage 0 with no generator loaded, every guarded read-out comes too early. -/
theorem unreadable_of_idle {s : State} (hf : s.fault = false) (hstage : s.stage = 0) (hnec : s.nec = 0) :
    unreadable s := by
  have hst : s.stage.toNat = 0 := congrArg BitVec.toNat hstage
  refine ⟨fun x y => ?_, fun k => ?_, fun k => ?_, fun p q => ?_, fun j => ?_, fun j => ?_⟩
  · exact (exec_guardedRead (.rdtile x y) hf rfl).1 (by omega)
  · exact (exec_guardedRead (.rdcw k) hf rfl).1 (by omega)
  · exact (exec_guardedRead (.rddcw k) hf rfl).1 (by omega)
  · exact (exec_guardedRead (.rdec p q) hf rfl).1 (by omega)
  · exact (exec_guardedRead (.rdgen j) hf rfl).1 hnec
  · exact (exec_guardedRead (.rdrem j) hf rfl).1 hnec

/-! ## PUSHB (R92) -/

theorem bodyPushb_of_stage_ne {s : State} (h : s.stage.toNat ≠ 0) (v : Byte) : bodyPushb v s = .error .seq :=
  if_pos (BitVec.toNat_ne.2 h)

theorem bodyPushb_of_lt {s : State} (hstage : s.stage.toNat = 0) (hlen : s.plen.toNat < Config.payMax) (v : Byte) :
    bodyPushb v s = .ok { s with pay := s.pay.write s.plen.toNat v, plen := s.plen + 1 } := by
  have h0 : s.stage = 0 := BitVec.eq_of_toNat_eq hstage
  rw [bodyPushb, if_neg (not_not.2 h0), if_pos hlen]

theorem bodyPushb_of_ge {s : State} (hstage : s.stage.toNat = 0) (hlen : Config.payMax ≤ s.plen.toNat) (v : Byte) :
    bodyPushb v s = .ok { s with plen := 1060 } := by
  have h0 : s.stage = 0 := BitVec.eq_of_toNat_eq hstage
  rw [bodyPushb, if_neg (not_not.2 h0), if_neg (Nat.not_lt.2 hlen)]

/-- Settles O15: the stage check, then the comparison of `PLEN` with 1059, pick the case; the byte stored is read back by
the law of a single write. -/
theorem pushbAppendsOneByteOrSaturates : Obligations.PushbAppendsOneByteOrSaturates := by
  unfold Obligations.PushbAppendsOneByteOrSaturates
  intro s v hf
  have ha := acts_of_not_fault hf (.pushb v)
  refine ⟨fun hstage => ?_, fun hstage hlen hwf => ?_, fun hstage hlen => ?_⟩
  · exact exec_of_error ha (bodyPushb_of_stage_ne hstage v)
  · have hplen : s.plen + 1 = BitVec.ofNat 11 (s.plen.toNat + 1) := by simp [BitVec.ofNat_add]
    refine ⟨_, exec_of_ok ha (bodyPushb_of_lt hstage hlen v), ?_, ?_, fun a hne => ?_⟩
    · rw [← hplen]
      rfl
    · exact (Memory.read_write _ _ _ hwf).trans (if_pos rfl)
    · exact (Memory.read_write _ _ _ hwf).trans (if_neg (Ne.symm hne))
  · exact exec_of_ok ha (bodyPushb_of_ge hstage hlen v)

/-! ## RESET and NOP (R90, R91) -/

theorem exec_reset (s : State) : exec .reset s = .next s.clear.advance := exec_of_ok (acts_reset s) rfl

/-- Settles O12: `RESET` acts faulted or not, and leaves the cleared state, in which every guarded read-out is too
early. -/
theorem resetCommandClearsEveryRegister : Obligations.ResetCommandClearsEveryRegister := by
  unfold Obligations.ResetCommandClearsEveryRegister
  intro s
  exact ⟨s.clear.advance, exec_reset s, rfl, rfl, rfl, rfl, rfl, rfl, rfl, rfl, rfl, rfl, rfl, rfl, rfl, rfl,
    unreadable_of_idle rfl rfl rfl⟩

/-- Settles O14: skipped or run, `NOP` leaves the state to `pc`'s advance. -/
theorem nopOnlyAdvancesPc : Obligations.NopOnlyAdvancesPc := by
  unfold Obligations.NopOnlyAdvancesPc
  intro s
  have hbody : settle (bodyOf .nop) s = s := settle_ok rfl
  rw [exec_eq, hbody, ite_self]
  rfl

/-! ## Registers and the status word (R93 to R96) -/

/-- No grid is held below stage 5 (R40(f)). -/
theorem Legal.size_eq_zero {s : State} (h : Legal s) (hstage : s.stage.toNat < 5) : s.size.toNat = 0 := by
  rw [h.size_eq, if_neg (Nat.not_le.2 hstage)]

/-- Settles O16: each body emits its register; in a legal state the invariant gives the registers that are 0. -/
theorem registerReadoutsEmitTheRegister : Obligations.RegisterReadoutsEmitTheRegister := by
  unfold Obligations.RegisterReadoutsEmitTheRegister
  intro s hf
  have hdlen := exec_registerRead .rddlen hf rfl
  have hsize := exec_registerRead .rdsize hf rfl
  refine ⟨exec_registerRead .rdplen hf rfl, hdlen, hsize, exec_registerRead .rdgp hf rfl, fun hl hstage => ?_,
    fun hl hstage => ?_⟩
  · rw [hsize, hl.size_eq_zero hstage]
    rfl
  · rw [hdlen, hl.dlen_zero hstage]
    rfl

theorem toNat_append_eq_add {m n : Nat} (x : BitVec m) (y : BitVec n) :
    (x ++ y).toNat = x.toNat * 2 ^ n + y.toNat := by
  rw [BitVec.toNat_append, ← Nat.shiftLeft_add_eq_or_of_lt y.isLt, Nat.shiftLeft_eq]

theorem toNat_ofBool_eq_bit (b : Bool) : (BitVec.ofBool b).toNat = bit b := by cases b <;> rfl

/-- The status word as a number, each field with its weight (R26). -/
theorem State.toNat_status (s : State) :
    s.status.toNat = s.ver.toNat * 2048 + s.stage.toNat * 256 + s.fcause.toNat * 16 + bit s.fault * 4
      + bit s.err * 2 + bit s.valid := by
  simp only [State.status, toNat_append_eq_add, toNat_ofBool_eq_bit, BitVec.toNat_zero]
  omega

/-- Settles O17: `RDSTAT` acts faulted or not, and emits the status word. -/
theorem rdstatEmitsTheStatusWord : Obligations.RdstatEmitsTheStatusWord := by
  unfold Obligations.RdstatEmitsTheStatusWord
  exact fun s => ⟨s.status, exec_of_emit (acts_rdstat s) rfl, s.toNat_status⟩

/-! ## Tiles and codewords (R97 to R100) -/

/-- What holds of the byte an unlisted index reads as and of every listed byte holds of every read. -/
theorem Memory.read_induction (p : Byte → Prop) {m : Memory} (h0 : p unlisted) (h : ∀ c ∈ m, p c.2) (a : Nat) :
    p (m.read a) := by
  induction m with
  | nil => exact h0
  | cons c rest ih =>
    obtain ⟨hc, hrest⟩ := List.forall_mem_cons.1 h
    rw [Memory.read_cons]
    split
    · exact hc
    · exact ih hrest

/-- Settles O18: the two checks of the guarded read pick the case; a legal grid lists no byte above 3. -/
theorem rdtileEmitsTheTile : Obligations.RdtileEmitsTheTile := by
  unfold Obligations.RdtileEmitsTheTile
  intro s x y hf
  obtain ⟨hseq, hbounds, hok⟩ := exec_guardedRead (.rdtile x y) hf rfl
  simp only [Nat.not_lt, Nat.not_le, not_or, and_imp] at hbounds hok
  exact ⟨hseq, hbounds, hok, fun hl => Memory.read_induction (·.toNat ≤ 3) (Nat.zero_le 3) hl.tile_le⟩

/-- Settles O19: all three are guarded reads, each with its own stage and index check. -/
theorem codewordReadoutsEmitTheByte : Obligations.CodewordReadoutsEmitTheByte := by
  unfold Obligations.CodewordReadoutsEmitTheByte
  intro s hf
  refine ⟨fun k => ?_, fun k => ?_, fun p q => ?_⟩
  · simpa only [Nat.not_lt, Nat.not_le, State.version_eq] using exec_guardedRead (.rdcw k) hf rfl
  · simpa only [Nat.not_lt, Nat.not_le] using exec_guardedRead (.rddcw k) hf rfl
  · simpa only [Nat.not_lt, Nat.not_le, not_or, and_imp, State.version_eq] using
      exec_guardedRead (.rdec p q) hf rfl

end Sys2Proof.Machine
end

