-- ==== Sys2Proof/Proofs/VersionSelector.lean ====
section
/-! Proofs of 41_version_selector.md: the lookup of a version's record (R110, R113) and the fields of the record as
`VINFO` numbers them (R115). -/

namespace Sys2Proof.Machine

open Claims

/-! ## The lookup (R110) -/

/-- The table holds one row for each supported version, in order. -/
theorem versionTable_versions : versionTable.map (·.version) = List.range' 1 26 := by decide

theorem exists_row_iff (v : Nat) : (∃ r ∈ versionTable, r.version = v) ↔ 1 ≤ v ∧ v ≤ 26 := by
  rw [← List.mem_map, versionTable_versions, List.mem_range'_1]
  omega

theorem version_of_vi {v : Nat} {r : VersionInfo} (h : vi v = some r) : r.version = v :=
  beq_iff_eq.1 (List.find?_some (p := fun r : VersionInfo => r.version == v) h)

theorem info_of_vi {v : Nat} {r : VersionInfo} (h : vi v = some r) : info v = r := by rw [info, h, Option.getD_some]

theorem exists_vi_of_supported {v : Nat} (h1 : 1 ≤ v) (h26 : v ≤ 26) : ∃ r, vi v = some r := by
  obtain ⟨r, hr, hv⟩ := (exists_row_iff v).2 ⟨h1, h26⟩
  exact Option.isSome_iff_exists.1 (List.find?_isSome.2 ⟨r, hr, beq_iff_eq.2 hv⟩)

theorem vi_of_unsupported {v : Nat} (h : v < 1 ∨ 26 < v) : vi v = none := by
  refine List.find?_eq_none.2 fun r hr hv => ?_
  have hsupported := (exists_row_iff v).1 ⟨r, hr, beq_iff_eq.1 hv⟩
  omega

/-! ## The fields of a record (R113, R115) -/

section
variable {v : Nat} {r : VersionInfo} (h : vi v = some r)
include h

theorem ecBytes_of_vi : ecBytes v = r.groupBytes / r.numSegments - r.segmentDataBytes := by
  rw [ecBytes, segmentBytes, info_of_vi h]

theorem dataBytes_of_vi :
    dataBytes v = r.numSegments * r.segmentDataBytes + r.numSegments1 * r.segmentDataBytes1 := by
  rw [dataBytes, info_of_vi h]

theorem inputBytes_of_vi :
    inputBytes v = r.numSegments * r.segmentDataBytes + r.numSegments1 * r.segmentDataBytes1
      - (if v ≤ 9 then 2 else 3) := by
  rw [inputBytes, dataBytes_of_vi h, overhead]

/-- The derived fields look the record up again by its version, and find the record itself. -/
theorem versionField_eq_getElem? (f : Nat) : versionField r f = (fieldsOf r)[f]? := by
  obtain rfl := version_of_vi h
  match f with
  | 0 | 1 | 2 | 3 | 4 | 5 | 6 | 7 | 8 => rfl
  | 9 => exact congrArg some (ecBytes_of_vi h)
  | 10 => exact congrArg some (dataBytes_of_vi h)
  | 11 => exact congrArg some (inputBytes_of_vi h)
  | _ + 12 => rfl

theorem versionField_getD (f : Nat) : (versionField r f).getD 0 = (fieldsOf r).getD f 0 := by
  rw [versionField_eq_getElem? h, List.getD_eq_getElem?_getD]

end

/-! ## VINFO (R115) -/

theorem bodyVinfo_of_selector_gt {f : Byte} (hf : 11 < f.toNat) (v : Byte) (s : State) :
    bodyVinfo v f s = .error .operand := if_pos hf

theorem bodyVinfo_of_vi_none {v f : Byte} (hf : f.toNat ≤ 11) (hv : vi v.toNat = none) (s : State) :
    bodyVinfo v f s = .ok (s.emit absentMarker) := by
  rw [bodyVinfo, if_neg (Nat.not_lt.2 hf), hv]

theorem bodyVinfo_of_vi_some {v f : Byte} {r : VersionInfo} (hf : f.toNat ≤ 11) (hv : vi v.toNat = some r)
    (s : State) : bodyVinfo v f s = .ok (s.emit (BitVec.ofNat 16 ((fieldsOf r).getD f.toNat 0))) := by
  simp only [bodyVinfo, if_neg (Nat.not_lt.2 hf), hv, versionField_getD hv]

/-- Settles O34: the selector check comes first, then the lookup, which fails exactly outside the versions 1 to 26. -/
theorem vinfoEmitsTheFieldOrTheAbsentMarker : Obligations.VinfoEmitsTheFieldOrTheAbsentMarker := by
  unfold Obligations.VinfoEmitsTheFieldOrTheAbsentMarker
  intro s v f hfault
  have ha := acts_of_not_fault hfault (.vinfo v f)
  refine ⟨fun hf => ?_, fun hf hv => ?_, fun hf h1 h26 => ?_⟩
  · exact exec_of_error ha (bodyVinfo_of_selector_gt hf v s)
  · exact exec_of_emit ha (bodyVinfo_of_vi_none hf (vi_of_unsupported hv) s)
  · obtain ⟨r, hr⟩ := exists_vi_of_supported h1 h26
    exact ⟨r, hr, exec_of_emit ha (bodyVinfo_of_vi_some hf hr s)⟩

end Sys2Proof.Machine
end

