-- ==== Sys2Proof/Proofs/DataEncoder.lean ====
section
/-! Proofs of 42_data_encoder.md: framing and padding, `FRAME` and `PUSHD`. The framed stream of R121 is a sequence of
nibbles, two to a byte. The mode is one nibble and the length two or four, so the payload starts in the middle of a
byte and each of its bytes straddles two framed ones (`straddledBytes`). -/

namespace Sys2Proof.Machine

open Claims

/-! ## The numbers of the version table that framing rests on (R113) -/

theorem dataBytes_bounds {v : Nat} (h1 : 1 ≤ v) (h26 : v ≤ 26) : 16 ≤ dataBytes v ∧ dataBytes v ≤ 1062 := by
  interval_cases v <;> decide

theorem inputBytes_le_payMax {v : Nat} (h1 : 1 ≤ v) (h26 : v ≤ 26) : inputBytes v ≤ Config.payMax := by
  interval_cases v <;> decide

/-- Up to version 9 the length of a payload that fits is a byte. -/
theorem inputBytes_lt_of_le_nine {v : Nat} (h1 : 1 ≤ v) (h9 : v ≤ 9) : inputBytes v < 256 := by
  interval_cases v <;> decide

theorem overhead_of_le {v : Nat} (h : v ≤ 9) : overhead v = 2 := if_pos h

theorem overhead_of_ge {v : Nat} (h : 10 ≤ v) : overhead v = 3 := if_neg (by omega)

theorem two_le_overhead (v : Nat) : 2 ≤ overhead v := by unfold overhead; split <;> decide

/-- A payload that fits leaves room for the framing. -/
theorem length_add_overhead_le {v n : Nat} (h1 : 1 ≤ v) (h26 : v ≤ 26) (hn : n ≤ inputBytes v) :
    n + overhead v ≤ dataBytes v := by
  have hoverhead : overhead v ≤ 3 := by unfold overhead; split <;> decide
  obtain ⟨hdata, -⟩ := dataBytes_bounds h1 h26
  unfold inputBytes at hn
  omega

/-! ## Bits, nibbles and bytes -/

/-- The high bits of a field stand before its low ones. -/
theorem bitsOf_add (j k n : Nat) : bitsOf (j + k) n = bitsOf j (n >>> k) ++ bitsOf k n := by
  simp only [bitsOf, List.range_add, List.map_append, List.map_map, Nat.testBit_shiftRight]
  congr 1
  · refine List.map_congr_left fun i hi => congrArg n.testBit ?_
    have hlt := List.mem_range.1 hi
    omega
  · refine List.map_congr_left fun i _ => congrArg n.testBit (?_ : j + k - 1 - (j + i) = k - 1 - i)
    omega

/-- The byte made of the low nibble of `h` and the low nibble of `l`. -/
def byteOfNibbles (h l : Nat) : Byte := BitVec.ofNat 4 h ++ BitVec.ofNat 4 l

theorem toNat_byteOfNibbles (h l : Nat) : (byteOfNibbles h l).toNat = h % 16 * 16 + l % 16 :=
  toNat_append_eq_add (BitVec.ofNat 4 h) (BitVec.ofNat 4 l)

/-- Two nibbles of the stream pack to one byte (R121). -/
theorem packBits_two_nibbles (h l : Nat) (rest : List Bool) :
    packBits (bitsOf 4 h ++ (bitsOf 4 l ++ rest)) = byteOfNibbles h l :: packBits rest := by
  refine congrArg (· :: packBits rest) (BitVec.eq_of_toNat_eq ?_)
  simp only [byteOfBits, toNat_append_eq_add, BitVec.toNat_ofBool, Nat.toNat_testBit, toNat_byteOfNibbles]
  omega

theorem byteOfNibbles_of_lt (h : Nat) {l : Nat} (hl : l < 16) :
    byteOfNibbles h l = BitVec.ofNat 8 (((h &&& 0xF) <<< 4) ||| l) := by
  have hand : h &&& 0xF = h % 16 := Nat.and_two_pow_sub_one_eq_mod h 4
  refine BitVec.eq_of_toNat_eq ?_
  rw [toNat_byteOfNibbles, BitVec.toNat_ofNat, hand, ← Nat.shiftLeft_add_eq_or_of_lt hl, Nat.shiftLeft_eq]
  omega

/-- The low nibble is the high one of a byte. -/
theorem byteOfNibbles_high (h : Nat) (b : Byte) :
    byteOfNibbles h (b.toNat >>> 4) = BitVec.ofNat 8 (((h &&& 0xF) <<< 4) ||| (b.toNat >>> 4)) := by
  have hb := b.isLt
  exact byteOfNibbles_of_lt h (by rw [Nat.shiftRight_eq_div_pow]; omega)

theorem byteOfNibbles_eq_byte (n : Nat) : byteOfNibbles (n >>> 4) n = BitVec.ofNat 8 (n &&& 0xFF) := by
  have hand : n &&& 0xFF = n % 256 := Nat.and_two_pow_sub_one_eq_mod n 8
  refine BitVec.eq_of_toNat_eq ?_
  rw [toNat_byteOfNibbles, BitVec.toNat_ofNat, hand, Nat.shiftRight_eq_div_pow]
  omega

/-! ## The payload, half a byte off (R121) -/

/-- The payload behind the nibble `h` and before the terminator, as bytes: each byte takes the low nibble of what stands
before and the high nibble of what comes. -/
def straddledBytes : (h : Nat) → List Byte → List Byte
  | h, [] => [byteOfNibbles h 0]
  | h, b :: bs => byteOfNibbles h (b.toNat >>> 4) :: straddledBytes b.toNat bs

theorem packBits_straddled (h : Nat) (p : List Byte) :
    packBits (bitsOf 4 h ++ (p.flatMap (fun b => bitsOf 8 b.toNat) ++ terminatorBits)) = straddledBytes h p := by
  induction p generalizing h with
  | nil => exact packBits_two_nibbles h 0 []
  | cons b bs ih =>
    rw [List.flatMap_cons, bitsOf_add 4 4, List.append_assoc, List.append_assoc, packBits_two_nibbles, ih]
    rfl

@[simp] theorem length_straddledBytes (h : Nat) (p : List Byte) : (straddledBytes h p).length = p.length + 1 := by
  induction p generalizing h with
  | nil => rfl
  | cons b bs ih => exact congrArg (· + 1) (ih b.toNat)

theorem straddledBytes_getD_zero (h : Nat) (p : List Byte) :
    (straddledBytes h p).getD 0 0 = BitVec.ofNat 8 (((h &&& 0xF) <<< 4) ||| ((p.getD 0 0).toNat >>> 4)) := by
  rw [← byteOfNibbles_high]
  cases p <;> rfl

/-- Past the payload the high nibble that comes is the terminator's, 0 as of the default byte. -/
theorem straddledBytes_getD_succ (h : Nat) {p : List Byte} {i : Nat} (hi : i < p.length) :
    (straddledBytes h p).getD (i + 1) 0 =
      BitVec.ofNat 8 ((((p.getD i 0).toNat &&& 0xF) <<< 4) ||| ((p.getD (i + 1) 0).toNat >>> 4)) := by
  induction p generalizing h i with
  | nil => exact absurd hi (Nat.not_lt_zero i)
  | cons b bs ih =>
    cases i with
    | zero => exact straddledBytes_getD_zero b.toNat bs
    | succ i => exact ih b.toNat (Nat.lt_of_succ_lt_succ hi)

/-! ## The framed bytes (R121, R122) -/

/-- The bytes of mode and length, but for the last nibble of the length. -/
def framingBytes (v n : Nat) : List Byte :=
  if v ≤ 9 then [byteOfNibbles 4 (n >>> 4)] else [byteOfNibbles 4 (n >>> 12), byteOfNibbles (n >>> 8) (n >>> 4)]

theorem length_framingBytes (v n : Nat) : (framingBytes v n).length = overhead v - 1 := by
  unfold framingBytes overhead
  split <;> rfl

theorem packBits_frameBits (v : Nat) (p : List Byte) :
    packBits (frameBits v p) = framingBytes v p.length ++ straddledBytes p.length p := by
  have hmode : modeBits = bitsOf 4 4 := by decide
  unfold frameBits framingBytes lengthBits
  split
  · rw [hmode, bitsOf_add 4 4]
    simp only [List.append_assoc, packBits_two_nibbles, packBits_straddled]
    rfl
  · rw [hmode, bitsOf_add 4 12, bitsOf_add 4 8, bitsOf_add 4 4]
    simp only [List.append_assoc, packBits_two_nibbles, packBits_straddled]
    rfl

section
variable (v : Nat) (p : List Byte)

theorem frameBytes_eq :
    frameBytes v p = framingBytes v p.length ++ (straddledBytes p.length p ++
      (List.range (dataBytes v - (p.length + overhead v))).map padByte) := by
  rw [frameBytes, packBits_frameBits, List.append_assoc]

theorem length_frameBytes (h1 : 1 ≤ v) (h26 : v ≤ 26) (hp : p.length ≤ inputBytes v) :
    (frameBytes v p).length = dataBytes v := by
  have hroom := length_add_overhead_le h1 h26 hp
  have hoverhead := two_le_overhead v
  simp only [frameBytes_eq, List.length_append, length_framingBytes, length_straddledBytes, List.length_map,
    List.length_range]
  omega

theorem frameBytes_getD_framing {i : Nat} (hi : i < overhead v - 1) :
    (frameBytes v p).getD i 0 = (framingBytes v p.length).getD i 0 := by
  rw [frameBytes_eq, List.getD_append _ _ _ _ (by rwa [length_framingBytes])]

theorem frameBytes_getD_straddled {i : Nat} (hi : i ≤ p.length) :
    (frameBytes v p).getD (overhead v - 1 + i) 0 = (straddledBytes p.length p).getD i 0 := by
  rw [frameBytes_eq, ← length_framingBytes v p.length, List.getD_append_right _ _ _ _ (Nat.le_add_right ..),
    Nat.add_sub_cancel_left, List.getD_append _ _ _ _ (by rw [length_straddledBytes]; omega)]

theorem frameBytes_getD_pad {k : Nat} (hk : p.length + overhead v + k < dataBytes v) :
    (frameBytes v p).getD (p.length + overhead v + k) 0 = padByte k := by
  have hoverhead := two_le_overhead v
  have hlen : (framingBytes v p.length ++ straddledBytes p.length p).length = p.length + overhead v := by
    rw [List.length_append, length_framingBytes, length_straddledBytes]
    omega
  rw [frameBytes_eq, ← List.append_assoc, List.getD_append_right _ _ _ _ (by omega), hlen, Nat.add_sub_cancel_left]
  simp [show k < dataBytes v - (p.length + overhead v) by omega]

/-- Mode and length fill one byte and a nibble up to version 9. -/
theorem frameBytes_header_narrow (h9 : v ≤ 9) (hp : p.length < 256) :
    (frameBytes v p).getD 0 0 = BitVec.ofNat 8 (0x40 ||| (p.length >>> 4)) := by
  have hover := overhead_of_le h9
  rw [frameBytes_getD_framing v p (by omega), framingBytes, if_pos h9]
  exact byteOfNibbles_of_lt 4 (by rw [Nat.shiftRight_eq_div_pow]; omega)

/-- From version 10 on they fill two bytes and a nibble. -/
theorem frameBytes_header_wide (h10 : 10 ≤ v) (hp : p.length < 65536) :
    (frameBytes v p).getD 0 0 = BitVec.ofNat 8 (0x40 ||| (p.length >>> 12)) ∧
    (frameBytes v p).getD 1 0 = BitVec.ofNat 8 ((p.length >>> 4) &&& 0xFF) := by
  have hover := overhead_of_ge h10
  rw [frameBytes_getD_framing v p (by omega), frameBytes_getD_framing v p (by omega), framingBytes,
    if_neg (by omega)]
  exact ⟨byteOfNibbles_of_lt 4 (by rw [Nat.shiftRight_eq_div_pow]; omega), byteOfNibbles_eq_byte (p.length >>> 4)⟩

theorem frameBytes_getD_first :
    (frameBytes v p).getD (overhead v - 1) 0 =
      BitVec.ofNat 8 (((p.length &&& 0xF) <<< 4) ||| ((p.getD 0 0).toNat >>> 4)) :=
  (frameBytes_getD_straddled v p (Nat.zero_le _)).trans (straddledBytes_getD_zero ..)

theorem frameBytes_getD_after {i : Nat} (hi : i < p.length) :
    (frameBytes v p).getD (overhead v - 1 + (i + 1)) 0 =
      BitVec.ofNat 8 ((((p.getD i 0).toNat &&& 0xF) <<< 4) ||| ((p.getD (i + 1) 0).toNat >>> 4)) :=
  (frameBytes_getD_straddled v p hi).trans (straddledBytes_getD_succ _ hi)

end

/-- Settles O38: each clause is one part of the framed bytes, by its position: mode and length, the straddled payload,
the padding. -/
theorem framedBytesWrittenOut : Obligations.FramedBytesWrittenOut := by
  unfold Obligations.FramedBytesWrittenOut
  intro v p h1 h26 hp
  have hfirst := frameBytes_getD_first v p
  refine ⟨length_frameBytes v p h1 h26 hp, fun h9 => ⟨?_, ?_⟩, fun h10 => ?_, fun i hi hip => ?_, fun hpos => ?_,
    fun k hk => frameBytes_getD_pad v p hk⟩
  · exact frameBytes_header_narrow v p h9 (hp.trans_lt (inputBytes_lt_of_le_nine h1 h9))
  · rwa [overhead_of_le h9] at hfirst
  · have hmax := hp.trans (inputBytes_le_payMax h1 h26)
    obtain ⟨hmode, hlength⟩ := frameBytes_header_wide v p h10 (hmax.trans_lt (by decide))
    rw [overhead_of_ge h10] at hfirst
    exact ⟨hmode, hlength, hfirst⟩
  · obtain ⟨j, rfl⟩ := Nat.exists_eq_add_of_le' hi
    exact frameBytes_getD_after v p (by omega)
  · obtain ⟨n, hn⟩ := Nat.exists_eq_add_of_le' hpos
    have hlast := frameBytes_getD_after v p (i := n) (by omega)
    rw [← hn, List.getD_eq_default _ _ le_rfl] at hlast
    rw [hlast, hn, Nat.add_sub_cancel]
    simp

/-! ## FRAME (R123) -/

theorem bodyFrame_of_seq {s : State} (h : s.stage.toNat ≠ 1 ∨ s.dlen.toNat ≠ 0) : bodyFrame s = .error .seq :=
  if_pos (h.imp BitVec.toNat_ne.2 BitVec.toNat_ne.2)

section
variable {s : State} (hstage : s.stage.toNat = 1) (hdlen : s.dlen.toNat = 0)
include hstage hdlen

theorem not_frame_seq : ¬(s.stage ≠ 1 ∨ s.dlen ≠ 0) := by
  have h1 : s.stage = 1 := BitVec.eq_of_toNat_eq hstage
  have h0 : s.dlen = 0 := BitVec.eq_of_toNat_eq hdlen
  simp [h1, h0]

theorem bodyFrame_of_gt (h : inputBytes s.version < s.plen.toNat) : bodyFrame s = .error .invariant := by
  rw [bodyFrame, if_neg (not_frame_seq hstage hdlen), if_pos h]

theorem bodyFrame_of_fits (h : s.plen.toNat ≤ inputBytes s.version) :
    bodyFrame s = .ok { s with
      dcw := s.dcw.writeRange 0 (frameBytes s.version s.payload)
      dlen := BitVec.ofNat 11 (dataBytes s.version)
      stage := 2 } := by
  rw [bodyFrame, if_neg (not_frame_seq hstage hdlen), if_neg (Nat.not_lt.2 h)]

end

/-- Up to 1059 bytes pushed, the payload is all of them (R51). -/
theorem State.payload_of_le {s : State} (h : s.plen.toNat ≤ Config.payMax) :
    s.payload = (List.range s.plen.toNat).map fun i => s.pay.read i := by
  simp only [State.payload, Nat.min_eq_left h, Memory.readRange, Nat.zero_add]

theorem State.length_payload_le (s : State) : s.payload.length ≤ s.plen.toNat := by
  rw [State.payload, Memory.length_readRange]
  exact Nat.min_le_left ..

/-- Settles O39: the order of the two checks picks the case; what is written is read back by the law of a range, whose
length is that of the framed bytes. -/
theorem frameFillsTheDataCodewords : Obligations.FrameFillsTheDataCodewords := by
  unfold Obligations.FrameFillsTheDataCodewords
  intro s hf
  have ha := acts_of_not_fault hf .frame
  refine ⟨fun h => exec_of_error ha (bodyFrame_of_seq h), fun hstage hdlen h => ?_,
    fun hstage hdlen h1 h26 hfit => ?_⟩
  · exact exec_of_error ha (bodyFrame_of_gt hstage hdlen h)
  · have hlen : (frameBytes s.ver.toNat s.payload).length = dataBytes s.ver.toNat :=
      length_frameBytes _ _ h1 h26 (s.length_payload_le.trans hfit)
    obtain ⟨-, hmax⟩ := dataBytes_bounds h1 h26
    refine ⟨_, exec_of_ok ha (bodyFrame_of_fits hstage hdlen hfit), rfl, ?_, ?_, fun a hle => ?_⟩
    · exact Nat.mod_eq_of_lt (hmax.trans_lt (by decide))
    · rw [← State.payload_of_le (hfit.trans (inputBytes_le_payMax h1 h26)), ← hlen]
      exact Memory.readRange_writeRange ..
    · exact (Memory.read_writeRange ..).trans (if_neg (by simp only [State.version_eq]; omega))

/-! ## PUSHD (R124) -/

theorem bodyPushd_of_stage_ne {s : State} (h : s.stage.toNat ≠ 1) (v : Byte) : bodyPushd v s = .error .seq :=
  if_pos (BitVec.toNat_ne.2 h)

/-- At stage 1 the byte is stored, and the push that fills `DCW` moves on. -/
theorem bodyPushd_of_stage_eq {s : State} (h : s.stage.toNat = 1) (v : Byte) :
    bodyPushd v s = .ok { s with
      dcw := s.dcw.write s.dlen.toNat v
      dlen := s.dlen + 1
      stage := if (s.dlen + 1).toNat = dataBytes s.version then 2 else 1 } := by
  have h1 : s.stage = 1 := BitVec.eq_of_toNat_eq h
  rw [bodyPushd, if_neg (not_not.2 h1)]
  by_cases hfull : (s.dlen + 1).toNat = dataBytes s.version
  · simp only [if_pos hfull]
    exact if_pos hfull
  · simp only [if_neg hfull, ← h1]
    exact if_neg hfull

/-- Settles O40: the stage check picks the case; the byte stored is read back by the law of a single write, and `DLEN`
does not wrap below `data_bytes(VER)`. -/
theorem pushdLoadsOneDataCodeword : Obligations.PushdLoadsOneDataCodeword := by
  unfold Obligations.PushdLoadsOneDataCodeword
  intro s v hf
  have ha := acts_of_not_fault hf (.pushd v)
  refine ⟨fun hstage => exec_of_error ha (bodyPushd_of_stage_ne hstage v), fun hstage h1 h26 hroom hwf => ?_⟩
  obtain ⟨-, hmax⟩ := dataBytes_bounds h1 h26
  have hdlen : (s.dlen + 1).toNat = s.dlen.toNat + 1 :=
    BitVec.toNat_add_of_lt ((Nat.le_trans hroom hmax).trans_lt (by decide))
  refine ⟨_, exec_of_ok ha (bodyPushd_of_stage_eq hstage v), rfl, hdlen, ?_, ?_, fun a hne => ?_⟩
  · rw [← hdlen]
    rfl
  · exact (Memory.read_write _ _ _ hwf).trans (if_pos rfl)
  · exact (Memory.read_write _ _ _ hwf).trans (if_neg (Ne.symm hne))

end Sys2Proof.Machine
end

