-- ==== Sys2Proof/Proofs/Gf256.lean ====
section
/-! Proofs of 43_gf256.md: the field. Its arithmetic rests on one map, multiplication by `alpha` (`mulAlpha`): it is
additive, it commutes with `gf_mul`, and its orbit from 1 is `gf_exp`. So each nonzero byte is a power of `alpha`, a
product of powers adds the exponents, and the laws of the field are those of addition modulo 255. -/

namespace Sys2Proof.Machine

open Claims Function

/-! ## Conditional sums

A round of `gf_mul`, its reduction and a step of the long division all add `m` when a bit is set. Such a step is
additive, `op` being the exclusive-or of bit vectors or of numbers. -/

theorem ite_bne_op {α : Type} (op : α → α → α) [Std.Associative op] [Std.Commutative op]
    (hself : ∀ p m, op (op p m) m = p) (x y : Bool) (p q m : α) :
    (if (x ^^ y) = true then op (op p q) m else op p q) =
      op (if x = true then op p m else p) (if y = true then op q m else q) := by
  have hright : op (op p q) m = op p (op q m) := Std.Associative.assoc p q m
  have hleft : op (op p q) m = op (op p m) q := by ac_rfl
  cases x <;> cases y
  · rfl
  · exact hright
  · exact hleft
  · calc op p q = op (op (op p q) m) m := (hself _ m).symm
      _ = op (op p m) (op q m) := by ac_rfl

theorem bitVec_ite_bne_xor {w : Nat} (x y : Bool) (p q m : BitVec w) :
    (if (x ^^ y) = true then p ^^^ q ^^^ m else p ^^^ q) =
      (if x = true then p ^^^ m else p) ^^^ (if y = true then q ^^^ m else q) :=
  ite_bne_op HXor.hXor (fun p m => by simp) x y p q m

theorem nat_ite_bne_xor (x y : Bool) (p q m : Nat) :
    (if (x ^^ y) = true then p ^^^ q ^^^ m else p ^^^ q) =
      (if x = true then p ^^^ m else p) ^^^ (if y = true then q ^^^ m else q) :=
  ite_bne_op HXor.hXor (fun p m => by simp) x y p q m

/-! ## Multiplication by alpha -/

/-- `a` times `z`, reduced: one round's shift of the multiplicand, on bytes. -/
def mulAlpha (a : Byte) : Byte := (gfShift (a.setWidth 9)).setWidth 8

theorem gfMul_alpha (a : Byte) : gfMul a gfAlpha = mulAlpha a := by
  simp [gfMul, gfMulLoop, gfAlpha, mulAlpha]

theorem gfShift_xor (t u : BitVec 9) : gfShift (t ^^^ u) = gfShift t ^^^ gfShift u := by
  unfold gfShift
  rw [BitVec.shiftLeft_xor_distrib, BitVec.getLsbD_xor]
  exact bitVec_ite_bne_xor ..

/-- The reduction clears bit 8. -/
theorem toNat_gfShift_lt (t : BitVec 9) : (gfShift t).toNat < 2 ^ 8 := by
  refine BitVec.toNat_lt_of_msb_false ?_
  unfold gfShift
  split <;> simp_all [BitVec.msb_eq_getLsbD_last]

theorem toNat_mulAlpha_eq_gfShift (a : Byte) : (mulAlpha a).toNat = (gfShift (a.setWidth 9)).toNat := by
  rw [mulAlpha, BitVec.toNat_setWidth, Nat.mod_eq_of_lt (toNat_gfShift_lt _)]

/-- The multiplicand stays a byte. -/
theorem gfShift_setWidth (a : Byte) : gfShift (a.setWidth 9) = (mulAlpha a).setWidth 9 := by
  refine BitVec.eq_of_toNat_eq ?_
  rw [BitVec.toNat_setWidth, toNat_mulAlpha_eq_gfShift, Nat.mod_eq_of_lt (BitVec.isLt _)]

theorem mulAlpha_xor (a b : Byte) : mulAlpha (a ^^^ b) = mulAlpha a ^^^ mulAlpha b := by
  simp only [mulAlpha, BitVec.setWidth_xor, gfShift_xor]

/-! ## The loop of `gf_mul` (R132) -/

/-- One round, with the multiplicand kept as a byte. -/
theorem gfMulLoop_succ (b : Byte) (n k : Nat) (p a : Byte) :
    gfMulLoop b (n + 1) k p (a.setWidth 9) =
      gfMulLoop b n (k + 1) (if b.getLsbD k then p ^^^ a else p) ((mulAlpha a).setWidth 9) := by
  rw [gfMulLoop, gfShift_setWidth]
  simp

theorem gfMulLoop_mulAlpha (b : Byte) (n k : Nat) (p a : Byte) :
    gfMulLoop b n k (mulAlpha p) ((mulAlpha a).setWidth 9) = mulAlpha (gfMulLoop b n k p (a.setWidth 9)) := by
  induction n generalizing k p a with
  | zero => rfl
  | succ n ih => rw [gfMulLoop_succ, gfMulLoop_succ, ← ih, apply_ite mulAlpha, mulAlpha_xor]

theorem gfMulLoop_xor (b c : Byte) (n k : Nat) (p q : Byte) (t : BitVec 9) :
    gfMulLoop (b ^^^ c) n k (p ^^^ q) t = gfMulLoop b n k p t ^^^ gfMulLoop c n k q t := by
  induction n generalizing k p q t with
  | zero => rfl
  | succ n ih =>
    rw [gfMulLoop, gfMulLoop, gfMulLoop, ← ih, BitVec.getLsbD_xor, bitVec_ite_bne_xor]

theorem gfMul_mulAlpha_left (a b : Byte) : gfMul (mulAlpha a) b = mulAlpha (gfMul a b) :=
  gfMulLoop_mulAlpha b 8 0 0 a

theorem gfMul_gfAdd (a b c : Byte) : gfMul a (gfAdd b c) = gfAdd (gfMul a b) (gfMul a c) :=
  gfMulLoop_xor b c 8 0 0 0 (a.setWidth 9)

theorem gfMul_zero (a : Byte) : gfMul a 0 = 0 := by simp [gfMul, gfMulLoop]

theorem zero_gfMul (b : Byte) : gfMul 0 b = 0 := by simp [gfMul, gfMulLoop, gfShift]

theorem gfMul_one (a : Byte) : gfMul a 1 = a := by simp [gfMul, gfMulLoop]

/-- With multiplicand 1 the rounds put the bits of `b` back together: a check of the 256 bytes. -/
theorem one_gfMul (b : Byte) : gfMul 1 b = b := by
  revert b
  decide

/-! ## Long division (R132) -/

/-- The step of the long division at degree `d`. -/
def divStep (r d : Nat) : Nat := if r.testBit d then r ^^^ (0x11D <<< (d - 8)) else r

theorem polyRemainder_eq_foldl (p : Nat) : polyRemainder p = [14, 13, 12, 11, 10, 9, 8].foldl divStep p := rfl

theorem divStep_xor (r s d : Nat) : divStep (r ^^^ s) d = divStep r d ^^^ divStep s d := by
  unfold divStep
  rw [Nat.testBit_xor]
  exact nat_ite_bne_xor ..

theorem divStep_shiftLeft (r d : Nat) (hd : 8 ≤ d) : divStep (r <<< 1) (d + 1) = divStep r d <<< 1 := by
  have hm : 0x11D <<< (d + 1 - 8) = (0x11D <<< (d - 8)) <<< 1 := by
    rw [← Nat.shiftLeft_add, Nat.sub_add_comm hd]
  simp only [divStep, apply_ite (· <<< 1), Nat.shiftLeft_xor_distrib, hm]
  simp

theorem divStep_of_lt {r d : Nat} (h : r < 2 ^ d) : divStep r d = r := by
  simp [divStep, Nat.testBit_lt_two_pow h]

theorem toNat_mulAlpha (a : Byte) : (mulAlpha a).toNat = divStep (a.toNat <<< 1) 8 := by
  rw [toNat_mulAlpha_eq_gfShift]
  have hshift : (a.setWidth 9 <<< 1).toNat = a.toNat <<< 1 := by
    have ha := a.isLt
    simp only [BitVec.toNat_shiftLeft, BitVec.toNat_setWidth, Nat.shiftLeft_eq]
    omega
  simp only [gfShift, divStep, apply_ite BitVec.toNat, BitVec.toNat_xor, hshift, ← BitVec.testBit_toNat]
  rfl

theorem polyRemainder_xor (p q : Nat) : polyRemainder (p ^^^ q) = polyRemainder p ^^^ polyRemainder q := by
  simp only [polyRemainder_eq_foldl, List.foldl_cons, List.foldl_nil, divStep_xor]

theorem polyRemainder_of_lt {p : Nat} (h : p < 2 ^ 8) : polyRemainder p = p := by
  simp (disch := omega) only [polyRemainder_eq_foldl, List.foldl_cons, List.foldl_nil, divStep_of_lt]

/-- Shifting the dividend shifts every step of its division, and adds one at degree 8. -/
theorem polyRemainder_shiftLeft {p : Nat} (h : p < 2 ^ 14) :
    polyRemainder (p <<< 1) = divStep (polyRemainder p <<< 1) 8 := by
  simp only [polyRemainder_eq_foldl, List.foldl_cons, List.foldl_nil]
  rw [divStep_of_lt h]
  iterate 6 rw [divStep_shiftLeft _ _ (by decide)]

/-- The remainder of a byte's product with `z^k`. -/
theorem polyRemainder_toNat_shiftLeft (a : Byte) {k : Nat} (hk : k < 8) :
    polyRemainder (a.toNat <<< k) = (mulAlpha^[k] a).toNat := by
  induction k with
  | zero => exact polyRemainder_of_lt a.isLt
  | succ k ih =>
    have hlt : a.toNat <<< k < 2 ^ 14 :=
      calc a.toNat <<< k < 2 ^ 8 <<< k := by simpa [Nat.shiftLeft_eq] using a.isLt
        _ ≤ 2 ^ 14 := by rw [Nat.shiftLeft_eq, ← pow_add]; exact Nat.pow_le_pow_right (by decide) (by omega)
    rw [Nat.shiftLeft_add, polyRemainder_shiftLeft hlt, ih (by omega), iterate_succ_apply', toNat_mulAlpha]

/-- A step of the unreduced product: the multiplicand's shift by `k` is added when bit `k` is set. -/
def productStep (a b p k : Nat) : Nat := if b.testBit k then p ^^^ (a <<< k) else p

theorem polyProduct_eq_foldl (a b : Nat) : polyProduct a b = (List.range' 0 8).foldl (productStep a b) 0 := rfl

/-- From round `k` on the loop keeps the remainder of the product so far. -/
theorem polyRemainder_foldl_productStep (a b : Byte) {n k p : Nat} {r : Byte} (hk : k + n ≤ 8)
    (hr : polyRemainder p = r.toNat) :
    polyRemainder ((List.range' k n).foldl (productStep a.toNat b.toNat) p) =
      (gfMulLoop b n k r ((mulAlpha^[k] a).setWidth 9)).toNat := by
  induction n generalizing k p r with
  | zero => exact hr
  | succ n ih =>
    rw [gfMulLoop_succ, ← iterate_succ_apply' mulAlpha, List.range'_succ, List.foldl_cons]
    refine ih (by omega) ?_
    rw [productStep, BitVec.testBit_toNat]
    split
    · rw [polyRemainder_xor, hr, polyRemainder_toNat_shiftLeft a (by omega), BitVec.toNat_xor]
    · exact hr

theorem toNat_gfMul (a b : Byte) : (gfMul a b).toNat = polyRemainder (polyProduct a.toNat b.toNat) :=
  (polyRemainder_foldl_productStep a b (Nat.le_refl 8) rfl).symm

/-! ## Powers of alpha (R133) -/

theorem gfExp_succ (i : Nat) : gfExp (i + 1) = mulAlpha (gfExp i) := gfMul_alpha _

theorem gfExp_eq_iterate (i : Nat) : gfExp i = mulAlpha^[i] 1 := by
  induction i with
  | zero => rfl
  | succ i ih => rw [gfExp_succ, ih, iterate_succ_apply']

theorem gfMul_iterate_left (i : Nat) (a b : Byte) : gfMul (mulAlpha^[i] a) b = mulAlpha^[i] (gfMul a b) :=
  have h : Semiconj (gfMul · b) mulAlpha mulAlpha := fun a => gfMul_mulAlpha_left a b
  h.iterate_right i a

theorem gfExp_gfMul (i : Nat) (b : Byte) : gfMul (gfExp i) b = mulAlpha^[i] b := by
  rw [gfExp_eq_iterate, gfMul_iterate_left, one_gfMul]

/-- A product of powers adds the exponents. -/
theorem gfExp_add (i j : Nat) : gfExp (i + j) = gfMul (gfExp i) (gfExp j) := by
  rw [gfExp_gfMul, gfExp_eq_iterate, gfExp_eq_iterate, iterate_add_apply]

theorem gfExp_table : (List.range 256).map (fun i => (gfExp i).toNat) = antilogLow ++ antilogHigh := by
  decide +kernel

theorem gfExp_255 : gfExp 255 = 1 := by decide +kernel

/-- Alpha is primitive: its period divides 255 and none of the largest proper divisors of 255. -/
theorem minimalPeriod_mulAlpha_one : minimalPeriod mulAlpha 1 = 255 := by
  have hdvd (n : Nat) : minimalPeriod mulAlpha 1 ∣ n ↔ gfExp n = 1 := by
    rw [gfExp_eq_iterate, ← isPeriodicPt_iff_minimalPeriod_dvd]
    rfl
  have hdivisor : ∀ m ∈ Nat.divisors 255, m ∣ 15 ∨ m ∣ 51 ∨ m ∣ 85 ∨ m = 255 := by decide
  obtain h | h | h | h := hdivisor _ (Nat.mem_divisors.2 ⟨(hdvd 255).2 gfExp_255, by decide⟩)
  · exact absurd ((hdvd 15).1 h) (by decide +kernel)
  · exact absurd ((hdvd 51).1 h) (by decide +kernel)
  · exact absurd ((hdvd 85).1 h) (by decide +kernel)
  · exact h

theorem gfExp_mod (i : Nat) : gfExp i = gfExp (i % 255) := by
  rw [gfExp_eq_iterate, gfExp_eq_iterate, ← iterate_mod_minimalPeriod_eq, minimalPeriod_mulAlpha_one]

theorem gfExp_congr {i j : Nat} (h : i % 255 = j % 255) : gfExp i = gfExp j := by
  rw [gfExp_mod i, gfExp_mod j, h]

theorem gfExp_injOn : Set.InjOn gfExp (Set.Iio 255) := by
  have h := iterate_injOn_Iio_minimalPeriod (f := mulAlpha) (x := 1)
  rwa [minimalPeriod_mulAlpha_one, ← funext gfExp_eq_iterate] at h

/-- Were it 0, so would be each of its multiples, and power `255 * i` is 1. -/
theorem gfExp_ne_zero (i : Nat) : gfExp i ≠ 0 := by
  intro h
  have hone : gfExp (i + 254 * i) = gfExp 0 := gfExp_congr (by omega)
  rw [gfExp_add, h, zero_gfMul] at hone
  exact absurd hone (by decide)

/-- The 255 powers are different and nonzero, and there are only 255 nonzero bytes. -/
theorem exists_gfExp_eq {a : Byte} (ha : a ≠ 0) : ∃ i, i < 255 ∧ gfExp i = a := by
  have hsurj : Set.SurjOn gfExp (Finset.range 255) (Finset.univ.erase (0 : Byte)) := by
    refine Finset.surjOn_of_injOn_of_card_le gfExp (fun i _ => by simpa using gfExp_ne_zero i) ?_ ?_
    · simpa using gfExp_injOn
    · rw [Finset.card_erase_of_mem (Finset.mem_univ _), Finset.card_univ, ← FinEnum.card_eq_fintypeCard,
        FinEnum.card_bitVec, Finset.card_range]
      decide
  obtain ⟨i, hi, hia⟩ := hsurj (by simpa using ha)
  exact ⟨i, by simpa using hi, hia⟩

/-- Settles O21: `gf_exp` is the orbit of 1 under multiplication by alpha, and the period of that orbit is 255. -/
theorem gfExpEnumeratesTheNonzeroElements : Obligations.GfExpEnumeratesTheNonzeroElements := by
  unfold Obligations.GfExpEnumeratesTheNonzeroElements
  exact ⟨rfl, fun _ => rfl, gfExp_table, gfExp_ne_zero, fun _ => exists_gfExp_eq,
    fun _ _ hi hj h => gfExp_injOn hi hj h, gfExp_255, gfExp_mod⟩

/-! ## The laws of the field (R132) -/

/-- A byte is zero or a power of alpha. -/
theorem eq_zero_or_gfExp (a : Byte) : a = 0 ∨ ∃ i, a = gfExp i := by
  refine or_iff_not_imp_left.2 fun ha => ?_
  obtain ⟨i, -, hi⟩ := exists_gfExp_eq ha
  exact ⟨i, hi.symm⟩

theorem gfMul_comm (a b : Byte) : gfMul a b = gfMul b a := by
  obtain rfl | ⟨i, rfl⟩ := eq_zero_or_gfExp a
  · rw [zero_gfMul, gfMul_zero]
  obtain rfl | ⟨j, rfl⟩ := eq_zero_or_gfExp b
  · rw [gfMul_zero, zero_gfMul]
  rw [← gfExp_add, ← gfExp_add, Nat.add_comm]

theorem gfMul_assoc (a b c : Byte) : gfMul (gfMul a b) c = gfMul a (gfMul b c) := by
  obtain rfl | ⟨i, rfl⟩ := eq_zero_or_gfExp a
  · rw [zero_gfMul, zero_gfMul, zero_gfMul]
  · rw [gfExp_gfMul, gfExp_gfMul, gfMul_iterate_left]

theorem gfMul_eq_zero {a b : Byte} (h : gfMul a b = 0) : a = 0 ∨ b = 0 := by
  obtain ha | ⟨i, rfl⟩ := eq_zero_or_gfExp a
  · exact .inl ha
  obtain hb | ⟨j, rfl⟩ := eq_zero_or_gfExp b
  · exact .inr hb
  rw [← gfExp_add] at h
  exact absurd h (gfExp_ne_zero _)

/-- Settles O20: round by round the loop keeps the remainder of the product so far; the laws follow from the powers of
alpha. -/
theorem gfMulIsTheReducedProduct : Obligations.GfMulIsTheReducedProduct := by
  unfold Obligations.GfMulIsTheReducedProduct
  exact ⟨toNat_gfMul, gfMul_comm, gfMul_assoc, gfMul_gfAdd, gfMul_zero, gfMul_one, fun _ _ => gfMul_eq_zero⟩

/-! ## Logarithms (R134) -/

/-- The search from the power at `i` on is a search for the exponent. -/
theorem gfLogFrom_eq_find? (a : Byte) (n i : Nat) :
    gfLogFrom a n i (gfExp i) = (List.range' i n).find? fun j => decide (gfExp j = a) := by
  induction n generalizing i with
  | zero => rfl
  | succ n ih =>
    rw [gfLogFrom, List.range'_succ, List.find?_cons, ← gfExp, ih]
    by_cases h : gfExp i = a <;> simp [h]

theorem gfLog_eq_some_iff (a : Byte) (i : Nat) : gfLog a = some i ↔ i < 255 ∧ gfExp i = a := by
  have hfind : gfLog a = (List.range 255).find? fun j => decide (gfExp j = a) := by
    rw [List.range_eq_range']
    exact gfLogFrom_eq_find? a 255 0
  rw [hfind, List.find?_range_eq_some]
  constructor
  · rintro ⟨hia, hi, -⟩
    exact ⟨List.mem_range.1 hi, of_decide_eq_true hia⟩
  · rintro ⟨hi, hia⟩
    refine ⟨decide_eq_true hia, List.mem_range.2 hi, fun j hj => ?_⟩
    have hne : gfExp j ≠ a := fun hja =>
      Nat.ne_of_lt hj (gfExp_injOn (Nat.lt_trans hj hi) hi (hja.trans hia.symm))
    simp [hne]

theorem gfLog_zero : gfLog 0 = none :=
  Option.eq_none_iff_forall_ne_some.2 fun i h => gfExp_ne_zero i ((gfLog_eq_some_iff 0 i).1 h).2

theorem exists_gfLog_eq_some {a : Byte} (ha : a ≠ 0) : ∃ i, gfLog a = some i :=
  (exists_gfExp_eq ha).imp fun i => (gfLog_eq_some_iff a i).2

/-- Settles O22: the search finds the exponent, of which there is one below 255 for each nonzero byte. -/
theorem gfLogInvertsGfExp : Obligations.GfLogInvertsGfExp := by
  unfold Obligations.GfLogInvertsGfExp
  refine ⟨gfLog_eq_some_iff, gfLog_zero, fun _ => exists_gfLog_eq_some, rfl, fun a b i j hi hj => ?_⟩
  obtain ⟨-, rfl⟩ := (gfLog_eq_some_iff a i).1 hi
  obtain ⟨-, rfl⟩ := (gfLog_eq_some_iff b j).1 hj
  rw [← gfExp_add, gfExp_mod]

/-! ## Inverses (R135) -/

theorem gfPow_gfExp (i n : Nat) : gfPow (gfExp i) n = gfExp (n * i) := by
  induction n with
  | zero => simp [gfPow, gfExp]
  | succ n ih => rw [gfPow, ih, ← gfExp_add, Nat.succ_mul]

theorem gfMul_gfInv {a : Byte} (ha : a ≠ 0) : gfMul a (gfInv a) = 1 := by
  obtain ⟨i, -, rfl⟩ := exists_gfExp_eq ha
  rw [gfInv, gfPow_gfExp, ← gfExp_add]
  exact gfExp_congr (j := 0) (by omega)

theorem eq_gfInv_of_gfMul_eq_one {a b : Byte} (ha : a ≠ 0) (h : gfMul a b = 1) : b = gfInv a :=
  calc b = gfMul (gfMul a (gfInv a)) b := by rw [gfMul_gfInv ha, one_gfMul]
    _ = gfMul (gfInv a) (gfMul a b) := by rw [gfMul_comm a, gfMul_assoc]
    _ = gfInv a := by rw [h, gfMul_one]

theorem gfInv_eq_gfExp {a : Byte} {i : Nat} (hi : gfLog a = some i) : gfInv a = gfExp ((255 - i) % 255) := by
  obtain ⟨hlt, rfl⟩ := (gfLog_eq_some_iff a i).1 hi
  rw [gfInv, gfPow_gfExp]
  exact gfExp_congr (by omega)

/-- Settles O23: `a` times its 254th power is `a` to the power 255, which is 1; a second inverse would cancel. -/
theorem gfInvIsTheUniqueInverse : Obligations.GfInvIsTheUniqueInverse := by
  unfold Obligations.GfInvIsTheUniqueInverse
  exact fun a ha => ⟨gfMul_gfInv ha, fun _ => eq_gfInv_of_gfMul_eq_one ha, rfl, fun _ => gfInv_eq_gfExp⟩

/-! ## The commands on `GP` (R136 to R140) -/

/-- Settles O24: each body writes `GP` alone. -/
theorem fieldCommandsWriteGp : Obligations.FieldCommandsWriteGp := by
  unfold Obligations.FieldCommandsWriteGp
  intro s hf
  exact ⟨fun p q => exec_of_ok (acts_of_not_fault hf (.gfmul p q)) rfl,
    fun k => exec_of_ok (acts_of_not_fault hf (.gfmula k)) rfl,
    fun k => exec_of_ok (acts_of_not_fault hf (.gfexp k)) rfl⟩

theorem bodyGflog_of_none {k : Byte} (h : gfLog k = none) (s : State) : bodyGflog k s = .error .gfzero := by
  simp [bodyGflog, h]

theorem bodyGflog_of_some {k : Byte} {i : Nat} (h : gfLog k = some i) (s : State) :
    bodyGflog k s = .ok { s with gp := BitVec.ofNat 8 i } := by
  simp [bodyGflog, h]

/-- Settles O25: the operand's check picks the case; a nonzero byte has an inverse and a logarithm. -/
theorem inverseAndLogarithmCommands : Obligations.InverseAndLogarithmCommands := by
  unfold Obligations.InverseAndLogarithmCommands
  intro s hf
  have ha (i : Instr) := acts_of_not_fault hf i
  refine ⟨exec_of_error (ha (.gfinv 0)) rfl, exec_of_error (ha (.gflog 0)) (bodyGflog_of_none gfLog_zero s),
    fun k hk => ⟨gfInv k, gfMul_gfInv hk, exec_of_ok (ha (.gfinv k)) (if_neg hk)⟩, fun k hk => ?_⟩
  obtain ⟨i, hi⟩ := exists_gfLog_eq_some hk
  obtain ⟨hlt, hik⟩ := (gfLog_eq_some_iff k i).1 hi
  exact ⟨i, hlt, hik, exec_of_ok (ha (.gflog k)) (bodyGflog_of_some hi s)⟩

end Sys2Proof.Machine
end

