-- ==== Sys2Proof/Proofs/ReedSolomon.lean ====
section
/-! Proofs of 44_reed_solomon.md: the generator, the division step, the stand-alone datapath commands and `ECC`.
Horner's rule is linear in the coefficients; so one division step multiplies the codeword by `x` and adds a multiple of
the generator, and the generator's roots stay roots of the codeword. -/

namespace Sys2Proof.Machine

open Claims

/-! ## Evaluation of a polynomial -/

theorem zero_gfAdd (a : Byte) : gfAdd 0 a = a := BitVec.zero_xor

theorem gfAdd_zero (a : Byte) : gfAdd a 0 = a := BitVec.xor_zero

theorem gfAdd_self (a : Byte) : gfAdd a a = 0 := BitVec.xor_self

theorem gfAdd_gfAdd_gfAdd_comm (a b c d : Byte) :
    gfAdd (gfAdd a b) (gfAdd c d) = gfAdd (gfAdd a c) (gfAdd b d) := by
  unfold gfAdd
  ac_rfl

theorem gfAdd_gfMul (a b c : Byte) : gfMul (gfAdd a b) c = gfAdd (gfMul a c) (gfMul b c) := by
  rw [gfMul_comm, gfMul_gfAdd, gfMul_comm c, gfMul_comm c]

/-- One coefficient more, by Horner's rule. -/
def hornerStep (x acc c : Byte) : Byte := gfAdd (gfMul acc x) c

theorem polyEval_eq_foldl (cs : List Byte) (x : Byte) : polyEval cs x = cs.foldl (hornerStep x) 0 := rfl

theorem hornerStep_zero (x c : Byte) : hornerStep x 0 c = c := by rw [hornerStep, zero_gfMul, zero_gfAdd]

theorem hornerStep_gfAdd_gfMul (x e a b p q : Byte) :
    hornerStep x (gfAdd a (gfMul b e)) (gfAdd p (gfMul q e)) =
      gfAdd (hornerStep x a p) (gfMul (hornerStep x b q) e) := by
  have hcomm : gfMul (gfMul b e) x = gfMul (gfMul b x) e := by
    rw [gfMul_assoc, gfMul_comm e, ← gfMul_assoc]
  rw [hornerStep, hornerStep, hornerStep, gfAdd_gfMul, gfAdd_gfMul, hcomm]
  exact gfAdd_gfAdd_gfAdd_comm ..

theorem polyEval_replicate_zero (n : Nat) (x : Byte) : polyEval (List.replicate n 0) x = 0 := by
  rw [polyEval_eq_foldl]
  induction n with
  | zero => rfl
  | succ n ih => rw [List.replicate_succ, List.foldl_cons, hornerStep_zero, ih]

/-- Horner's rule is linear. -/
theorem foldl_hornerStep_zipWith (x e a b : Byte) {ps qs : List Byte} (h : ps.length = qs.length) :
    (List.zipWith (fun p q => gfAdd p (gfMul q e)) ps qs).foldl (hornerStep x) (gfAdd a (gfMul b e)) =
      gfAdd (ps.foldl (hornerStep x) a) (gfMul (qs.foldl (hornerStep x) b) e) := by
  induction ps generalizing a b qs with
  | nil =>
    obtain rfl : qs = [] := List.length_eq_zero_iff.1 h.symm
    rfl
  | cons p ps ih =>
    obtain ⟨q, qs, rfl⟩ := List.exists_cons_of_length_eq_add_one h.symm
    rw [List.zipWith_cons_cons, List.foldl_cons, hornerStep_gfAdd_gfMul]
    exact ih _ _ (Nat.succ.inj h)

theorem polyEval_append (ps qs : List Byte) (x : Byte) :
    polyEval (ps ++ qs) x = qs.foldl (hornerStep x) (polyEval ps x) :=
  List.foldl_append

theorem polyEval_cons (c : Byte) (cs : List Byte) (x : Byte) : polyEval (c :: cs) x = cs.foldl (hornerStep x) c := by
  rw [polyEval_eq_foldl, List.foldl_cons, hornerStep_zero]

/-- A last coefficient 0 multiplies by `x`. -/
theorem foldl_hornerStep_append_zero (cs : List Byte) (x a : Byte) :
    (cs ++ [0]).foldl (hornerStep x) a = gfMul (cs.foldl (hornerStep x) a) x := by
  rw [List.foldl_append, List.foldl_cons, List.foldl_nil, hornerStep, gfAdd_zero]

/-! ## The generator (R145) -/

theorem length_genPoly (n : Nat) : (genPoly n).length = n + 1 := by
  induction n with
  | zero => rfl
  | succ n ih => simp [genPoly, ih]

/-- The recursion of R145 with both lists of coefficients unscaled. -/
theorem genPoly_succ (n : Nat) :
    genPoly (n + 1) =
      List.zipWith (fun p q => gfAdd p (gfMul q (gfExp n))) (0 :: genPoly n) (genPoly n ++ [0]) := by
  have hmap : (genPoly n).map (fun c => gfMul c (gfExp n)) ++ [0] =
      (genPoly n ++ [0]).map fun c => gfMul c (gfExp n) := by
    rw [List.map_append, List.map_singleton, zero_gfMul]
  rw [genPoly, hmap, List.zipWith_map_right]

/-- The generator is monic. -/
theorem genPoly_getElem?_self (n : Nat) : (genPoly n)[n]? = some 1 := by
  induction n with
  | zero => rfl
  | succ n ih =>
    have hzero : (genPoly n ++ [0])[n + 1]? = some 0 := by
      rw [← length_genPoly n, List.getElem?_concat_length]
    simp only [genPoly_succ, List.getElem?_zipWith, List.getElem?_cons_succ, ih, hzero, zero_gfMul, gfAdd_zero]

/-- First coefficient the highest power, the generator is 1 and its lower coefficients. -/
theorem genPoly_reverse (n : Nat) : (genPoly n).reverse = 1 :: ((genPoly n).take n).reverse := by
  have hsplit : genPoly n = (genPoly n).take n ++ [1] :=
    calc genPoly n = (genPoly n).take (n + 1) := (List.take_of_length_le (length_genPoly n).le).symm
      _ = (genPoly n).take n ++ [1] := by rw [List.take_add_one, genPoly_getElem?_self]; rfl
  exact (congrArg List.reverse hsplit).trans (List.reverse_concat ..)

/-- The generator of degree `n + 1` is that of degree `n` times `x + alpha^n`. -/
theorem polyEval_genPoly_succ (n : Nat) (x : Byte) :
    polyEval (genPoly (n + 1)).reverse x = gfMul (polyEval (genPoly n).reverse x) (gfAdd x (gfExp n)) := by
  have hlen : ((genPoly n).reverse ++ [0]).length = (0 :: (genPoly n).reverse).length := by simp
  have hlinear := foldl_hornerStep_zipWith x (gfExp n) 0 0 hlen
  rw [zero_gfMul, gfAdd_zero, foldl_hornerStep_append_zero] at hlinear
  rw [genPoly_succ, List.reverse_zipWith (by simp), List.reverse_cons, List.reverse_concat, polyEval_eq_foldl, hlinear,
    gfMul_gfAdd]
  rw [List.foldl_cons, hornerStep_zero]
  rfl

/-- The roots of the generator. -/
theorem polyEval_genPoly_gfExp {n r : Nat} (h : r < n) : polyEval (genPoly n).reverse (gfExp r) = 0 := by
  induction n with
  | zero => exact absurd h (Nat.not_lt_zero r)
  | succ n ih =>
    rw [polyEval_genPoly_succ]
    obtain h | rfl := Nat.lt_succ_iff_lt_or_eq.1 h
    · rw [ih h, zero_gfMul]
    · rw [gfAdd_self, gfMul_zero]

/-! ## The division step (R146) -/

theorem length_rsFeed {gen rem : List Byte} {n : Nat} (hgen : n ≤ gen.length) (hrem : rem.length = n) (d : Byte) :
    (rsFeed gen n rem d).length = n := by
  simp only [rsFeed, List.length_zipWith, List.length_append, List.length_drop, List.length_singleton,
    List.length_reverse, List.length_take]
  omega

/-- Every byte of the new remainder from the old one. -/
theorem rsFeed_getD {gen rem : List Byte} {n i : Nat} (hgen : n ≤ gen.length) (hrem : rem.length = n) (d : Byte)
    (hi : i < n) :
    (rsFeed gen n rem d).getD i 0 =
      gfAdd (if i + 1 ≤ n - 1 then rem.getD (i + 1) 0 else 0)
        (gfMul (gen.getD (n - 1 - i) 0) (gfAdd d (rem.getD 0 0))) := by
  have hnext : (rem.drop 1 ++ [0])[i]? = some (if i + 1 ≤ n - 1 then rem.getD (i + 1) 0 else 0) := by
    split
    · rw [List.getElem?_append_left (by rw [List.length_drop]; omega), List.getElem?_drop, Nat.add_comm 1,
        List.getD_eq_getElem?_getD, List.getElem?_eq_getElem (by omega), Option.getD_some]
    · have hlast : i = (rem.drop 1).length := by rw [List.length_drop]; omega
      rw [hlast, List.getElem?_concat_length]
  have hcoeff : (gen.take n).reverse[i]? = some (gen.getD (n - 1 - i) 0) := by
    have hlen : (gen.take n).length = n := List.length_take_of_le hgen
    rw [List.getElem?_reverse (by omega), hlen, List.getElem?_take_of_lt (by omega), List.getD_eq_getElem?_getD,
      List.getElem?_eq_getElem (by omega), Option.getD_some]
  rw [rsFeed, List.getD_eq_getElem?_getD, List.getElem?_zipWith, hnext, hcoeff]
  rfl

/-- One step multiplies the codeword by `x` and adds a multiple of the generator. -/
theorem polyEval_rsFeed (data : List Byte) {rem : List Byte} {n : Nat} (hn : 0 < n) (hrem : rem.length = n)
    (d x : Byte) :
    polyEval (data ++ [d] ++ rsFeed (genPoly n) n rem d) x =
      gfAdd (gfMul (polyEval (data ++ rem) x) x)
        (gfMul (polyEval (genPoly n).reverse x) (gfAdd d (rem.getD 0 0))) := by
  obtain ⟨r, rest, rfl⟩ := List.exists_cons_of_length_pos (hrem ▸ hn)
  have hlen : (rest ++ [0]).length = ((genPoly n).take n).reverse.length := by
    simp [length_genPoly, ← hrem]
  have hfirst : polyEval (data ++ [d]) x =
      gfAdd (hornerStep x (polyEval data x) r) (gfMul 1 (gfAdd d r)) := by
    rw [one_gfMul, hornerStep, gfAdd_gfAdd_gfAdd_comm, gfAdd_self, gfAdd_zero, polyEval_append]
    rfl
  have hfeed : rsFeed (genPoly n) n (r :: rest) d =
      List.zipWith (fun p q => gfAdd p (gfMul q (gfAdd d r))) (rest ++ [0]) ((genPoly n).take n).reverse := rfl
  rw [polyEval_append, hfirst, hfeed, foldl_hornerStep_zipWith _ _ _ _ hlen, foldl_hornerStep_append_zero,
    polyEval_append, List.foldl_cons, genPoly_reverse, polyEval_cons, List.getD_cons_zero]

/-! ## The encoding (R147, R148) -/

theorem rsEncode_append_singleton (data : List Byte) (d : Byte) (n : Nat) :
    rsEncode (data ++ [d]) n = rsFeed (genPoly n) n (rsEncode data n) d := List.foldl_concat ..

theorem length_rsEncode (data : List Byte) (n : Nat) : (rsEncode data n).length = n := by
  induction data using List.reverseRecOn with
  | nil => exact List.length_replicate
  | append_singleton data d ih =>
    rw [rsEncode_append_singleton, length_rsFeed (by rw [length_genPoly]; omega) ih]

/-- A root of the generator is a root of every codeword. -/
theorem polyEval_append_rsEncode (data : List Byte) {n : Nat} {x : Byte} (hn : 0 < n)
    (hroot : polyEval (genPoly n).reverse x = 0) : polyEval (data ++ rsEncode data n) x = 0 := by
  induction data using List.reverseRecOn with
  | nil => exact polyEval_replicate_zero n x
  | append_singleton data d ih =>
    rw [rsEncode_append_singleton, polyEval_rsFeed data hn (length_rsEncode data n), ih, hroot, zero_gfMul, zero_gfMul,
      gfAdd_zero]

/-- Settles O31: each power of alpha below `n` is a root of the generator, hence of the codeword. -/
theorem everyCodewordHasZeroSyndromes : Obligations.EveryCodewordHasZeroSyndromes := by
  unfold Obligations.EveryCodewordHasZeroSyndromes
  exact fun data n h1 _ =>
    ⟨length_rsEncode data n, fun _ hr => polyEval_append_rsEncode data h1 (polyEval_genPoly_gfExp hr)⟩

/-! ## The registers of the datapath (R23) -/

theorem State.nec_eq_zero_iff (s : State) : s.nec = 0 ↔ s.nec.toNat = 0 := BitVec.toNat_eq

theorem regRead_regLoad_of_lt {n : Nat} (r : Vector Byte n) {vs : List Byte} (hn : vs.length ≤ n) {i : Nat}
    (h : i < vs.length) : regRead (regLoad r vs) i = vs.getD i 0 := by
  rw [regRead_regLoad r vs i (h.trans_le hn), if_pos h]

theorem regRead_regLoad_of_ge {n : Nat} (r : Vector Byte n) {vs : List Byte} {i : Nat} (h : vs.length ≤ i)
    (hn : i < n) : regRead (regLoad r vs) i = regRead r i := by
  rw [regRead_regLoad r vs i hn, if_neg (Nat.not_lt.2 h)]

theorem regRead_regLoad_zeros {n : Nat} (r : Vector Byte n) {k i : Nat} (hk : k ≤ n) (h : i < k) :
    regRead (regLoad r (List.replicate k 0)) i = 0 := by
  rw [regRead_regLoad_of_lt r (by simpa using hk) (by simpa using h), List.getD_replicate _ h]

/-! ## RSGEN (R150) -/

theorem bodyRsgen_of_bad {k : Byte} (h : k.toNat < 1 ∨ 30 < k.toNat) (s : State) :
    bodyRsgen k s = .error .operand := if_pos h

theorem bodyRsgen_of_good {k : Byte} (h1 : 1 ≤ k.toNat) (h30 : k.toNat ≤ 30) (s : State) :
    bodyRsgen k s = .ok { s with
      nec := BitVec.ofNat 5 k.toNat
      gen := regLoad s.gen (genPoly k.toNat)
      rem := regLoad s.rem (List.replicate k.toNat 0) } :=
  if_neg (not_or.2 ⟨Nat.not_lt.2 h1, Nat.not_lt.2 h30⟩)

/-- Settles O27: the operand's check picks the case; what the two register files hold is read back by the law of a
load. -/
theorem rsgenLoadsTheGenerator : Obligations.RsgenLoadsTheGenerator := by
  unfold Obligations.RsgenLoadsTheGenerator
  intro s k hf
  have ha := acts_of_not_fault hf (.rsgen k)
  refine ⟨fun hbad => exec_of_error ha (bodyRsgen_of_bad hbad s), fun h1 h30 => ?_⟩
  have hgen := length_genPoly k.toNat
  have hrem : (List.replicate k.toNat (0 : Byte)).length = k.toNat := List.length_replicate
  refine ⟨_, exec_of_ok ha (bodyRsgen_of_good h1 h30 s), rfl, ?_, fun j hj => ?_, fun j hj hj31 => ?_,
    fun i hi => ?_, fun i hi hi30 => ?_⟩
  · exact Nat.mod_eq_of_lt (Nat.lt_succ_of_le (h30.trans (by decide)))
  · exact regRead_regLoad_of_lt _ (by omega) (by omega)
  · exact regRead_regLoad_of_ge _ (by omega) hj31
  · exact regRead_regLoad_zeros _ h30 hi
  · exact regRead_regLoad_of_ge _ (by omega) hi30

/-! ## RSCLR and RSFEED (R151, R152) -/

theorem bodyRsclr_of_unloaded {s : State} (h : s.nec.toNat = 0) : bodyRsclr s = .error .seq :=
  if_pos (s.nec_eq_zero_iff.2 h)

theorem bodyRsclr_of_loaded {s : State} (h : s.nec.toNat ≠ 0) :
    bodyRsclr s = .ok { s with rem := regLoad s.rem (List.replicate s.nec.toNat 0) } :=
  if_neg (mt s.nec_eq_zero_iff.1 h)

/-- Settles O28: a load of zeros, read back inside and outside its range. -/
theorem rsclrClearsTheRemainder : Obligations.RsclrClearsTheRemainder := by
  unfold Obligations.RsclrClearsTheRemainder
  intro s hf
  have ha := acts_of_not_fault hf .rsclr
  refine ⟨fun h => exec_of_error ha (bodyRsclr_of_unloaded h), fun h h30 => ?_⟩
  refine ⟨_, exec_of_ok ha (bodyRsclr_of_loaded h), rfl, fun i hi => ?_, fun i hi hi30 => ?_⟩
  · exact regRead_regLoad_zeros _ h30 hi
  · exact regRead_regLoad_of_ge _ (by rwa [List.length_replicate]) hi30

/-- `REM[0 .. NEC-1]` after one step (R152). -/
def State.fedRem (s : State) (d : Byte) : List Byte :=
  rsFeed (regPrefix s.gen (s.nec.toNat + 1)) s.nec.toNat (regPrefix s.rem s.nec.toNat) d

theorem bodyRsfeed_of_unloaded {s : State} (h : s.nec.toNat = 0) (d : Byte) : bodyRsfeed d s = .error .seq :=
  if_pos (s.nec_eq_zero_iff.2 h)

theorem bodyRsfeed_of_loaded {s : State} (h : s.nec.toNat ≠ 0) (d : Byte) :
    bodyRsfeed d s = .ok { s with rem := regLoad s.rem (s.fedRem d) } :=
  if_neg (mt s.nec_eq_zero_iff.1 h)

section
variable {s : State} (h30 : s.nec.toNat ≤ 30)
include h30

theorem State.length_fedRem (d : Byte) : (s.fedRem d).length = s.nec.toNat := by
  refine length_rsFeed ?_ (regPrefix_length _ _ h30) d
  rw [regPrefix_length _ _ (by omega)]
  omega

theorem State.fedRem_getD (d : Byte) {i : Nat} (hi : i < s.nec.toNat) :
    (s.fedRem d).getD i 0 =
      (if i + 1 ≤ s.nec.toNat - 1 then regRead s.rem (i + 1) else 0) ^^^
        gfMul (regRead s.gen (s.nec.toNat - 1 - i)) (d ^^^ regRead s.rem 0) := by
  have hgen : s.nec.toNat ≤ (regPrefix s.gen (s.nec.toNat + 1)).length := by
    rw [regPrefix_length _ _ (by omega)]
    omega
  rw [fedRem, rsFeed_getD hgen (regPrefix_length _ _ h30) d hi, regPrefix_getD s.gen _ (s.nec.toNat - 1 - i) (by omega),
    regPrefix_getD s.rem _ 0 (by omega)]
  split
  · rw [regPrefix_getD _ _ _ (by omega)]
    rfl
  · rfl

end

/-- Settles O29: the step is computed from the entries read before the load, which is then read back. -/
theorem rsfeedMakesOneDivisionStep : Obligations.RsfeedMakesOneDivisionStep := by
  unfold Obligations.RsfeedMakesOneDivisionStep
  intro s d hf
  have ha := acts_of_not_fault hf (.rsfeed d)
  refine ⟨fun h => exec_of_error ha (bodyRsfeed_of_unloaded h d), fun h h30 => ?_⟩
  have hlen := State.length_fedRem h30 d
  refine ⟨_, exec_of_ok ha (bodyRsfeed_of_loaded h d), rfl, fun i hi => ?_, fun i hi hi30 => ?_⟩
  · exact (regRead_regLoad_of_lt _ (by omega) (by omega)).trans (State.fedRem_getD h30 d hi)
  · exact regRead_regLoad_of_ge _ (by omega) hi30

/-! ## RDGEN and RDREM (R153, R154) -/

/-- The generator a legal state has loaded is monic. -/
theorem Legal.regRead_gen_nec {s : State} (hl : Legal s) (h : s.nec.toNat ≠ 0) : regRead s.gen s.nec.toNat = 1 := by
  rw [← regPrefix_getD s.gen (s.nec.toNat + 1) _ (Nat.lt_succ_self _), hl.gen_loaded h, List.getD_eq_getElem?_getD,
    genPoly_getElem?_self, Option.getD_some]

/-- Settles O30: both are guarded reads, `NEC` 0 being too early. -/
theorem datapathReadoutsEmitTheByte : Obligations.DatapathReadoutsEmitTheByte := by
  unfold Obligations.DatapathReadoutsEmitTheByte
  intro s j hf
  obtain ⟨hgenSeq, hgenBounds, hgenOk⟩ := exec_guardedRead (.rdgen j) hf rfl
  obtain ⟨hremSeq, hremBounds, hremOk⟩ := exec_guardedRead (.rdrem j) hf rfl
  simp only [State.nec_eq_zero_iff, Nat.not_lt, Nat.not_le] at hgenSeq hgenBounds hgenOk hremSeq hremBounds hremOk
  refine ⟨fun h => ⟨hgenSeq h, hremSeq h⟩, hgenBounds, hgenOk, hremBounds, hremOk, fun hl h hj => ?_⟩
  rw [hgenOk h hj.le, hj, hl.regRead_gen_nec h]
  rfl

/-! ## ECC (R155) -/

theorem ecBytes_bounds {v : Nat} (h1 : 1 ≤ v) (h26 : v ≤ 26) : 1 ≤ ecBytes v ∧ ecBytes v ≤ 30 := by
  interval_cases v <;> decide

theorem ns_pos {v : Nat} (h1 : 1 ≤ v) (h26 : v ≤ 26) : 0 < ns v := by
  interval_cases v <;> decide

/-- The parity of segment `k` (R147, R155). -/
def State.parity (s : State) (k : Nat) : List Byte := rsEncode (segmentData s.dcw s.version k) (ecBytes s.version)

theorem State.length_parity (s : State) (k : Nat) : (s.parity k).length = ecBytes s.version := length_rsEncode ..

theorem eccRound_eq (s : State) (k : Nat) :
    eccRound s k = { s with
      rem := regLoad s.rem (s.parity k)
      ecw := s.ecw.writeRange (ecwIndex k 0) (s.parity k) } := rfl

/-- What the first `k` rounds of `ECC` have made of `s` when they are at `t`. -/
structure EccRounds (s t : State) (k : Nat) : Prop where
  frame : t = { s with rem := t.rem, ecw := t.ecw }
  parity : ∀ j < k, t.ecw.readRange (ecwIndex j 0) (ecBytes s.version) = s.parity j
  last : ∀ j, k = j + 1 → regPrefix t.rem (ecBytes s.version) = s.parity j
  rem_kept : ∀ i, ecBytes s.version ≤ i → i < 30 → regRead t.rem i = regRead s.rem i
  ecw_kept : ∀ a, (∀ j i, j < k → i < ecBytes s.version → a ≠ ecwIndex j i) → t.ecw.read a = s.ecw.read a

theorem EccRounds.zero (s : State) : EccRounds s s 0 where
  frame := rfl
  parity _ hj := absurd hj (Nat.not_lt_zero _)
  last _ hj := absurd hj (Nat.succ_ne_zero _).symm
  rem_kept _ _ _ := rfl
  ecw_kept _ _ := rfl

/-- A parity is at most 30 bytes, so a round writes over no other segment's. -/
theorem EccRounds.succ {s t : State} {k : Nat} (h30 : ecBytes s.version ≤ 30) (h : EccRounds s t k) :
    EccRounds s (eccRound t k) (k + 1) := by
  obtain ⟨hframe, hparity, -, hrem, hecw⟩ := h
  have hnext : t.parity k = s.parity k := by rw [hframe]; rfl
  have hlen := s.length_parity k
  rw [eccRound_eq, hnext]
  refine ⟨?_, fun j hj => ?_, fun j hj => ?_, fun i hi hi30 => ?_, fun a ha => ?_⟩
  · rw [hframe]
  · obtain hj | rfl := Nat.lt_succ_iff_lt_or_eq.1 hj
    · rw [← hparity j hj]
      refine Memory.readRange_congr fun i hi => ?_
      rw [Memory.read_writeRange, if_neg]
      simp only [ecwIndex, Config.necMax]
      omega
    · rw [← hlen]
      exact Memory.readRange_writeRange ..
  · obtain rfl := Nat.succ.inj hj
    rw [← hlen]
    exact regPrefix_regLoad _ _ (by omega)
  · exact (regRead_regLoad_of_ge _ (by omega) hi30).trans (hrem i hi hi30)
  · refine (Memory.read_writeRange ..).trans ?_
    rw [if_neg, hecw a fun j i hj => ha j i (Nat.lt_succ_of_lt hj)]
    intro hmem
    have hne := ha k (a - ecwIndex k 0) (Nat.lt_succ_self k)
    simp only [ecwIndex] at hne hmem
    omega

theorem eccRounds_foldl {s : State} (h30 : ecBytes s.version ≤ 30) (k : Nat) :
    EccRounds s ((List.range k).foldl eccRound s) k := by
  induction k with
  | zero => exact EccRounds.zero s
  | succ k ih =>
    rw [List.range_succ, List.foldl_concat]
    exact ih.succ h30

/-- The divider loaded (R155). -/
def State.loadDivider (s : State) : State :=
  { s with
    nec := BitVec.ofNat 5 (ecBytes s.version)
    gen := regLoad s.gen (genPoly (ecBytes s.version)) }

theorem bodyEcc_of_stage_ne {s : State} (h : s.stage.toNat ≠ 2) : bodyEcc s = .error .seq :=
  if_pos (BitVec.toNat_ne.2 h)

theorem bodyEcc_of_stage_eq {s : State} (h : s.stage.toNat = 2) :
    bodyEcc s = .ok { (List.range (ns s.version)).foldl eccRound s.loadDivider with stage := 3 } := by
  have h2 : s.stage = 2 := BitVec.eq_of_toNat_eq h
  exact if_neg (not_not.2 h2)

/-- Settles O33: the stage check picks the case; the rounds keep the parities already stored, and every round leaves its
own in `REM`. -/
theorem eccStoresTheParityOfEverySegment : Obligations.EccStoresTheParityOfEverySegment := by
  unfold Obligations.EccStoresTheParityOfEverySegment
  intro s hf
  have ha := acts_of_not_fault hf .ecc
  refine ⟨fun h => exec_of_error ha (bodyEcc_of_stage_ne h), fun h h1 h26 => ?_⟩
  obtain ⟨-, h30⟩ := ecBytes_bounds h1 h26
  obtain ⟨k, hk⟩ := Nat.exists_eq_add_one_of_ne_zero (ns_pos h1 h26).ne'
  have hgen := length_genPoly (ecBytes s.version)
  have hgen31 : (genPoly (ecBytes s.version)).length ≤ 31 := hgen.trans_le (Nat.succ_le_succ h30)
  have hexec := exec_of_ok ha (bodyEcc_of_stage_eq h)
  obtain ⟨hframe, hparity, hlast, hrem, hecw⟩ := eccRounds_foldl (s := s.loadDivider) h30 (ns s.version)
  rw [hframe] at hexec
  refine ⟨_, hexec, rfl, ?_, ?_, fun j hj hj31 => ?_, hparity, ?_, hrem, hecw⟩
  · exact Nat.mod_eq_of_lt (Nat.lt_succ_of_le (h30.trans (by decide)))
  · exact (congrArg (regPrefix _) hgen.symm).trans (regPrefix_regLoad _ _ hgen31)
  · exact regRead_regLoad_of_ge _ (hgen.trans_le hj) hj31
  · rw [hk]
    exact (hlast k hk).trans (hparity k (by rw [State.version_eq, hk]; exact Nat.lt_succ_self k)).symm

end Sys2Proof.Machine
end

