-- ==== Sys2Proof/Proofs/MatrixPainter.lean ====
section
/-! Proofs of 45_matrix_painter.md: interleaving, the structural grid and placement. A tile's structural flag asks of
each coordinate only which band of the side it lies in (`Band`), so free tiles are counted band by band; the column
pairs of the placement order are the columns of the grid but the timing column, so it lists the free tiles once each. -/

namespace Sys2Proof.Machine

open Claims

/-! ## Commands of one stage -/

/-- The two ways a command of one stage ends: away from that stage, or in what its pseudocode leaves (R215). -/
theorem exec_atStage (i : Instr) {s t : State} {k : BitVec 3} (hf : s.fault = false)
    (hbody : bodyOf i s = if s.stage ≠ k then .error .seq else .ok t) :
    (s.stage.toNat ≠ k.toNat → exec i s = .next (faulted s 2)) ∧
    (s.stage.toNat = k.toNat → exec i s = .next t.advance) := by
  have ha := acts_of_not_fault hf i
  refine ⟨fun h => ?_, fun h => ?_⟩
  · rw [if_pos (BitVec.toNat_ne.2 h)] at hbody
    exact exec_of_error ha hbody
  · rw [if_neg (not_not.2 (BitVec.eq_of_toNat_eq h))] at hbody
    exact exec_of_ok ha hbody

/-! ## A range written from index 0 on -/

theorem Memory.read_writeRange_of_lt (m : Memory) {vs : List Byte} {a : Nat} (h : a < vs.length) :
    (m.writeRange 0 vs).read a = vs.getD a 0 := by
  rw [Memory.read_writeRange, if_pos (by omega), Nat.sub_zero]

theorem Memory.read_writeRange_of_ge (m : Memory) {vs : List Byte} {a : Nat} (h : vs.length ≤ a) :
    (m.writeRange 0 vs).read a = m.read a := by
  rw [Memory.read_writeRange, if_neg (by omega)]

/-! ## The numbers of the version table that the painter rests on (R113) -/

theorem segmentDataBytes_le_maxSegLen {v : Nat} (h1 : 1 ≤ v) (h26 : v ≤ 26) :
    (info v).segmentDataBytes ≤ maxSegLen v := by
  interval_cases v <;> decide

theorem segmentDataBytes1_le_maxSegLen {v : Nat} (h : 0 < (info v).numSegments1) :
    (info v).segmentDataBytes1 ≤ maxSegLen v := by
  rw [maxSegLen, if_pos h]

theorem totalBytes_eq {v : Nat} (h1 : 1 ≤ v) (h26 : v ≤ 26) : totalBytes v = dataBytes v + ecBytes v * ns v := by
  interval_cases v <;> decide

/-! ## The interleaved stream (R165) -/

theorem segLen_le_maxSegLen {v s : Nat} (h1 : 1 ≤ v) (h26 : v ≤ 26) (hs : s < ns v) : segLen v s ≤ maxSegLen v := by
  unfold segLen
  split
  · exact segmentDataBytes_le_maxSegLen h1 h26
  · exact segmentDataBytes1_le_maxSegLen (by rw [ns] at hs; omega)

/-- Together the segments hold the data codewords (R114). -/
theorem sum_segLen (v : Nat) : ∑ s ∈ Finset.range (ns v), segLen v s = dataBytes v := by
  have h0 : ∀ s ∈ Finset.range (info v).numSegments, segLen v s = (info v).segmentDataBytes := fun s hs =>
    if_pos (Finset.mem_range.1 hs)
  have h1 : ∀ s ∈ Finset.range (info v).numSegments1,
      segLen v ((info v).numSegments + s) = (info v).segmentDataBytes1 := fun s _ => if_neg (by omega)
  rw [ns, Finset.sum_range_add, Finset.sum_congr rfl h0, Finset.sum_congr rfl h1]
  simp [dataBytes]

/-- Counted by columns or by segments, the data columns hold the same bytes. -/
theorem length_dataColumns {v : Nat} (h1 : 1 ≤ v) (h26 : v ≤ 26) (dcw : Memory) :
    (dataColumns v dcw).length = dataBytes v :=
  calc (dataColumns v dcw).length
      = ∑ i ∈ Finset.range (maxSegLen v), ((Finset.range (ns v)).filter fun s => i < segLen v s).card := by
        simp only [dataColumns, List.length_flatMap, List.length_map]
        rfl
    _ = ∑ s ∈ Finset.range (ns v), ((Finset.range (maxSegLen v)).filter fun i => i < segLen v s).card :=
        Finset.sum_card_bipartiteAbove_eq_sum_card_bipartiteBelow fun i s => i < segLen v s
    _ = ∑ s ∈ Finset.range (ns v), segLen v s := Finset.sum_congr rfl fun s hs => by
        have hle := segLen_le_maxSegLen h1 h26 (Finset.mem_range.1 hs)
        have : (Finset.range (maxSegLen v)).filter (fun i => i < segLen v s) = Finset.range (segLen v s) := by
          ext i
          simp only [Finset.mem_filter, Finset.mem_range]
          omega
        rw [this, Finset.card_range]
    _ = dataBytes v := sum_segLen v

theorem length_parityColumns (v : Nat) (ecw : Memory) : (parityColumns v ecw).length = ecBytes v * ns v := by
  simp [parityColumns, List.length_flatMap]

theorem length_interleave {v : Nat} (h1 : 1 ≤ v) (h26 : v ≤ 26) (dcw ecw : Memory) :
    (interleave v dcw ecw).length = totalBytes v := by
  rw [interleave, List.length_append, length_dataColumns h1 h26, length_parityColumns, totalBytes_eq h1 h26]

/-! ## ILV (R166) -/

/-- Settles O41: the stage check picks the case; what is written is read back by the law of a range, whose length is
that of the interleaved stream. -/
theorem ilvStoresTheInterleavedStream : Obligations.IlvStoresTheInterleavedStream := by
  unfold Obligations.IlvStoresTheInterleavedStream
  intro s hf
  obtain ⟨hseq, hok⟩ := exec_atStage .ilv (k := 3) hf rfl
  refine ⟨hseq, fun h h1 h26 => ?_⟩
  have hlen := length_interleave h1 h26 s.dcw s.ecw
  refine ⟨_, hok h, rfl, hlen, ?_, fun a hle => ?_⟩
  · rw [← hlen]
    exact Memory.readRange_writeRange ..
  · exact Memory.read_writeRange_of_ge _ (hlen.trans_le hle)

/-! ## PAINTS (R177) -/

/-- Rows of `n` entries each laid one after the other: entry `x` of row `y`. -/
theorem getElem?_flatMap_of_length {α β : Type} {f : α → List β} {n x : Nat} (hf : ∀ a, (f a).length = n)
    (hx : x < n) (l : List α) (y : Nat) : (l.flatMap f)[y * n + x]? = l[y]?.bind fun a => (f a)[x]? := by
  induction l generalizing y with
  | nil => simp
  | cons a l ih =>
    rw [List.flatMap_cons]
    cases y with
    | zero => rw [List.getElem?_append_left (by rw [hf]; omega)]; simp
    | succ y =>
      rw [List.getElem?_append_right (by rw [hf, Nat.succ_mul]; omega), hf,
        show (y + 1) * n + x - n = y * n + x by rw [Nat.succ_mul]; omega, ih]
      rfl

theorem length_structTiles (v : Nat) : (structTiles v).length = gridSide v * gridSide v := by
  simp [structTiles, List.length_flatMap]

theorem structTiles_getD {v x y : Nat} (hx : x < gridSide v) (hy : y < gridSide v) :
    (structTiles v).getD (tileIndex (gridSide v) x y) 0 = structTileAt v x y := by
  rw [structTiles, List.getD_eq_getElem?_getD, tileIndex, getElem?_flatMap_of_length (fun _ => by simp) hx]
  simp [hx, hy]

theorem tileIndex_lt {n x y : Nat} (hx : x < n) (hy : y < n) : tileIndex n x y < n * n :=
  calc y * n + x < y * n + n := Nat.add_lt_add_left hx _
    _ = (y + 1) * n := (Nat.succ_mul ..).symm
    _ ≤ n * n := Nat.mul_le_mul_right n hy

/-- Settles O43: the stage check picks the case; the side fits `SIZE`, and what is written is read back by the law of a
range, whose length is the number of tiles. -/
theorem paintsStoresTheStructuralGrid : Obligations.PaintsStoresTheStructuralGrid := by
  unfold Obligations.PaintsStoresTheStructuralGrid
  intro s hf
  obtain ⟨hseq, hok⟩ := exec_atStage .paints (k := 4) hf rfl
  refine ⟨hseq, fun h h1 h26 => ?_⟩
  have hn := gridSide_eq h1 h26
  have hlen := length_structTiles s.ver.toNat
  have hsize : (BitVec.ofNat 7 (gridSide s.version)).toNat = gridSide s.ver.toNat :=
    Nat.mod_eq_of_lt (by simp only [State.version_eq]; omega)
  refine ⟨_, hok h, rfl, hsize.trans hn, fun x y hx hy => ?_, fun a hle => ?_⟩
  · rw [State.advance_size, hsize] at hx hy ⊢
    exact (Memory.read_writeRange_of_lt _ ((tileIndex_lt hx hy).trans_eq hlen.symm)).trans (structTiles_getD hx hy)
  · rw [State.advance_size, hsize] at hle
    exact Memory.read_writeRange_of_ge _ (hlen.trans_le hle)

/-! ## The placement order (R179) -/

/-- A tile is free when its structural flag is clear (R178). -/
def isFree (v : Nat) (p : Nat × Nat) : Bool := !isStructural (structTileAt v p.1 p.2)

/-- The free tiles of column `x`. -/
def freeColumn (v x : Nat) : List (Nat × Nat) :=
  ((List.range (gridSide v)).map fun y => (x, y)).filter (isFree v)

/-- The free tiles of the columns below `k`. -/
def freeColumns (v k : Nat) : List (Nat × Nat) := (List.range k).flatMap (freeColumn v)

theorem freeColumns_succ (v k : Nat) : freeColumns v (k + 1) = freeColumns v k ++ freeColumn v k := by
  simp [freeColumns, List.range_succ]

/-- Upwards or downwards, a sweep meets every row. -/
theorem rows_perm (n : Nat) (upward : Bool) :
    ((List.range n).map fun t => if upward then n - 1 - t else t).Perm (List.range n) := by
  cases upward with
  | false => simp
  | true =>
    have h := (List.range' 0 n).reverse_perm
    rw [List.reverse_range'] at h
    simpa [List.range_eq_range'] using h

/-- A sweep visits the free tiles of its two columns. -/
theorem sweep_perm (v right : Nat) (upward : Bool) :
    (sweep v right upward).Perm (freeColumn v right ++ freeColumn v (right - 1)) := by
  have hcolumn (x : Nat) : freeColumn v x =
      (List.range (gridSide v)).flatMap fun y => [(x, y)].filter (isFree v) := by
    rw [freeColumn, List.map_eq_flatMap, List.filter_flatMap]
  have hrow (y : Nat) : pairRow v right y = [(right, y)].filter (isFree v) ++ [(right - 1, y)].filter (isFree v) := by
    rw [← List.filter_append]
    rfl
  calc sweep v right upward
      = ((List.range (gridSide v)).map fun t => if upward then gridSide v - 1 - t else t).flatMap
          (pairRow v right) := (List.flatMap_map ..).symm
    List.Perm _ ((List.range (gridSide v)).flatMap (pairRow v right)) := (rows_perm _ upward).flatMap_right _
    List.Perm _ (freeColumn v right ++ freeColumn v (right - 1)) := by
        rw [hcolumn, hcolumn, funext hrow]
        exact (List.flatMap_append_perm ..).symm

theorem orderFrom_of_pos (v fuel : Nat) {right : Nat} (h1 : 1 ≤ right) (h6 : right ≠ 6) (upward : Bool) :
    orderFrom v (fuel + 1) right upward = sweep v right upward ++ orderFrom v fuel (right - 2) !upward := by
  rw [orderFrom, if_neg (Nat.not_lt.2 h1), if_neg h6]

/-- The pair at the timing column is the pair at the column before it. -/
theorem orderFrom_timing (v fuel : Nat) (upward : Bool) : orderFrom v fuel 6 upward = orderFrom v fuel 5 upward := by
  cases fuel <;> rfl

/-- One more pair of columns. -/
theorem orderFrom_perm_step {v fuel k : Nat} {upward : Bool} (h6 : k + 1 ≠ 6)
    (h : (orderFrom v fuel (k - 1) !upward).Perm (freeColumns v k)) :
    (orderFrom v (fuel + 1) (k + 1) upward).Perm (freeColumns v (k + 2)) := by
  have hsweep := sweep_perm v (k + 1) upward
  rw [orderFrom_of_pos v fuel (Nat.le_add_left ..) h6, freeColumns_succ, freeColumns_succ, List.append_assoc]
  exact ((hsweep.trans List.perm_append_comm).append h).trans List.perm_append_comm

/-- Before the timing column the right of a pair is odd. -/
theorem orderFrom_head_perm (v : Nat) {k fuel : Nat} (hk : k ≤ 3) (hfuel : k ≤ fuel) (upward : Bool) :
    (orderFrom v fuel (2 * k - 1) upward).Perm (freeColumns v (2 * k)) := by
  induction k generalizing fuel upward with
  | zero => cases fuel <;> exact List.Perm.refl _
  | succ k ih =>
    obtain ⟨fuel, rfl⟩ := Nat.exists_eq_add_of_le' (Nat.le_of_add_left_le hfuel)
    exact orderFrom_perm_step (k := 2 * k) (by omega) (ih (by omega) (by omega) !upward)

/-- Past the timing column, which holds no free tile, it is even. -/
theorem orderFrom_tail_perm {v : Nat} (h6 : freeColumn v 6 = []) {k fuel : Nat} (hk : 3 ≤ k) (hfuel : k ≤ fuel)
    (upward : Bool) : (orderFrom v fuel (2 * k) upward).Perm (freeColumns v (2 * k + 1)) := by
  induction k, hk using Nat.le_induction generalizing fuel upward with
  | base =>
    rw [orderFrom_timing, freeColumns_succ, h6, List.append_nil]
    exact orderFrom_head_perm v le_rfl hfuel upward
  | succ k hk ih =>
    obtain ⟨fuel, rfl⟩ := Nat.exists_eq_add_of_le' (Nat.le_of_add_left_le hfuel)
    exact orderFrom_perm_step (k := 2 * k + 1) (by omega) (ih (by omega) !upward)

section
variable {v : Nat} (h1 : 1 ≤ v) (h26 : v ≤ 26)
include h1 h26

theorem freeColumn_timing : freeColumn v 6 = [] := by
  have hn := gridSide_eq h1 h26
  refine List.filter_eq_nil_iff.2 fun p hp => ?_
  obtain ⟨y, hy, rfl⟩ := List.mem_map.1 hp
  rw [isFree, isStructural_structTileAt h1 h26 (by omega) (List.mem_range.1 hy)]
  simp [structFlag]

/-- The placement order lists the free tiles of every column. -/
theorem order_perm : (order v).Perm (freeColumns v (gridSide v)) := by
  obtain ⟨k, hk⟩ : ∃ k, gridSide v = 2 * k + 1 := ⟨8 + 2 * v, by rw [gridSide_eq h1 h26]; omega⟩
  have hn := gridSide_eq h1 h26
  have h := orderFrom_tail_perm (freeColumn_timing h1 h26) (k := k) (fuel := gridSide v) (by omega) (by omega) true
  rwa [← hk, show 2 * k = gridSide v - 1 by omega] at h

end

theorem freeColumns_eq_filter (v k : Nat) :
    freeColumns v k =
      (List.range k ×ˢ List.range (gridSide v)).filter (isFree v) :=
  (List.filter_flatMap ..).symm

theorem mem_freeColumns {v k x y : Nat} :
    (x, y) ∈ freeColumns v k ↔ x < k ∧ y < gridSide v ∧ isStructural (structTileAt v x y) = false := by
  rw [freeColumns_eq_filter]
  simp [and_assoc, isFree]

theorem nodup_freeColumns (v k : Nat) : (freeColumns v k).Nodup := by
  rw [freeColumns_eq_filter]
  exact (List.nodup_range.product List.nodup_range).filter _

/-! ## PLACE (R180, R181) -/

/-- Among writes to different indices each one stands. -/
theorem Memory.read_writeMany_of_mem {m : Memory} {ws : List Host.Cell} (h : m.wf = true)
    (hnodup : (ws.map Prod.fst).Nodup) {w : Host.Cell} (hw : w ∈ ws) : (m.writeMany ws).read w.1 = w.2 := by
  induction ws generalizing m with
  | nil => simp at hw
  | cons c ws ih =>
    obtain ⟨hc, hnodup⟩ := List.nodup_cons.1 hnodup
    rw [Memory.writeMany_cons]
    obtain rfl | hw := List.mem_cons.1 hw
    · have hne : ∀ d ∈ ws, d.1 ≠ w.1 := fun d hd heq => hc (List.mem_map.2 ⟨d, hd, heq⟩)
      rw [Memory.read_writeMany_of_not_mem (Memory.wf_write _ _ h) hne, Memory.read_write _ _ _ h, if_pos rfl]
    · exact ih (Memory.wf_write _ _ h) hnodup hw

theorem tileIndex_inj {n x y x' y' : Nat} (hx : x < n) (hx' : x' < n) (h : tileIndex n x y = tileIndex n x' y') :
    x = x' ∧ y = y' := by
  obtain rfl : x = x' := by simpa [tileIndex, Nat.mod_eq_of_lt hx, Nat.mod_eq_of_lt hx'] using congrArg (· % n) h
  exact ⟨rfl, Nat.eq_of_mul_eq_mul_right (Nat.zero_lt_of_lt hx) (Nat.add_right_cancel h)⟩

theorem placeWrites_getElem?_eq_some {v n k : Nat} {icw : Memory} {w : Host.Cell} :
    (placeWrites v n icw)[k]? = some w ↔
      k < 8 * totalBytes v ∧ ∃ p, (order v)[k]? = some p ∧ w = placeCell n p (streamBit icw k) := by
  rw [placeWrites, List.getElem?_zipWith_eq_some]
  constructor
  · rintro ⟨p, b, hp, hb, rfl⟩
    obtain ⟨hk, rfl⟩ := List.getElem?_eq_some_iff.1 hb
    exact ⟨by simpa [streamBits] using hk, p, hp, by simp [streamBits]⟩
  · rintro ⟨hk, p, hp, rfl⟩
    exact ⟨p, _, hp, by simp [streamBits, hk], rfl⟩

theorem placeWrites_indices_sublist (n : Nat) (ps : List (Nat × Nat)) (bs : List Bool) :
    ((List.zipWith (placeCell n) ps bs).map Prod.fst).Sublist (ps.map fun p => tileIndex n p.1 p.2) := by
  induction ps generalizing bs with
  | nil => simp
  | cons p ps ih =>
    cases bs with
    | nil => simp
    | cons b bs => exact (ih bs).cons_cons _

/-- A placed bit as the rule writes it. -/
theorem dataTile_mask3 (b : Bool) (x y : Nat) :
    dataTile (b ^^ mask3 x y) = BitVec.ofNat 8 (bit b ^^^ if (x + y) % 3 = 0 then 1 else 0) := by
  by_cases h : (x + y) % 3 = 0 <;> cases b <;> simp [mask3, h, dataTile, bit]

section
variable {v : Nat} (h1 : 1 ≤ v) (h26 : v ≤ 26)
include h1 h26

theorem mem_order {x y : Nat} :
    (x, y) ∈ order v ↔ x < gridSide v ∧ y < gridSide v ∧ isStructural (structTileAt v x y) = false :=
  (order_perm h1 h26).mem_iff.trans mem_freeColumns

theorem nodup_order : (order v).Nodup := (order_perm h1 h26).nodup_iff.2 (nodup_freeColumns ..)

/-- No two bits are placed on the same tile. -/
theorem nodup_placeWrites_indices (icw : Memory) : ((placeWrites v (gridSide v) icw).map Prod.fst).Nodup := by
  refine (List.Nodup.map_on ?_ (nodup_order h1 h26)).sublist (placeWrites_indices_sublist ..)
  rintro ⟨x, y⟩ hp ⟨x', y'⟩ hq h
  obtain ⟨hx, -⟩ := (mem_order h1 h26).1 hp
  obtain ⟨hx', -⟩ := (mem_order h1 h26).1 hq
  obtain ⟨rfl, rfl⟩ := tileIndex_inj hx hx' h
  rfl

end

/-- Settles O47: the stage check picks the case; the order has no tile twice, so each bit written stands, and the writes
are those of the bits of the stream. -/
theorem placeWritesTheMaskedBits : Obligations.PlaceWritesTheMaskedBits := by
  unfold Obligations.PlaceWritesTheMaskedBits
  intro s hf
  obtain ⟨hseq, hok⟩ := exec_atStage .place (k := 5) hf rfl
  refine ⟨hseq, fun h h1 h26 hsize hwf => ?_⟩
  refine ⟨_, hok h, rfl, fun k x y hk hp => ?_, fun a hne => ?_⟩
  · have hw := List.mem_of_getElem?
      (placeWrites_getElem?_eq_some (n := s.size.toNat) (icw := s.icw).2 ⟨hk, _, hp, rfl⟩)
    have hnodup := nodup_placeWrites_indices h1 h26 s.icw
    rw [← hsize] at hnodup
    exact (Memory.read_writeMany_of_mem hwf hnodup hw).trans (dataTile_mask3 ..)
  · refine Memory.read_writeMany_of_not_mem hwf fun w hw heq => ?_
    obtain ⟨k, hk⟩ := List.mem_iff_getElem?.1 hw
    obtain ⟨hlt, ⟨x, y⟩, hp, rfl⟩ := placeWrites_getElem?_eq_some.1 hk
    exact hne k x y hlt hp heq.symm

/-! ## The bands of a side -/

/-- What the structural flag asks of one coordinate of a tile: whether it is on a timing line, among the first 6 or 9 or
the last 8 or 9, beside a version block, and near an alignment coordinate. -/
structure Band where
  timing : Bool := false
  first6 : Bool := false
  first9 : Bool := false
  last8 : Bool := false
  last9 : Bool := false
  version : Bool := false
  near : Bool := false
deriving DecidableEq

/-- The band of a coordinate. -/
def band (v x : Nat) : Band where
  timing := x == 6
  first6 := Nat.ble x 5
  first9 := Nat.ble x 8
  last8 := Nat.ble (gridSide v - 8) x
  last9 := Nat.ble (gridSide v - 9) x
  version := Nat.ble (gridSide v - 11) x && Nat.ble x (gridSide v - 9)
  near := nearCoord v x

/-- The structural flag of a tile from the bands of its coordinates; `blocks` says whether the grid has version
blocks. -/
def Band.flag (blocks : Bool) (a b : Band) : Bool :=
  (a.timing || b.timing) || (a.first9 && (b.first9 || b.last8)) || (a.last8 && b.first9)
    || (a.near && b.near && !(a.first9 && b.last9) && !(a.last9 && b.first9))
    || (blocks && (a.version && b.first6 || b.version && a.first6))

theorem structFlag_eq_flag (v x y : Nat) : structFlag v x y = Band.flag (Nat.ble 7 v) (band v x) (band v y) := by
  rw [structFlag, Band.flag, nearAlign]
  rfl

/-- The bands of the first 9 coordinates, each with its length. -/
def headRuns (near : Bool) : List (Band × Nat) :=
  [({ first6 := true, first9 := true }, 4), ({ first6 := true, first9 := true, near }, 2),
   ({ timing := true, first9 := true, near }, 1), ({ first9 := true, near }, 2)]

/-- The bands of the last 11 coordinates. -/
def tailRuns (near : Bool) : List (Band × Nat) :=
  [({ version := true }, 2), ({ last9 := true, version := true, near }, 1),
   ({ last8 := true, last9 := true, near }, 4), ({ last8 := true, last9 := true }, 4)]

/-- The bands between them, where each inner alignment coordinate takes 5. -/
def middleRuns (v : Nat) : List (Band × Nat) :=
  [({ near := true }, 5 * ((alignCoords v).length - 2)), ({}, gridSide v - 20 - 5 * ((alignCoords v).length - 2))]

/-- The bands of a side; version 1 has no alignment coordinate. -/
def bandRuns (v : Nat) : List (Band × Nat) :=
  headRuns (Nat.ble 2 v) ++ middleRuns v ++ tailRuns (Nat.ble 2 v)

/-- Runs written out. -/
def unrolled {α : Type} (runs : List (α × Nat)) : List α := runs.flatMap fun r => List.replicate r.2 r.1

theorem map_sum_unrolled {α : Type} (f : α → Nat) (runs : List (α × Nat)) :
    ((unrolled runs).map f).sum = (runs.map fun r => r.2 * f r.1).sum := by
  induction runs with
  | nil => rfl
  | cons r runs ih =>
    rw [unrolled, List.flatMap_cons, List.map_append, List.sum_append, List.map_replicate,
      List.sum_replicate, smul_eq_mul]
    exact congrArg (_ + ·) ih

theorem band_head {v : Nat} (h1 : 1 ≤ v) (h26 : v ≤ 26) :
    (List.range 9).map (band v) = unrolled (headRuns (Nat.ble 2 v)) := by
  interval_cases v <;> decide +kernel

theorem band_tail {v : Nat} (h1 : 1 ≤ v) (h26 : v ≤ 26) :
    (List.range 11).map (fun j => band v (gridSide v - 11 + j)) = unrolled (tailRuns (Nat.ble 2 v)) := by
  interval_cases v <;> decide +kernel

/-- Which coordinates of the middle are near an alignment coordinate. -/
def middleNear (v : Nat) : List Bool := (List.range (gridSide v - 20)).map fun i => nearCoord v (9 + i)

theorem count_middleNear {v : Nat} (h1 : 1 ≤ v) (h26 : v ≤ 26) :
    (middleNear v).count true = 5 * ((alignCoords v).length - 2) := by
  interval_cases v <;> decide +kernel

theorem perm_replicate_count (l : List Bool) :
    l.Perm (List.replicate (l.count true) true ++ List.replicate (l.count false) false) :=
  (List.perm_replicate_append_replicate (by decide)).2 ⟨rfl, rfl, fun b _ => by cases b <;> simp⟩

theorem band_middle {v x : Nat} (h1 : 9 ≤ x) (h2 : x < gridSide v - 11) : band v x = { near := nearCoord v x } := by
  have hble {a b : Nat} (h : b < a) : Nat.ble a b = false :=
    Bool.eq_false_iff.2 fun hab => Nat.not_lt.2 (Nat.le_of_ble_eq_true hab) h
  have h6 : (x == 6) = false := beq_eq_false_iff_ne.2 (by omega)
  rw [band, h6, hble (by omega), hble (by omega), hble (by omega), hble (by omega), hble (by omega)]
  rfl

theorem band_middle_perm {v : Nat} (h1 : 1 ≤ v) (h26 : v ≤ 26) :
    ((List.range (gridSide v - 20)).map fun i => band v (9 + i)).Perm (unrolled (middleRuns v)) := by
  have hband : (List.range (gridSide v - 20)).map (fun i => band v (9 + i)) =
      (middleNear v).map fun near => ({ near } : Band) := by
    rw [middleNear, List.map_map]
    exact List.map_congr_left fun i hi => band_middle (by omega) (by rw [List.mem_range] at hi; omega)
  have hnear := count_middleNear h1 h26
  have hplain : (middleNear v).count false = gridSide v - 20 - 5 * ((alignCoords v).length - 2) := by
    have hsum := List.count_true_add_count_false (middleNear v)
    have hlen : (middleNear v).length = gridSide v - 20 := by simp [middleNear]
    omega
  have hperm := (perm_replicate_count (middleNear v)).map fun near => ({ near } : Band)
  rw [hnear, hplain, List.map_append, List.map_replicate, List.map_replicate] at hperm
  rw [hband]
  simpa [middleRuns, unrolled] using hperm

theorem bands_perm {v : Nat} (h1 : 1 ≤ v) (h26 : v ≤ 26) :
    ((List.range (gridSide v)).map (band v)).Perm (unrolled (bandRuns v)) := by
  have hn : gridSide v = 9 + (gridSide v - 20) + 11 := by rw [gridSide_eq h1 h26]; omega
  have hrange : List.range (gridSide v) = List.range 9 ++ (List.range (gridSide v - 20)).map (9 + ·) ++
      (List.range 11).map (gridSide v - 11 + ·) := by
    conv_lhs => rw [hn, List.range_add, List.range_add]
    rw [show gridSide v - 11 = 9 + (gridSide v - 20) by omega]
  rw [hrange, List.map_append, List.map_append, List.map_map, List.map_map, bandRuns, unrolled, List.flatMap_append,
    List.flatMap_append]
  exact ((List.Perm.of_eq (band_head h1 h26)).append (band_middle_perm h1 h26)).append (.of_eq (band_tail h1 h26))

/-! ## The capacity identity (R178) -/

/-- The number of free tiles of a grid with these runs of bands. -/
def freePairs (blocks : Bool) (runs : List (Band × Nat)) : Nat :=
  (runs.map fun b => b.2 * (runs.map fun a => if !Band.flag blocks a.1 b.1 then a.2 else 0).sum).sum

theorem freePairs_bandRuns {v : Nat} (h1 : 1 ≤ v) (h26 : v ≤ 26) :
    freePairs (Nat.ble 7 v) (bandRuns v) = 8 * totalBytes v + remainderTiles v := by
  interval_cases v <;> decide +kernel

theorem countP_unrolled {α : Type} (p : α → Bool) (runs : List (α × Nat)) :
    (unrolled runs).countP p = (runs.map fun r => if p r.1 then r.2 else 0).sum := by
  simp [unrolled, List.countP_flatMap, List.countP_replicate, Function.comp_def]

theorem freeTiles_eq_freePairs {v : Nat} (h1 : 1 ≤ v) (h26 : v ≤ 26) :
    freeTiles v = freePairs (Nat.ble 7 v) (bandRuns v) := by
  have hperm := bands_perm h1 h26
  have hrow : ∀ y ∈ List.range (gridSide v),
      ((List.range (gridSide v)).map fun x => structTileAt v x y).countP (fun t => !t.getLsbD 1) =
        (unrolled (bandRuns v)).countP fun a => !Band.flag (Nat.ble 7 v) a (band v y) := by
    intro y hy
    rw [← hperm.countP_eq, List.countP_map, List.countP_map]
    refine List.countP_congr fun x hx => ?_
    have hflag := isStructural_structTileAt h1 h26 (List.mem_range.1 hx) (List.mem_range.1 hy)
    rw [structFlag_eq_flag] at hflag
    simp only [Function.comp_apply, ← hflag]
    rfl
  calc freeTiles v
      = ((List.range (gridSide v)).map fun y =>
          ((List.range (gridSide v)).map fun x => structTileAt v x y).countP fun t => !t.getLsbD 1).sum :=
        List.countP_flatMap
    _ = (((List.range (gridSide v)).map (band v)).map fun b =>
          (unrolled (bandRuns v)).countP fun a => !Band.flag (Nat.ble 7 v) a b).sum := by
        rw [List.map_congr_left hrow, List.map_map]
        rfl
    _ = ((unrolled (bandRuns v)).map fun b =>
          (unrolled (bandRuns v)).countP fun a => !Band.flag (Nat.ble 7 v) a b).sum := (hperm.map _).sum_eq
    _ = freePairs (Nat.ble 7 v) (bandRuns v) := by
        simp only [map_sum_unrolled, countP_unrolled]
        rfl

theorem product_swap_perm {α β : Type} (l : List α) (m : List β) : ((l ×ˢ m).map Prod.swap).Perm (m ×ˢ l) := by
  have h := Multiset.map_swap_product (l : Multiset α) (m : Multiset β)
  rwa [Multiset.coe_product, Multiset.coe_product, Multiset.map_coe, Multiset.coe_eq_coe] at h

/-- Counted by rows or by columns, the free tiles are as many. -/
theorem length_freeColumns (v : Nat) : (freeColumns v (gridSide v)).length = freeTiles v := by
  have htiles : structTiles v =
      ((List.range (gridSide v) ×ˢ List.range (gridSide v)).map Prod.swap).map fun p => structTileAt v p.1 p.2 := by
    simp only [structTiles, SProd.sprod, List.product, List.map_flatMap, List.map_map]
    rfl
  rw [freeColumns_eq_filter, ← List.countP_eq_length_filter, freeTiles, htiles, List.countP_map,
    (product_swap_perm ..).countP_eq]
  rfl

/-- Settles O45: the free tiles are counted band by band, and the placement order lists them column by column. -/
theorem capacityIdentity : Obligations.CapacityIdentity := by
  unfold Obligations.CapacityIdentity
  intro v h1 h26
  refine ⟨(freeTiles_eq_freePairs h1 h26).trans (freePairs_bandRuns h1 h26), ?_⟩
  rw [(order_perm h1 h26).length_eq, length_freeColumns]

end Sys2Proof.Machine
end

