-- ==== Sys2Proof/Proofs/MaskingFormat.lean ====
section
/-! Proofs of 46_masking_format.md: the thirty format tiles are distinct (R194), so each write of `FMT` stands. -/

namespace Sys2Proof.Machine

/-! ## The format tiles (R194) -/

theorem firstCopy_inj {i j : Nat} (hi : i < 15) (hj : j < 15) (h : firstCopy i = firstCopy j) : i = j := by
  unfold firstCopy at h
  split_ifs at h <;> simp only [Prod.mk.injEq] at h <;> omega

theorem secondCopy_inj {n i j : Nat} (hn : 21 ≤ n) (hi : i < 15) (hj : j < 15)
    (h : secondCopy n i = secondCopy n j) : i = j := by
  unfold secondCopy at h
  split_ifs at h <;> simp only [Prod.mk.injEq] at h <;> omega

/-- The first copy lies in the corner of the top-left finder. -/
theorem firstCopy_le (i : Nat) : (firstCopy i).1 ≤ 8 ∧ (firstCopy i).2 ≤ 8 := by
  unfold firstCopy
  split_ifs <;> dsimp only <;> omega

/-- The second copy lies outside that corner. -/
theorem lt_secondCopy {n : Nat} (hn : 21 ≤ n) (i : Nat) : 8 < (secondCopy n i).1 ∨ 8 < (secondCopy n i).2 := by
  unfold secondCopy
  split_ifs <;> dsimp only <;> omega

theorem firstCopy_ne_secondCopy {n : Nat} (hn : 21 ≤ n) (i j : Nat) : firstCopy i ≠ secondCopy n j := by
  intro h
  obtain ⟨hx, hy⟩ := firstCopy_le i
  rw [h] at hx hy
  have := lt_secondCopy hn j
  omega

/-- The thirty format tiles are distinct. -/
theorem nodup_formatTiles {n : Nat} (hn : 21 ≤ n) : (formatTiles n).Nodup := by
  refine List.nodup_flatMap.2 ⟨fun i _ => ?_, List.nodup_range.imp_of_mem fun {i j} hi hj hne => ?_⟩
  · simp [firstCopy_ne_secondCopy hn]
  · rw [List.mem_range] at hi hj
    have hfirst : firstCopy j ≠ firstCopy i := fun h => hne (firstCopy_inj hj hi h).symm
    have hsecond : secondCopy n j ≠ secondCopy n i := fun h => hne (secondCopy_inj hn hj hi h).symm
    simp [hfirst, hsecond, firstCopy_ne_secondCopy hn, (firstCopy_ne_secondCopy hn i j).symm]

/-! ## FMT (R195) -/

theorem mem_formatWrites {n : Nat} {w : Host.Cell} :
    w ∈ formatWrites n ↔ ∃ i < 15, ∃ p, (p = firstCopy i ∨ p = secondCopy n i) ∧
      w = (tileIndex n p.1 p.2, structTile (formatBits.getLsbD i)) := by
  simp [formatWrites]

theorem formatWrites_indices (n : Nat) :
    (formatWrites n).map Prod.fst = (formatTiles n).map fun p => tileIndex n p.1 p.2 := by
  simp [formatWrites, formatTiles, List.map_flatMap]

/-- No two bits are written to the same tile. -/
theorem nodup_formatWrites_indices {n : Nat} (hn : 21 ≤ n) : ((formatWrites n).map Prod.fst).Nodup := by
  rw [formatWrites_indices]
  refine List.Nodup.map_on ?_ (nodup_formatTiles hn)
  rintro ⟨x, y⟩ hp ⟨x', y'⟩ hq h
  have hx := (mem_formatTiles hn).1 hp
  have hx' := (mem_formatTiles hn).1 hq
  obtain ⟨rfl, rfl⟩ := tileIndex_inj (by omega) (by omega) h
  rfl

/-- A tile that carries bit `i` reads as the rule writes it, with `F` as the number of R193. -/
theorem read_writeMany_formatWrites {m : Memory} {n i : Nat} {p : Nat × Nat} (hwf : m.wf = true) (hn : 21 ≤ n)
    (hi : i < 15) (hp : p = firstCopy i ∨ p = secondCopy n i) :
    (m.writeMany (formatWrites n)).read (tileIndex n p.1 p.2) = if (0x5B4B : Nat).testBit i then 3 else 2 := by
  have hbits : formatBits = 0x5B4B := by decide
  rw [Memory.read_writeMany_of_mem hwf (nodup_formatWrites_indices hn) (mem_formatWrites.2 ⟨i, hi, p, hp, rfl⟩),
    hbits]
  rfl

/-- The completed state is fixed but for the grid. Stated for any grid `g`: with the writes of `FMT` in its place, `rfl`
would run them. -/
theorem State.complete_advance_withGrid (s : State) (g : Memory) :
    let t := ({ s with grid := g } : State).complete.advance
    t.grid = g ∧ t = { s with grid := t.grid, stage := 7, valid := true, pc := s.pc + 1 } := ⟨rfl, rfl⟩

/-- Settles O49: the stage check picks the case; no tile is written twice, so each bit written stands, and a tile of
neither copy is not written. -/
theorem fmtWritesTheFormatTiles : Obligations.FmtWritesTheFormatTiles := by
  unfold Obligations.FmtWritesTheFormatTiles
  intro s hf
  obtain ⟨hseq, hok⟩ := exec_atStage .fmt (k := 6) hf rfl
  refine ⟨hseq, fun h hn hwf => ?_⟩
  obtain ⟨hgrid, hkept⟩ := State.complete_advance_withGrid s (s.grid.writeMany (formatWrites s.size.toNat))
  refine ⟨_, hok h, hkept, fun i hi => ?_, fun a hne => ?_⟩
  · rw [hgrid]
    exact ⟨read_writeMany_formatWrites hwf hn hi (.inl rfl), read_writeMany_formatWrites hwf hn hi (.inr rfl)⟩
  · rw [hgrid]
    refine Memory.read_writeMany_of_not_mem hwf fun w hw heq => ?_
    obtain ⟨i, hi, p, rfl | rfl, rfl⟩ := mem_formatWrites.1 hw
    · exact (hne i hi).1 heq.symm
    · exact (hne i hi).2 heq.symm

end Sys2Proof.Machine
end

