-- ==== Sys2Proof/Proofs/Exceptions.lean ====
section
/-! Proofs of 60_exceptions.md: the faulted block, the cause of every fault and what a fault leaves. Each body's answer
is set against the table of causes once (`bodyOf_raises`), which gives the two ways a command ends (`exec_cases`); when
a fault is raised and what it changes both follow. -/

namespace Sys2Proof.Machine

open Claims

/-! ## The faulted block (R214) -/

theorem step_of_decode_ok {s : State} {w : Word} {i : Instr} (hw : s.fetch = some w) (hd : decode w = .ok i) :
    step s = exec i s := by
  simp only [step, hw, hd]

theorem exec_of_skipped {i : Instr} {s : State} (hf : s.fault = true) (hi : actsFaulted i = false) :
    exec i s = .next s.advance := by
  simp [exec_eq, hf, hi]

theorem actsFaulted_iff (i : Instr) : actsFaulted i = true ↔ i = .reset ∨ i = .rdstat := by
  cases i <;> simp [actsFaulted]

/-- A command without operands has one word, its opcode followed by zeros. -/
theorem word_of_decode_ok_z {w : Word} {i : Instr} (hd : decode w = .ok i) (hz : i.format = .z) :
    w = packWord i.opcode 0 0 :=
  calc w = w &&& Format.mask .z := BitVec.and_allOnes.symm
    _ = packWord i.opcode 0 0 := (and_mask_eq_iff .z i.opcode w).2 (hz ▸ fields_of_decode_ok hd)

theorem word_of_actsFaulted {w : Word} {i : Instr} (hd : decode w = .ok i) (hi : actsFaulted i = true) :
    w = 0x01000000 ∨ w = 0x04000000 := by
  obtain rfl | rfl := (actsFaulted_iff i).1 hi
  · exact .inl (word_of_decode_ok_z hd rfl)
  · exact .inr (word_of_decode_ok_z hd rfl)

/-- Settles O9: the two words decode to the two commands that act; a word that decodes to another command, or to none,
is skipped. -/
theorem faultedBlockObeysOnlyResetAndRdstat : Obligations.FaultedBlockObeysOnlyResetAndRdstat := by
  unfold Obligations.FaultedBlockObeysOnlyResetAndRdstat
  intro s w hf hw
  refine ⟨?_, ?_, fun hreset hrdstat => ?_⟩
  · rintro rfl
    exact ⟨step_of_decode_ok hw rfl, s.clear.advance, exec_reset s, rfl, rfl⟩
  · rintro rfl
    exact (step_of_decode_ok hw rfl).trans (exec_of_emit (acts_rdstat s) rfl)
  · cases hd : decode w with
    | ok i =>
      have hi : actsFaulted i = false :=
        Bool.eq_false_iff.2 fun h => (word_of_actsFaulted hd h).elim hreset hrdstat
      exact (step_of_decode_ok hw hd).trans (exec_of_skipped hf hi)
    | error e => exact (step_of_decode_error hw hd).trans (runGuarded_of_fault hf)

/-! ## A body's answer against the table of causes (R213) -/

/-- The answer of a body agrees with the entry of the table: a fault of the cause named, or, where none is named, an
unfaulted state. -/
inductive Raises : Except Cause State → Option (BitVec 4) → Prop
  | ok {t : State} (hf : t.fault = false) : Raises (.ok t) none
  | error (e : Cause) : Raises (.error e) (some e.code)

theorem Raises.of_ok {t : State} {c : Option (BitVec 4)} (h : Raises (.ok t) c) : c = none ∧ t.fault = false := by
  cases h with
  | ok hf => exact ⟨rfl, hf⟩

theorem Raises.of_error {e : Cause} {c : Option (BitVec 4)} (h : Raises (.error e) c) : c = some e.code := by
  cases h with
  | error => rfl

/-- A check of the pseudocode and the row of the table for it. -/
theorem raises_check {p q : Prop} [Decidable p] [Decidable q] {e : Cause} {r : Except Cause State}
    {c : Option (BitVec 4)} (hpq : p ↔ q) (h : Raises r c) :
    Raises (if p then .error e else r) (if q then some e.code else c) := by
  by_cases hp : p
  · rw [if_pos hp, if_pos (hpq.1 hp)]
    exact .error e
  · rwa [if_neg hp, if_neg (mt hpq.2 hp)]

/-- A guarded read-out: too early, then an index outside what is held (R215). -/
theorem raises_guardedRead {s : State} {early outside early' outside' : Prop} [Decidable early] [Decidable outside]
    [Decidable early'] [Decidable outside'] {v : Byte} (hf : s.fault = false) (he : early ↔ early')
    (ho : outside ↔ outside') :
    Raises (s.emitRead (if early then .error .seq else if outside then .error .bounds else .ok v))
      (if early' then some 2 else if outside' then some 4 else none) := by
  rw [apply_ite s.emitRead, apply_ite s.emitRead]
  exact raises_check he (raises_check ho (.ok hf))

/-- A command of one stage: away from that stage it comes out of sequence. -/
theorem raises_atStage {s t : State} {k : BitVec 3} (ht : t.fault = false) :
    Raises (if s.stage ≠ k then .error .seq else .ok t) (if s.stage.toNat ≠ k.toNat then some 2 else none) :=
  raises_check BitVec.toNat_ne (.ok ht)

theorem foldl_eccRound_fault (ks : List Nat) (s : State) : (ks.foldl eccRound s).fault = s.fault := by
  induction ks generalizing s with
  | nil => rfl
  | cons k ks ih => exact ih (eccRound s k)

theorem bodyPushb_raises {s : State} (hf : s.fault = false) (v : Byte) :
    Raises (bodyPushb v s) (causeOf (.pushb v) s) := by
  refine raises_check BitVec.toNat_ne ?_
  split
  · exact .ok hf
  · exact .ok hf

theorem bodyPushd_raises {s : State} (hf : s.fault = false) (v : Byte) :
    Raises (bodyPushd v s) (causeOf (.pushd v) s) := by
  refine raises_check BitVec.toNat_ne ?_
  dsimp only
  split
  · exact .ok hf
  · exact .ok hf

/-- The search for a logarithm fails at zero alone. -/
theorem bodyGflog_raises {s : State} (hf : s.fault = false) (k : Byte) :
    Raises (bodyGflog k s) (causeOf (.gflog k) s) := by
  by_cases hk : k = 0
  · rw [hk, bodyGflog_of_none gfLog_zero s]
    exact .error .gfzero
  · obtain ⟨i, hi⟩ := exists_gfLog_eq_some hk
    have hnone : causeOf (.gflog k) s = none := if_neg (mt BitVec.toNat_eq.2 hk)
    rw [bodyGflog_of_some hi s, hnone]
    exact .ok hf

theorem bodyVinfo_raises {s : State} (hf : s.fault = false) (v f : Byte) :
    Raises (bodyVinfo v f s) (causeOf (.vinfo v f) s) := by
  refine raises_check Iff.rfl ?_
  cases vi v.toNat with
  | none => exact .ok hf
  | some r => exact .ok hf

/-! ## GENERATE raises no fault (R200, R215) -/

/-- The answer is an unfaulted state at stage `k`. -/
def EndsAt (r : Except Cause State) (k : BitVec 3) : Prop := ∃ t, r = .ok t ∧ t.stage = k ∧ t.fault = false

theorem EndsAt.raises {r : Except Cause State} {k : BitVec 3} (h : EndsAt r k) : Raises r none := by
  obtain ⟨t, rfl, -, hf⟩ := h
  exact .ok hf

theorem EndsAt.bind {r : Except Cause State} {b : Body} {k m : BitVec 3} (hr : EndsAt r k)
    (hb : ∀ t, t.stage = k → t.fault = false → EndsAt (b t) m) : EndsAt (r >>= b) m := by
  obtain ⟨t, rfl, hstage, hf⟩ := hr
  exact hb t hstage hf

/-- A command of one stage, given at that stage. -/
theorem endsAt_atStage {s t : State} {k m : BitVec 3} (hk : s.stage = k) (hm : t.stage = m) (hf : t.fault = false) :
    EndsAt (if s.stage ≠ k then .error .seq else .ok t) m :=
  ⟨t, if_neg (not_not.2 hk), hm, hf⟩

/-- From stage 1, with nothing loaded and a payload that fits, each part leaves the stage the next one asks for. -/
theorem encodeBody_endsAt {s : State} (hstage : s.stage = 1) (hdlen : s.dlen = 0) (hf : s.fault = false)
    (hfit : s.plen.toNat ≤ inputBytes s.version) : EndsAt (encodeBody s) 7 := by
  have hframe : EndsAt (bodyFrame s) 2 :=
    ⟨_, bodyFrame_of_fits (congrArg BitVec.toNat hstage) (congrArg BitVec.toNat hdlen) hfit, rfl, hf⟩
  refine hframe.bind fun s hs hf => ?_
  have hecc : EndsAt (bodyEcc s) 3 := endsAt_atStage hs rfl ((foldl_eccRound_fault ..).trans hf)
  refine hecc.bind fun s hs hf => ?_
  have hilv : EndsAt (bodyIlv s) 4 := endsAt_atStage hs rfl hf
  refine hilv.bind fun s hs hf => ?_
  have hpaints : EndsAt (bodyPaints s) 5 := endsAt_atStage hs rfl hf
  refine hpaints.bind fun s hs hf => ?_
  have hplace : EndsAt (bodyPlace s) 6 := endsAt_atStage hs rfl hf
  exact hplace.bind fun s hs hf => endsAt_atStage hs rfl hf

theorem bodySelect_of_some {s : State} {v : Nat} (h : selectVersion s.plen.toNat = some v) :
    bodySelect s = .ok (s.restart.choose v) := by
  simp only [bodySelect, h]

theorem bodySelect_of_none {s : State} (h : selectVersion s.plen.toNat = none) :
    bodySelect s = .ok s.restart.capacityExceeded := by
  simp only [bodySelect, h]

theorem State.choose_version (s : State) {v : Nat} (h26 : v ≤ 26) : (s.choose v).version = v :=
  Nat.mod_eq_of_lt (h26.trans_lt (by decide))

theorem bodySelect_raises {s : State} (hf : s.fault = false) : Raises (bodySelect s) none := by
  cases h : selectVersion s.plen.toNat with
  | some v =>
    rw [bodySelect_of_some h]
    exact .ok hf
  | none =>
    rw [bodySelect_of_none h]
    exact .ok hf

/-- The version selected holds the payload, so the check of `FRAME` passes too. -/
theorem bodyGenerate_raises {s : State} (hf : s.fault = false) : Raises (bodyGenerate s) none := by
  rw [bodyGenerate]
  cases h : selectVersion s.plen.toNat with
  | some v =>
    obtain ⟨-, h26, hfit⟩ := selectVersion_some h
    rw [← State.choose_version s.restart h26] at hfit
    rw [bodySelect_of_some h]
    exact (encodeBody_endsAt (s := s.restart.choose v) rfl rfl hf hfit).raises
  | none =>
    rw [bodySelect_of_none h]
    exact .ok hf

/-! ## Every command against the table (R213, R215) -/

theorem bodyOf_raises (i : Instr) {s : State} (hf : s.fault = false) : Raises (bodyOf i s) (causeOf i s) := by
  cases i with
  | nop | rdstat | rdsize | rdplen | rddlen | rdgp | gfmul | gfmula | gfexp => exact .ok hf
  | reset => exact .ok rfl
  | rdtile | rdcw | rddcw | rdec => exact raises_guardedRead hf Iff.rfl Iff.rfl
  | rdgen | rdrem => exact raises_guardedRead hf s.nec_eq_zero_iff Iff.rfl
  | rsclr | rsfeed => exact raises_check s.nec_eq_zero_iff (.ok hf)
  | setver | rsgen => exact raises_check Iff.rfl (.ok hf)
  | gfinv => exact raises_check BitVec.toNat_eq (.ok hf)
  | gflog v => exact bodyGflog_raises hf v
  | ilv | paints | place | fmt => exact raises_atStage hf
  | ecc => exact raises_atStage ((foldl_eccRound_fault ..).trans hf)
  | frame => exact raises_check (or_congr BitVec.toNat_ne BitVec.toNat_ne) (raises_check Iff.rfl (.ok hf))
  | pushb v => exact bodyPushb_raises hf v
  | pushd v => exact bodyPushd_raises hf v
  | vinfo v f => exact bodyVinfo_raises hf v f
  | select => exact bodySelect_raises hf
  | generate => exact bodyGenerate_raises hf

/-- The two ways a command ends in an unfaulted block: normally, with no cause in the table, or by the fault of the
cause there. -/
theorem exec_cases (i : Instr) {s : State} (hf : s.fault = false) :
    (∃ t, exec i s = .next t ∧ causeOf i s = none ∧ t.fault = false) ∨
    ∃ e : Cause, exec i s = .next (faulted s e.code) ∧ causeOf i s = some e.code := by
  have ha := acts_of_not_fault hf i
  have hraises := bodyOf_raises i hf
  cases hb : bodyOf i s with
  | ok t => exact .inl ⟨t.advance, exec_of_ok ha hb, (hb ▸ hraises).of_ok⟩
  | error e => exact .inr ⟨e, exec_of_error ha hb, (hb ▸ hraises).of_error⟩

/-- Settles O11: the table names the cause of the fault by which the command ends, and none where it ends normally. -/
theorem commandsFaultExactlyAsTheTableSays : Obligations.CommandsFaultExactlyAsTheTableSays := by
  unfold Obligations.CommandsFaultExactlyAsTheTableSays
  refine ⟨fun i s hf => ?_, fun s w e hf hw hd => ?_⟩
  · obtain ⟨t, ht, hnone, htf⟩ | ⟨e, ht, hsome⟩ := exec_cases i hf
    · exact ⟨t, ht, by simp [hnone], fun _ => htf⟩
    · exact ⟨_, ht, by simp [hsome], by simp [hsome]⟩
  · rw [step_of_decode_error hw hd, runIllegal_of_not_fault hf]

/-! ## What raising a fault changes (R212) -/

theorem Cause.code_bounds (c : Cause) : 1 ≤ c.code.toNat ∧ c.code.toNat ≤ 6 := by cases c <;> decide

/-- A step that ends faulted was ended by a fault of its own: no command that ends normally leaves `FAULT` 1. -/
theorem exists_cause_of_step_fault {s t : State} (hf : s.fault = false) (h : step s = .next t)
    (ht : t.fault = true) : ∃ c : Cause, t = faulted s c.code := by
  obtain ⟨w, -, ⟨i, -, hi⟩ | ⟨e, -, he⟩⟩ := step_eq_next h
  · obtain ⟨u, hu, -, huf⟩ | ⟨c, hc, -⟩ := exec_cases i hf
    · obtain rfl := Host.Outcome.next.inj (hi.symm.trans hu)
      exact absurd ht (Bool.eq_false_iff.1 huf)
    · exact ⟨c, Host.Outcome.next.inj (hi.symm.trans hc)⟩
  · exact ⟨.illegal, Host.Outcome.next.inj (he.symm.trans (runIllegal_of_not_fault hf))⟩

/-- Settles O10: the state is the one a fault leaves, and every cause has a code in 1 to 6. -/
theorem raisingAFaultChangesNothingElse : Obligations.RaisingAFaultChangesNothingElse := by
  unfold Obligations.RaisingAFaultChangesNothingElse
  intro s t hf h ht
  obtain ⟨c, rfl⟩ := exists_cause_of_step_fault hf h ht
  exact ⟨rfl, c.code_bounds⟩

end Sys2Proof.Machine
end

/-! Proofs of 30_encoding.md: the encoder against the decoder, and the assembler. Both directions of the round trip
speak of a word's fields: the opcode byte picks the arm of `decode`, and the arm reads the fields that `encode` packs. -/

namespace Sys2Proof

/-! ## Decoding an encoding (R72, R73, R74) -/

theorem decodeZ_packWord (op : Byte) (i : Instr) : decodeZ (packWord op 0 0) i = .ok i := by simp [decodeZ]

theorem decodeB_packWord (op k : Byte) (f : Byte → Instr) : decodeB (packWord op 0 k) f = .ok (f k) := by
  simp [decodeB]

theorem decodeBB_packWord (op p q : Byte) (f : Byte → Byte → Instr) :
    decodeBB (packWord op p q) f = .ok (f p q) := by
  simp [decodeBB]

theorem decodeXY_packWord (op x y : Byte) (f : Byte → Byte → Instr) :
    decodeXY (packWord op x y) f = .ok (f x y) := by
  simp [decodeXY]

theorem decodeH_packHalf (op : Byte) (k : Half) (f : Half → Instr) : decodeH (packHalf op k) f = .ok (f k) := by
  simp [decodeH]

theorem opField_encode (i : Instr) : opField (encode i) = i.opcode := by
  cases i <;> simp only [encode, opField_packWord, opField_packHalf]

/-- The opcode picks the arm of `decode`, and the arm gives the operands back. -/
theorem decode_encode (i : Instr) : decode (encode i) = .ok i := by
  rw [decode, opField_encode]
  cases i with
  | nop | reset | rdstat | rdsize | rdplen | rddlen | rdgp | rsclr | select | frame | ecc | ilv | paints | place | fmt
  | generate => exact decodeZ_packWord _ _
  | pushb | pushd | gfmula | gfinv | gfexp | gflog | rsgen | rsfeed | rdrem | rdgen | setver =>
    exact decodeB_packWord _ _ _
  | rdec | gfmul | vinfo => exact decodeBB_packWord _ _ _ _
  | rdtile => exact decodeXY_packWord _ _ _ _
  | rdcw | rddcw => exact decodeH_packHalf _ _ _

/-- Settles O1: the opcode byte of the encoding picks the command's arm of the decoder. -/
theorem decodeOfEncodeIsTheCommand : Obligations.DecodeOfEncodeIsTheCommand := by
  unfold Obligations.DecodeOfEncodeIsTheCommand
  exact decode_encode

/-! ## Encoding a decoded command -/

theorem encode_of_decodeZ {w : Word} {i j : Instr} (hi : encode i = packWord i.opcode 0 0) (h : decodeZ w i = .ok j)
    (hop : opField w = j.opcode) : encode j = w := by
  obtain ⟨rfl, ha, hb, hc⟩ := decodeZ_ok h
  rw [hi, ← hop, ← packWord_fields w ha, hb, hc, opField_packWord]

theorem encode_of_decodeB {w : Word} {f : Byte → Instr} {j : Instr}
    (hf : ∀ k, encode (f k) = packWord (f k).opcode 0 k) (h : decodeB w f = .ok j) (hop : opField w = j.opcode) :
    encode j = w := by
  obtain ⟨rfl, ha, hb⟩ := decodeB_ok h
  rw [hf, ← hop, ← hb, packWord_fields w ha]

theorem encode_of_decodeBB {w : Word} {f : Byte → Byte → Instr} {j : Instr}
    (hf : ∀ p q, encode (f p q) = packWord (f p q).opcode p q) (h : decodeBB w f = .ok j)
    (hop : opField w = j.opcode) : encode j = w := by
  obtain ⟨rfl, ha⟩ := decodeBB_ok h
  rw [hf, ← hop, packWord_fields w ha]

theorem encode_of_decodeH {w : Word} {f : Half → Instr} {j : Instr}
    (hf : ∀ k, encode (f k) = packHalf (f k).opcode k) (h : decodeH w f = .ok j) (hop : opField w = j.opcode) :
    encode j = w := by
  obtain ⟨rfl, ha⟩ := decodeH_ok h
  rw [hf, ← hop, packHalf_fields w ha]

/-- Case `h_k` is the `k`-th arm of `decode`; the arms are gathered by format. -/
theorem encode_of_decode_ok {w : Word} {i : Instr} (h : decode w = .ok i) : encode i = w := by
  obtain ⟨hop, -⟩ := fields_of_decode_ok h
  unfold decode at h
  split at h
  case h_1 | h_2 | h_5 | h_6 | h_10 | h_11 | h_18 | h_20 | h_24 | h_27 | h_28 | h_29 | h_30 | h_31 | h_32 | h_33 =>
    exact encode_of_decodeZ rfl h hop
  case h_3 | h_4 | h_14 | h_15 | h_16 | h_17 | h_19 | h_21 | h_22 | h_23 | h_25 =>
    exact encode_of_decodeB (fun _ => rfl) h hop
  case h_7 | h_12 | h_13 | h_26 => exact encode_of_decodeBB (fun _ _ => rfl) h hop
  case h_8 | h_9 => exact encode_of_decodeH (fun _ => rfl) h hop
  case h_34 => cases h

/-- Settles O2: each arm of the decoder reads the fields that the encoder packs. -/
theorem encodeOfDecodeIsTheWord : Obligations.EncodeOfDecodeIsTheWord := by
  unfold Obligations.EncodeOfDecodeIsTheWord
  exact fun _ _ => encode_of_decode_ok

/-- Settles O4: thirteen fixed words. -/
theorem sampleWordsDecode : Obligations.SampleWordsDecode := by
  unfold Obligations.SampleWordsDecode
  decide


/-! ## The operands of a word, in the assembler's order (R72, R75) -/

/-- The operands that a format reads from a word. -/
def Format.operandsOf : Format → Word → List Nat
  | .z, _ => []
  | .b, w => [(cField w).toNat]
  | .bb, w | .xy, w => [(bField w).toNat, (cField w).toNat]
  | .h, w => [(immField w).toNat]

theorem operandsOf_encode (i : Instr) : i.format.operandsOf (encode i) = i.operands := by
  cases i <;> simp [Format.operandsOf, Instr.format, encode, Instr.operands]

theorem row_eq_of_opcode_eq {i j : Instr} (h : i.opcode = j.opcode) : i.row = j.row :=
  List.inj_on_of_nodup_map opcodes_nodup (row_mem i) (row_mem j) (by simpa [Instr.row] using h)

end Sys2Proof

namespace Sys2Proof.Machine

/-! ## The assembler (R75, R79, R80) -/

theorem packWord_eq_packHalf (op b c : Byte) : packWord op b c = packHalf op (b ++ c) := by
  refine BitVec.eq_of_toNat_eq ?_
  simp only [packWord, packHalf, toNat_append_eq_add]
  omega

theorem ofNat_eq_packHalf (k : Half) : BitVec.ofNat 32 k.toNat = packHalf 0 k := by
  have hk := k.isLt
  refine BitVec.eq_of_toNat_eq ?_
  simp only [packHalf, toNat_append_eq_add, BitVec.ofNat_eq_ofNat, BitVec.toNat_ofNat]
  omega

/-- The operand bits fill the operand fields of a row's word. -/
theorem packWord_or_half (op : Byte) (k : Half) : packWord op 0 0 ||| BitVec.ofNat 32 k.toNat = packHalf op k := by
  have hor : (op ++ 0#8 ++ 0#16) ||| (0#16 ++ k) = op ++ 0#8 ++ k := by
    rw [BitVec.or_append, BitVec.or_zero, BitVec.zero_or]
  rw [packWord_eq_packHalf, ofNat_eq_packHalf]
  exact hor

theorem packWord_or_bytes (op p q : Byte) :
    packWord op 0 0 ||| BitVec.ofNat 32 (p.toNat * 256 + q.toNat) = packWord op p q := by
  have hpair : p.toNat * 256 + q.toNat = (p ++ q).toNat := (toNat_append_eq_add p q).symm
  rw [packWord_eq_packHalf op p q, ← packWord_or_half, hpair]

theorem packWord_or_byte (op k : Byte) : packWord op 0 0 ||| BitVec.ofNat 32 k.toNat = packWord op 0 k := by
  simpa using packWord_or_bytes op 0 k

/-- The operands read from a word fit their fields, and put back there they give the word. -/
theorem exists_operandBits_eq {f : Format} {w : Word} (hres : f.ReservedZero w) :
    ∃ bits, operandBits f (f.operandsOf w) = some bits ∧ packWord (opField w) 0 0 ||| bits = w := by
  cases f with
  | z =>
    obtain ⟨ha, hb, hc⟩ := hres
    have hw := packWord_fields w ha
    rw [hb, hc] at hw
    exact ⟨0, rfl, BitVec.or_zero.trans hw⟩
  | b =>
    obtain ⟨ha, hb⟩ := hres
    have hw := packWord_fields w ha
    rw [hb] at hw
    exact ⟨_, if_pos (cField w).isLt, (packWord_or_byte ..).trans hw⟩
  | bb | xy =>
    exact ⟨_, if_pos ⟨(bField w).isLt, (cField w).isLt⟩, (packWord_or_bytes ..).trans (packWord_fields w hres)⟩
  | h => exact ⟨_, if_pos (immField w).isLt, (packWord_or_half ..).trans (packHalf_fields w hres)⟩

theorem exists_toNat_eq {n k : Nat} (h : k < 2 ^ n) : ∃ a : BitVec n, a.toNat = k :=
  ⟨BitVec.ofNat n k, Nat.mod_eq_of_lt h⟩

/-- Operands that fit their fields are those of a word. -/
theorem exists_word_of_operandBits {f : Format} {ops : List Nat} {bits : Word} (op : Byte)
    (h : operandBits f ops = some bits) : ∃ w, opField w = op ∧ f.ReservedZero w ∧ f.operandsOf w = ops := by
  unfold operandBits at h
  split at h
  · exact ⟨packWord op 0 0, by simp [Format.ReservedZero, Format.operandsOf]⟩
  · obtain ⟨hk, -⟩ := Option.ite_none_right_eq_some.1 h
    obtain ⟨a, rfl⟩ := exists_toNat_eq (n := 8) hk
    exact ⟨packWord op 0 a, by simp [Format.ReservedZero, Format.operandsOf]⟩
  · obtain ⟨⟨hp, hq⟩, -⟩ := Option.ite_none_right_eq_some.1 h
    obtain ⟨a, rfl⟩ := exists_toNat_eq (n := 8) hp
    obtain ⟨b, rfl⟩ := exists_toNat_eq (n := 8) hq
    exact ⟨packWord op a b, by simp [Format.ReservedZero, Format.operandsOf]⟩
  · obtain ⟨⟨hx, hy⟩, -⟩ := Option.ite_none_right_eq_some.1 h
    obtain ⟨a, rfl⟩ := exists_toNat_eq (n := 8) hx
    obtain ⟨b, rfl⟩ := exists_toNat_eq (n := 8) hy
    exact ⟨packWord op a b, by simp [Format.ReservedZero, Format.operandsOf]⟩
  · obtain ⟨hk, -⟩ := Option.ite_none_right_eq_some.1 h
    obtain ⟨a, rfl⟩ := exists_toNat_eq (n := 16) hk
    exact ⟨packHalf op a, by simp [Format.ReservedZero, Format.operandsOf]⟩
  · cases h

/-- A row's word with the operand bits is the word with the row's opcode, with its format's reserved fields 0 and with
these operands. -/
theorem assembledWord_iff (f : Format) (op : Byte) (ops : List Nat) (w : Word) :
    ((operandBits f ops).map fun bits => packWord op 0 0 ||| bits) = some w ↔
      opField w = op ∧ f.ReservedZero w ∧ f.operandsOf w = ops := by
  constructor
  · intro h
    obtain ⟨bits, hbits, rfl⟩ := Option.map_eq_some_iff.1 h
    obtain ⟨v, rfl, hres, rfl⟩ := exists_word_of_operandBits op hbits
    obtain ⟨bits', hbits', hv⟩ := exists_operandBits_eq hres
    obtain rfl := Option.some.inj (hbits.symm.trans hbits')
    rw [hv]
    exact ⟨rfl, hres, rfl⟩
  · rintro ⟨rfl, hres, rfl⟩
    obtain ⟨bits, hbits, hw⟩ := exists_operandBits_eq hres
    rw [hbits]
    exact congrArg some hw

theorem assembleCommand_eq (i : Instr) (ops : List Nat) :
    assembleCommand i.mnemonic ops = (operandBits i.format ops).map fun bits => packWord i.opcode 0 0 ||| bits := by
  have hfind : (opcodeRows.find? fun r => r.mnemonic == i.mnemonic) = some i.row := by
    cases i <;> simp only [Instr.row, Instr.mnemonic, Instr.format, Instr.opcode] <;> decide
  rw [assembleCommand, hfind]
  rfl

theorem assembleCommand_encode (i : Instr) : assembleCommand i.mnemonic i.operands = some (encode i) := by
  obtain ⟨hop, hres⟩ := fields_of_decode_ok (decode_encode i)
  rw [assembleCommand_eq, assembledWord_iff]
  exact ⟨hop, hres, operandsOf_encode i⟩

/-- A mnemonic that assembles is a command's. -/
theorem exists_mnemonic_eq {m : String} {ops : List Nat} {w : Word} (h : assembleCommand m ops = some w) :
    ∃ i : Instr, i.mnemonic = m := by
  unfold assembleCommand at h
  split at h
  · cases h
  · rename_i r hr
    obtain ⟨i, rfl⟩ := exists_row_eq (List.mem_of_find?_eq_some hr)
    exact ⟨i, by simpa [Instr.row] using List.find?_some hr⟩

/-- The word has the opcode of the mnemonic's row, so it decodes to a command of that row. -/
theorem decode_of_assembleCommand {m : String} {ops : List Nat} {w : Word} (h : assembleCommand m ops = some w) :
    ∃ i, decode w = .ok i ∧ i.mnemonic = m ∧ i.operands = ops := by
  obtain ⟨i, rfl⟩ := exists_mnemonic_eq h
  rw [assembleCommand_eq, assembledWord_iff] at h
  obtain ⟨hop, hres, hops⟩ := h
  obtain ⟨j, hj⟩ := exists_decode_ok_of_fields i hop hres
  have hrow : j.row = i.row := row_eq_of_opcode_eq ((fields_of_decode_ok hj).1.symm.trans hop)
  refine ⟨j, hj, congrArg OpcodeRow.mnemonic hrow, ?_⟩
  have hformat : j.format = i.format := congrArg OpcodeRow.format hrow
  rw [← hops, ← hformat, ← operandsOf_encode, encode_of_decode_ok hj]

theorem encode_pushb (b : Byte) : encode (.pushb b) = 0x02000000 + b.setWidth 32 := by
  have hb := b.isLt
  refine BitVec.eq_of_toNat_eq ?_
  simp only [encode, Instr.opcode, packWord, toNat_append_eq_add, BitVec.ofNat_eq_ofNat, BitVec.toNat_ofNat,
    BitVec.toNat_add, BitVec.toNat_setWidth]
  omega

/-- Settles O5: what assembles is the word with the row's opcode and these operands, and that word decodes to the one
command that has both. -/
theorem assemblerGivesTheEncodedWord : Obligations.AssemblerGivesTheEncodedWord := by
  unfold Obligations.AssemblerGivesTheEncodedWord
  refine ⟨assembleCommand_encode, fun _ _ _ => decode_of_assembleCommand, fun bs => ?_, rfl⟩
  rw [pushBytes, List.map_map]
  exact List.map_congr_left fun b _ => encode_pushb b

end Sys2Proof.Machine

/-! Proofs of single rules of 10_state.md, 41_version_selector.md, 44_reed_solomon.md, 45_matrix_painter.md and
46_masking_format.md. -/

namespace Sys2Proof.Machine

open Claims

/-! ## One step and reset (R20, R39, R91) -/

/-- Settles O6: the decoder's answer picks the arm of `step`. -/
theorem stepRunsTheDecodedCommand : Obligations.StepRunsTheDecodedCommand := by
  unfold Obligations.StepRunsTheDecodedCommand
  exact fun _ _ _ => step_of_decode_ok

/-- Settles O13: the reset state is idle, so every guarded read-out is too early; `RESET` leaves the cleared state. -/
theorem resetCommandGivesTheHardwareResetState : Obligations.ResetCommandGivesTheHardwareResetState := by
  unfold Obligations.ResetCommandGivesTheHardwareResetState
  exact ⟨⟨rfl, rfl, rfl, rfl, rfl, rfl, rfl, rfl, rfl, rfl, rfl, rfl, rfl, unreadable_of_idle rfl rfl rfl⟩, exec_reset⟩

/-! ## The version table (R113, R116) -/

/-- R116(a) to (d) on every row of the table. -/
theorem versionTable_rows : ∀ r ∈ versionTable, r.size = 17 + 4 * r.version ∧
    r.totalBytes = r.groupBytes + r.groupBytes1 ∧ r.groupBytes % r.numSegments = 0 ∧
    (r.numSegments1 = 0 → r.groupBytes1 = 0) ∧
    (0 < r.numSegments1 → r.groupBytes1 % r.numSegments1 = 0 ∧
      r.groupBytes1 / r.numSegments1 - r.segmentDataBytes1 = r.groupBytes / r.numSegments - r.segmentDataBytes ∧
      r.segmentDataBytes1 = r.segmentDataBytes + 1) ∧
    r.totalBytes ≤ 1706 := by decide

theorem ns_le_nsMax {v : Nat} (h1 : 1 ≤ v) (h26 : v ≤ 26) : ns v ≤ Config.nsMax := by
  interval_cases v <;> decide

theorem inputBytes_lt_succ {v : Nat} (h1 : 1 ≤ v) (h26 : v < 26) : inputBytes v < inputBytes (v + 1) := by
  interval_cases v <;> decide

theorem inputBytes_strictMono {u v : Nat} (h1 : 1 ≤ u) (huv : u < v) (h26 : v ≤ 26) :
    inputBytes u < inputBytes v := by
  induction v, huv using Nat.le_induction with
  | base => exact inputBytes_lt_succ h1 h26
  | succ v hv ih => exact (ih (by omega)).trans (inputBytes_lt_succ (by omega) h26)

/-- Settles O35: the rows are checked one by one; the order of `input_bytes` is that of neighbours. -/
theorem versionTableInvariants : Obligations.VersionTableInvariants := by
  unfold Obligations.VersionTableInvariants
  refine ⟨fun v h1 h26 => ?_, fun u v => inputBytes_strictMono, fun v => vi_of_unsupported⟩
  obtain ⟨r, hr⟩ := exists_vi_of_supported h1 h26
  obtain ⟨hsize, htotal, hgroup, hempty, hgroup1, hmax⟩ := versionTable_rows r (List.mem_of_find?_eq_some hr)
  obtain ⟨hec1, hec30⟩ := ecBytes_bounds h1 h26
  rw [version_of_vi hr] at hsize
  rw [← ecBytes_of_vi hr] at hgroup1
  exact ⟨r, hr, version_of_vi hr, hsize, htotal, hgroup, hempty, hgroup1, hec1, hec30, ns_pos h1 h26,
    ns_le_nsMax h1 h26, (dataBytes_bounds h1 h26).2, hmax⟩

/-! ## SELECT and SETVER (R111, R112) -/

/-- The selection loop answers the smallest supported version that fits. -/
theorem selectVersion_eq_some_iff (n v : Nat) : selectVersion n = some v ↔ smallestFitting n v := by
  rw [selectVersion, List.find?_range'_eq_some, List.mem_range'_1, smallestFitting]
  simp only [decide_eq_true_eq, Bool.not_eq_true', decide_eq_false_iff_not, Nat.not_le]
  constructor
  · rintro ⟨hfit, ⟨h1, h26⟩, hmin⟩
    exact ⟨h1, Nat.lt_succ_iff.1 h26, hfit, hmin⟩
  · rintro ⟨h1, h26, hfit, hmin⟩
    exact ⟨hfit, ⟨h1, Nat.lt_succ_of_le h26⟩, hmin⟩

theorem selectVersion_eq_none_iff (n : Nat) : selectVersion n = none ↔ Config.payMax < n := by
  constructor
  · intro h
    exact selectVersion_none h 26 (by decide) le_rfl
  · intro h
    refine Option.eq_none_iff_forall_ne_some.2 fun v hv => ?_
    obtain ⟨h1, h26, hfit⟩ := selectVersion_some hv
    exact Nat.not_le.2 h (hfit.trans (inputBytes_le_payMax h1 h26))

theorem bodySetver_of_bad {k : Byte} (h : k.toNat < 1 ∨ 26 < k.toNat) (s : State) :
    bodySetver k s = .error .operand := if_pos h

theorem bodySetver_of_good {k : Byte} (h1 : 1 ≤ k.toNat) (h26 : k.toNat ≤ 26) (s : State) :
    bodySetver k s = .ok (s.restart.choose k.toNat) :=
  if_neg (not_or.2 ⟨Nat.not_lt.2 h1, Nat.not_lt.2 h26⟩)

/-- Settles O37: the operand's check picks the case. -/
theorem setverForcesTheVersion : Obligations.SetverForcesTheVersion := by
  unfold Obligations.SetverForcesTheVersion
  intro s k hf
  have ha := acts_of_not_fault hf (.setver k)
  exact ⟨fun hbad => exec_of_error ha (bodySetver_of_bad hbad s),
    fun h1 h26 => exec_of_ok ha (bodySetver_of_good h1 h26 s)⟩

/-- Settles O36: the loop's answer picks the case, and it answers none exactly above 1059. -/
theorem selectPicksTheSmallestFittingVersion : Obligations.SelectPicksTheSmallestFittingVersion := by
  unfold Obligations.SelectPicksTheSmallestFittingVersion
  intro s hf
  have ha := acts_of_not_fault hf .select
  refine ⟨fun v hv => ?_, fun hgt => ?_, fun hle => ?_⟩
  · exact exec_of_ok ha (bodySelect_of_some ((selectVersion_eq_some_iff ..).2 hv))
  · exact exec_of_ok ha (bodySelect_of_none ((selectVersion_eq_none_iff _).2 hgt))
  · obtain ⟨v, hv⟩ := Option.ne_none_iff_exists'.1 (mt (selectVersion_eq_none_iff _).1 (Nat.not_lt.2 hle))
    exact ⟨v, (selectVersion_eq_some_iff ..).1 hv⟩

/-! ## The generator (R145) -/

/-- Settles O26: degree and leading coefficient follow the recursion, and each factor brings its root. -/
theorem generatorIsMonicWithConsecutiveRoots : Obligations.GeneratorIsMonicWithConsecutiveRoots := by
  unfold Obligations.GeneratorIsMonicWithConsecutiveRoots
  refine fun n _ _ => ⟨length_genPoly n, ?_, fun r hr => polyEval_genPoly_gfExp hr⟩
  rw [List.getD_eq_getElem?_getD, genPoly_getElem?_self, Option.getD_some]

/-! ## The encoding is linear (R147) -/

theorem zipWith_gfAdd_getD_zero {a b : List Byte} (h : a.length = b.length) :
    (List.zipWith gfAdd a b).getD 0 0 = gfAdd (a.getD 0 0) (b.getD 0 0) := by
  cases a <;> cases b <;> simp_all [gfAdd]

theorem zipWith_division (u v gs : List Byte) (e f : Byte) :
    List.zipWith (fun next g => gfAdd next (gfMul g (gfAdd e f))) (List.zipWith gfAdd u v) gs =
      List.zipWith gfAdd (List.zipWith (fun next g => gfAdd next (gfMul g e)) u gs)
        (List.zipWith (fun next g => gfAdd next (gfMul g f)) v gs) := by
  refine List.ext_getElem? fun i => ?_
  simp only [List.getElem?_zipWith]
  cases u[i]? <;> cases v[i]? <;> cases gs[i]? <;> simp [gfMul_gfAdd, gfAdd_gfAdd_gfAdd_comm]

theorem rsFeed_zipWith (gen : List Byte) (n : Nat) {p q : List Byte} (h : p.length = q.length) (c d : Byte) :
    rsFeed gen n (List.zipWith gfAdd p q) (gfAdd c d) =
      List.zipWith gfAdd (rsFeed gen n p c) (rsFeed gen n q d) := by
  have hnext : (List.zipWith gfAdd p q).drop 1 ++ [0] = List.zipWith gfAdd (p.drop 1 ++ [0]) (q.drop 1 ++ [0]) := by
    rw [List.drop_zipWith, List.zipWith_append (by simp [h])]
    rfl
  simp only [rsFeed, hnext, zipWith_gfAdd_getD_zero h, gfAdd_gfAdd_gfAdd_comm c d]
  exact zipWith_division _ _ _ _ _

/-- A message of equal length added byte by byte is fed byte by byte. -/
theorem rsEncode_zipWith (n : Nat) {a b : List Byte} (h : a.length = b.length) :
    rsEncode (List.zipWith gfAdd a b) n = List.zipWith gfAdd (rsEncode a n) (rsEncode b n) := by
  induction a using List.reverseRecOn generalizing b with
  | nil =>
    obtain rfl : b = [] := List.length_eq_zero_iff.1 h.symm
    simp [rsEncode, gfAdd]
  | append_singleton a c ih =>
    obtain rfl | ⟨b, d, rfl⟩ := List.eq_nil_or_concat' b
    · simp at h
    have hlen : a.length = b.length := by simpa using h
    rw [List.zipWith_append hlen, List.zipWith_cons_cons, List.zipWith_nil_left, rsEncode_append_singleton,
      rsEncode_append_singleton, rsEncode_append_singleton, ih hlen, rsFeed_zipWith]
    rw [length_rsEncode, length_rsEncode]

theorem zipWith_gfAdd_self (l : List Byte) : List.zipWith gfAdd l l = List.replicate l.length 0 := by
  simp [List.zipWith_self, gfAdd_self]

/-- Settles O32: one step is linear in the remainder and the byte fed, hence so is the whole division; a message of
zeros is twice itself. -/
theorem rsEncodeIsLinear : Obligations.RsEncodeIsLinear := by
  unfold Obligations.RsEncodeIsLinear
  refine ⟨fun a b n => rsEncode_zipWith n, fun _ => rfl, fun k n => ?_⟩
  have hlinear := rsEncode_zipWith n (a := List.replicate k 0) rfl
  rwa [zipWith_gfAdd_self, zipWith_gfAdd_self, List.length_replicate, length_rsEncode] at hlinear

/-- Settles O46: the order is a permutation of the free tiles, each listed once. -/
theorem placementVisitsEveryFreeTileOnce : Obligations.PlacementVisitsEveryFreeTileOnce := by
  unfold Obligations.PlacementVisitsEveryFreeTileOnce
  exact fun v h1 h26 => ⟨nodup_order h1 h26, fun x y => mem_order h1 h26⟩

/-- Settles O48: constants. -/
theorem formatAndVersionConstants : Obligations.FormatAndVersionConstants := by
  unfold Obligations.FormatAndVersionConstants
  decide

end Sys2Proof.Machine

/-! What a body that ends normally answers (`Yields`), and what one step can do (`step_cases`), said once. The four
whole-machine rules on `VALID`, `GP`, `OUT` and the payload read off one inversion of the 33 bodies (`Effect`). -/

namespace Sys2Proof.Machine

open Claims

/-! ## What a body answers -/

/-- If the answer is a state and no fault, that state is as `Q` says. -/
def Yields (r : Except Cause State) (Q : State → Prop) : Prop := ∀ t, r = .ok t → Q t

section
variable {Q R : State → Prop} {r : Except Cause State}

theorem yields_ok {t : State} (h : Q t) : Yields (.ok t) Q := by
  rintro u ⟨⟩
  exact h

theorem yields_error {c : Cause} : Yields (.error c) Q := by
  rintro u ⟨⟩

theorem Yields.mono (h : Yields r R) (hRQ : ∀ t, R t → Q t) : Yields r Q := fun t ht => hRQ t (h t ht)

theorem yields_ite {p : Prop} [Decidable p] {r' : Except Cause State} (h : p → Yields r Q) (h' : ¬p → Yields r' Q) :
    Yields (if p then r else r') Q := by
  by_cases hp : p
  · rw [if_pos hp]
    exact h hp
  · rw [if_neg hp]
    exact h' hp

/-- A check of the pseudocode: only what comes after it answers a state. -/
theorem yields_check {p : Prop} [Decidable p] {c : Cause} (h : ¬p → Yields r Q) :
    Yields (if p then .error c else r) Q :=
  yields_ite (fun _ => yields_error) h

theorem yields_bind {b : Body} (hr : Yields r R) (hb : ∀ t, R t → Yields (b t) Q) : Yields (r >>= b) Q := by
  cases r with
  | ok t => exact hb t (hr t rfl)
  | error c => exact yields_error

theorem yields_emitRead {s : State} {r : Except Cause Byte} (h : ∀ v, Q (s.emit v)) : Yields (s.emitRead r) Q := by
  intro t ht
  obtain ⟨v, -, rfl⟩ := emitRead_ok ht
  exact h _

end

/-- A command of one stage. -/
theorem yields_atStage {Q : State → Prop} {s t : State} {k : BitVec 3} (h : s.stage.toNat = k.toNat → Q t) :
    Yields (if s.stage ≠ k then .error .seq else .ok t) Q :=
  yields_check fun hk => yields_ok (h (congrArg BitVec.toNat (not_not.1 hk)))

/-! ## What one step can do -/

/-- The word fetched is skipped, ends by a fault that wrote nothing else, or is a command that ends normally. -/
theorem step_cases {s t : State} {w : Word} (hw : s.fetch = some w) (h : step s = .next t) :
    t = s.advance ∨ (∃ c, t = (s.raiseFault c).advance) ∨
      ∃ i u, decode w = .ok i ∧ bodyOf i s = .ok u ∧ t = u.advance := by
  cases hd : decode w with
  | ok i =>
    rw [step_of_decode_ok hw hd, exec_eq] at h
    obtain rfl := Host.Outcome.next.inj h
    split
    · exact .inl rfl
    · obtain ⟨u, hu, hs⟩ | ⟨c, -, hs⟩ := settle_cases (bodyOf i) s
      · exact .inr (.inr ⟨i, u, rfl, hu, congrArg State.advance hs⟩)
      · exact .inr (.inl ⟨c, congrArg State.advance hs⟩)
  | error e =>
    rw [step_of_decode_error hw hd, runIllegal_eq] at h
    obtain rfl := Host.Outcome.next.inj h
    split
    · exact .inl rfl
    · exact .inr (.inl ⟨.illegal, rfl⟩)

/-- A property that advancing, faulting and every body keep is kept by a step. -/
theorem step_keeps {P : State → Prop} (hadvance : ∀ s, P s → P s.advance)
    (hfault : ∀ s c, P s → P (s.raiseFault c)) (hbody : ∀ i s, P s → Yields (bodyOf i s) P) {s t : State}
    (hs : P s) (h : step s = .next t) : P t := by
  obtain ⟨w, hw, -⟩ := step_eq_next h
  obtain rfl | ⟨c, rfl⟩ | ⟨i, u, -, hu, rfl⟩ := step_cases hw h
  · exact hadvance s hs
  · exact hadvance _ (hfault s c hs)
  · exact hadvance u (hbody i s hs u hu)

/-! ## What lies outside the encode -/

/-- The rounds of `ECC` write `REM` and `ECW`. -/
theorem foldl_eccRound_frame (ks : List Nat) (s : State) :
    ks.foldl eccRound s = { s with rem := (ks.foldl eccRound s).rem, ecw := (ks.foldl eccRound s).ecw } := by
  induction ks generalizing s with
  | nil => rfl
  | cons k ks ih => exact (ih (eccRound s k)).trans rfl

/-- The registers, buffers and streams that no pipeline or datapath command writes. -/
structure Outside (s t : State) : Prop where
  gp : t.gp = s.gp
  plen : t.plen = s.plen
  fault : t.fault = s.fault
  fcause : t.fcause = s.fcause
  pay : t.pay = s.pay
  out : t.out = s.out
  pc : t.pc = s.pc
  cmds : t.cmds = s.cmds

theorem Outside.trans {s t u : State} (h : Outside s t) (h' : Outside t u) : Outside s u where
  gp := h'.gp.trans h.gp
  plen := h'.plen.trans h.plen
  fault := h'.fault.trans h.fault
  fcause := h'.fcause.trans h.fcause
  pay := h'.pay.trans h.pay
  out := h'.out.trans h.out
  pc := h'.pc.trans h.pc
  cmds := h'.cmds.trans h.cmds

/-- Stated for any values `x_`: with the writes of `FMT` in place of `grid`, `rfl` would run them. -/
theorem outside_with (s : State) (nec : BitVec 5) (gen : Vector Byte 31) (rem : Vector Byte 30) (ver : BitVec 5)
    (dlen : BitVec 11) (size : BitVec 7) (stage : BitVec 3) (valid err : Bool) (dcw ecw icw grid : Memory) :
    Outside s { s with nec, gen, rem, ver, dlen, size, stage, valid, err, dcw, ecw, icw, grid } :=
  ⟨rfl, rfl, rfl, rfl, rfl, rfl, rfl, rfl⟩

section
variable (s : State)

theorem bodySelect_outside : Yields (bodySelect s) (Outside s) := by
  cases h : selectVersion s.plen.toNat with
  | some v =>
    rw [bodySelect_of_some h]
    exact yields_ok (outside_with ..)
  | none =>
    rw [bodySelect_of_none h]
    exact yields_ok (outside_with ..)

theorem bodyFrame_outside : Yields (bodyFrame s) (Outside s) :=
  yields_check fun _ => yields_check fun _ => yields_ok (outside_with ..)

theorem bodyEcc_outside : Yields (bodyEcc s) (Outside s) := by
  refine yields_atStage fun _ => ?_
  rw [foldl_eccRound_frame]
  exact outside_with ..

theorem bodyIlv_outside : Yields (bodyIlv s) (Outside s) := yields_atStage fun _ => outside_with ..

theorem bodyPaints_outside : Yields (bodyPaints s) (Outside s) := yields_atStage fun _ => outside_with ..

theorem bodyPlace_outside : Yields (bodyPlace s) (Outside s) := yields_atStage fun _ => outside_with ..

theorem bodyFmt_outside : Yields (bodyFmt s) (Outside s) := yields_atStage fun _ => outside_with ..

theorem encodeBody_outside : Yields (encodeBody s) (Outside s) := by
  refine yields_bind (bodyFrame_outside s) fun t1 h1 => ?_
  refine yields_bind ((bodyEcc_outside t1).mono fun _ => h1.trans) fun t2 h2 => ?_
  refine yields_bind ((bodyIlv_outside t2).mono fun _ => h2.trans) fun t3 h3 => ?_
  refine yields_bind ((bodyPaints_outside t3).mono fun _ => h3.trans) fun t4 h4 => ?_
  refine yields_bind ((bodyPlace_outside t4).mono fun _ => h4.trans) fun t5 h5 => ?_
  exact (bodyFmt_outside t5).mono fun _ => h5.trans

theorem bodyGenerate_outside : Yields (bodyGenerate s) (Outside s) :=
  yields_bind (bodySelect_outside s) fun t ht =>
    yields_ite (fun _ => yields_ok ht) fun _ => (encodeBody_outside t).mono fun _ => ht.trans

end

/-! ## The inversion of the bodies -/

/-- The read-out commands (R35). -/
def readsOut : Instr → Bool
  | .rdstat | .rdsize | .rdtile .. | .rdcw _ | .rddcw _ | .rdplen | .rddlen | .rdec .. | .rdgp | .rdrem _ | .rdgen _
  | .vinfo .. => true
  | _ => false

/-- The five commands that write `GP` (R22). -/
def writesGp : Instr → Bool
  | .gfmul .. | .gfmula _ | .gfinv _ | .gfexp _ | .gflog _ => true
  | _ => false

/-- What the command `i` does to `GP`, `VALID`, `OUT` and the payload when it ends normally in `t`. -/
inductive Effect (s : State) : Instr → State → Prop
  | emits {i : Instr} (hi : readsOut i = true) (v : Half) : Effect s i (s.emit v)
  | field {i : Instr} (hi : writesGp i = true) (b : Byte) : Effect s i { s with gp := b }
  | resets : Effect s .reset s.clear
  | pushes (k : Byte) (t : State) (hstage : s.stage = 0) (hgp : t.gp = s.gp) (hvalid : t.valid = s.valid)
      (hout : t.out = s.out) : Effect s (.pushb k) t
  | encodes {i : Instr} {t : State} (h : Outside s t) (hvalid : t.valid = s.valid) : Effect s i t
  | starts {i : Instr} (hi : i = .select ∨ ∃ k, i = .setver k) {t : State} (h : Outside s t)
      (hvalid : t.valid = false) : Effect s i t
  | completes {t : State} (h : Outside s t) (hvalid : t.valid = true) : Effect s .fmt t
  | generates {t : State} (h : Outside s t) : Effect s .generate t

theorem effect_emitRead {i : Instr} {s : State} {r : Except Cause Byte} (hi : readsOut i = true) :
    Yields (s.emitRead r) (Effect s i) :=
  yields_emitRead fun _ => .emits hi _

theorem bodyPushb_effect (k : Byte) (s : State) : Yields (bodyPushb k s) (Effect s (.pushb k)) :=
  yields_check fun h =>
    yields_ite (fun _ => yields_ok (.pushes k _ (not_not.1 h) rfl rfl rfl))
      fun _ => yields_ok (.pushes k _ (not_not.1 h) rfl rfl rfl)

theorem bodyPushd_effect (k : Byte) (s : State) : Yields (bodyPushd k s) (Effect s (.pushd k)) :=
  yields_check fun _ =>
    yields_ite (fun _ => yields_ok (.encodes (outside_with ..) rfl)) fun _ =>
      yields_ok (.encodes (outside_with ..) rfl)

theorem bodyGflog_effect (k : Byte) (s : State) : Yields (bodyGflog k s) (Effect s (.gflog k)) := by
  cases h : gfLog k with
  | none =>
    rw [bodyGflog_of_none h]
    exact yields_error
  | some i =>
    rw [bodyGflog_of_some h]
    exact yields_ok (.field rfl _)

theorem bodyVinfo_effect (v f : Byte) (s : State) : Yields (bodyVinfo v f s) (Effect s (.vinfo v f)) := by
  refine yields_check fun _ => ?_
  cases vi v.toNat with
  | none => exact yields_ok (.emits rfl _)
  | some r => exact yields_ok (.emits rfl _)

theorem bodySelect_effect (s : State) : Yields (bodySelect s) (Effect s .select) := by
  cases h : selectVersion s.plen.toNat with
  | some v =>
    rw [bodySelect_of_some h]
    exact yields_ok (.starts (.inl rfl) (outside_with ..) rfl)
  | none =>
    rw [bodySelect_of_none h]
    exact yields_ok (.starts (.inl rfl) (outside_with ..) rfl)

theorem bodyEcc_effect (s : State) : Yields (bodyEcc s) (Effect s .ecc) := by
  refine yields_atStage fun _ => ?_
  rw [foldl_eccRound_frame]
  exact .encodes (outside_with ..) rfl

theorem bodyOf_effect (i : Instr) (s : State) : Yields (bodyOf i s) (Effect s i) := by
  cases i with
  | nop => exact yields_ok (.encodes (outside_with ..) rfl)
  | reset => exact yields_ok .resets
  | rdstat | rdsize | rdplen | rddlen | rdgp => exact yields_ok (.emits rfl _)
  | rdtile | rdcw | rddcw | rdec | rdrem | rdgen => exact effect_emitRead rfl
  | gfmul | gfmula | gfexp => exact yields_ok (.field rfl _)
  | gfinv => exact yields_check fun _ => yields_ok (.field rfl _)
  | rsgen | rsclr | rsfeed | ilv | paints | place =>
    exact yields_check fun _ => yields_ok (.encodes (outside_with ..) rfl)
  | frame => exact yields_check fun _ => yields_check fun _ => yields_ok (.encodes (outside_with ..) rfl)
  | setver k => exact yields_check fun _ => yields_ok (.starts (.inr ⟨k, rfl⟩) (outside_with ..) rfl)
  | fmt => exact yields_check fun _ => yields_ok (.completes (outside_with ..) rfl)
  | pushb k => exact bodyPushb_effect k s
  | pushd k => exact bodyPushd_effect k s
  | gflog k => exact bodyGflog_effect k s
  | vinfo v f => exact bodyVinfo_effect v f s
  | select => exact bodySelect_effect s
  | ecc => exact bodyEcc_effect s
  | generate => exact (bodyGenerate_outside s).mono fun _ => .generates

/-- A step leaves the four alone but for `FAULT`, or has the effect of the command decoded. -/
theorem step_effect {s t : State} {w : Word} (hw : s.fetch = some w) (h : step s = .next t) :
    (t.gp = s.gp ∧ t.valid = s.valid ∧ t.out = s.out ∧ t.pay = s.pay ∧ t.plen = s.plen) ∨
      ∃ i u, decode w = .ok i ∧ Effect s i u ∧ t = u.advance := by
  obtain rfl | ⟨c, rfl⟩ | ⟨i, u, hd, hu, rfl⟩ := step_cases hw h
  · exact .inl ⟨rfl, rfl, rfl, rfl, rfl⟩
  · exact .inl ⟨rfl, rfl, rfl, rfl, rfl⟩
  · exact .inr ⟨i, u, hd, bodyOf_effect i s u hu, rfl⟩

/-! ## The whole-machine rules -/

theorem valid_rule_of_eq {a b : Bool} {P Q : Prop} (h : b = a) :
    (a = false → b = true → P) ∧ (a = true → b = false → Q) := by
  subst h
  cases b <;> simp

/-- Settles O57: of the effects only a start, a completion, `GENERATE` and `RESET` write `VALID`. -/
theorem validIsSetOnlyByFmtAndGenerate : Obligations.ValidIsSetOnlyByFmtAndGenerate := by
  unfold Obligations.ValidIsSetOnlyByFmtAndGenerate
  intro s t w hw h
  obtain ⟨-, hvalid, -⟩ | ⟨i, u, hd, heffect, rfl⟩ := step_effect hw h
  · exact valid_rule_of_eq hvalid
  cases heffect with
  | emits | field => exact valid_rule_of_eq rfl
  | pushes _ _ _ _ hvalid | encodes _ hvalid => exact valid_rule_of_eq hvalid
  | resets => exact ⟨fun _ h1 => absurd h1 Bool.false_ne_true, fun _ _ => .inr (.inr (.inr hd))⟩
  | starts hi _ hvalid =>
    refine ⟨fun _ h1 => absurd (hvalid.symm.trans h1) (by decide), fun _ _ => ?_⟩
    obtain rfl | ⟨k, rfl⟩ := hi
    · exact .inl hd
    · exact .inr (.inl ⟨k, hd⟩)
  | completes _ hvalid => exact ⟨fun _ _ => .inl hd, fun _ h0 => absurd (hvalid.symm.trans h0) (by decide)⟩
  | generates => exact ⟨fun _ _ => .inr hd, fun _ _ => .inr (.inr (.inl hd))⟩

/-- Settles O58: of the effects only a field command and `RESET` write `GP`. -/
theorem gpIsWrittenOnlyByFieldCommandsAndReset : Obligations.GpIsWrittenOnlyByFieldCommandsAndReset := by
  unfold Obligations.GpIsWrittenOnlyByFieldCommandsAndReset
  intro s t w hw h hne
  obtain ⟨hgp, -⟩ | ⟨i, u, hd, heffect, rfl⟩ := step_effect hw h
  · exact absurd hgp hne
  cases heffect with
  | emits => exact absurd rfl hne
  | pushes _ _ _ hgp => exact absurd hgp hne
  | encodes h | starts _ h | completes h | generates h => exact absurd h.gp hne
  | resets => exact .inr (.inr (.inr (.inr (.inr hd))))
  | field hi =>
    cases i with
    | gfmul p q => exact .inl ⟨p, q, hd⟩
    | gfmula k => exact .inr (.inl ⟨k, hd⟩)
    | gfinv k => exact .inr (.inr (.inl ⟨k, hd⟩))
    | gfexp k => exact .inr (.inr (.inr (.inl ⟨k, hd⟩)))
    | gflog k => exact .inr (.inr (.inr (.inr (.inl ⟨k, hd⟩))))
    | _ => cases hi

theorem mnemonic_of_readsOut {i : Instr} (h : readsOut i = true) : i.mnemonic ∈
    ["RDSTAT", "RDSIZE", "RDTILE", "RDCW", "RDDCW", "RDPLEN", "RDDLEN", "RDEC", "RDGP", "RDREM", "RDGEN", "VINFO"] := by
  cases i with
  | rdstat | rdsize | rdtile | rdcw | rddcw | rdplen | rddlen | rdec | rdgp | rdrem | rdgen | vinfo =>
    simp only [Instr.mnemonic]
    decide
  | _ => cases h

/-- Settles O59: of the effects only that of a read-out appends. -/
theorem outIsAppendOnly : Obligations.OutIsAppendOnly := by
  unfold Obligations.OutIsAppendOnly
  intro s t w hw h
  obtain ⟨-, -, hout, -⟩ | ⟨i, u, hd, heffect, rfl⟩ := step_effect hw h
  · exact .inl hout
  cases heffect with
  | emits hi v => exact .inr ⟨⟨v, rfl⟩, i, hd, mnemonic_of_readsOut hi⟩
  | field | resets => exact .inl rfl
  | pushes _ _ _ _ _ hout => exact .inl hout
  | encodes h | starts _ h | completes h | generates h => exact .inl h.out

/-- Settles O60: of the effects only `PUSHB`'s, which asks for stage 0, and that of `RESET` write the payload. -/
theorem payloadIsFrozenBySelection : Obligations.PayloadIsFrozenBySelection := by
  unfold Obligations.PayloadIsFrozenBySelection
  intro s t w hw h hne
  rw [← not_and_or] at hne
  obtain ⟨-, -, -, hpay, hplen⟩ | ⟨i, u, hd, heffect, rfl⟩ := step_effect hw h
  · exact absurd ⟨hpay, hplen⟩ hne
  cases heffect with
  | emits | field => exact absurd ⟨rfl, rfl⟩ hne
  | encodes h | starts _ h | completes h | generates h => exact absurd ⟨h.pay, h.plen⟩ hne
  | resets => exact .inl hd
  | pushes k _ hstage => exact .inr ⟨hstage, k, hd⟩

end Sys2Proof.Machine

/-! Every step keeps the state legal (R40). The registers of the encode (`Registers`) move together; a buffer is legal
after a write when the cells written are. -/

namespace Sys2Proof.Machine

open Claims

/-! ## The states that the parts of an encode leave -/

section
variable (s : State)

/-- After one `PUSHD`, but for the stage (R124). -/
def State.pushed (k : Byte) : State := { s with dcw := s.dcw.write s.dlen.toNat k, dlen := s.dlen + 1 }

/-- After `FRAME` (R123). -/
def State.framed : State :=
  { s with
    dcw := s.dcw.writeRange 0 (frameBytes s.version s.payload)
    dlen := BitVec.ofNat 11 (dataBytes s.version)
    stage := 2 }

/-- After `ECC` (R155). -/
def State.withParity : State := { (List.range (ns s.version)).foldl eccRound s.loadDivider with stage := 3 }

/-- After `ILV` (R166). -/
def State.interleaved : State := { s with icw := s.icw.writeRange 0 (interleave s.version s.dcw s.ecw), stage := 4 }

/-- After `PAINTS` (R177). -/
def State.painted : State :=
  { s with
    size := BitVec.ofNat 7 (gridSide s.version)
    grid := s.grid.writeRange 0 (structTiles s.version)
    stage := 5 }

/-- After `PLACE` (R181). -/
def State.placed : State :=
  { s with grid := s.grid.writeMany (placeWrites s.version s.size.toNat s.icw), stage := 6 }

/-- After `FMT` (R195). -/
def State.formatted : State := { s with grid := s.grid.writeMany (formatWrites s.size.toNat) }.complete

end

/-! ## The cells of a memory after a write -/

section
variable {p : Host.Cell → Prop} {m : Memory}

theorem Memory.forall_write (hwf : m.wf = true) (hm : ∀ c ∈ m, p c) {i : Nat} {v : Byte} (hp : p (i, v)) :
    ∀ c ∈ m.write i v, p c := by
  intro c hc
  obtain ⟨rfl, -⟩ | ⟨hc, -⟩ := Memory.mem_write ((Memory.wf_iff m).1 hwf).1 hc
  · exact hp
  · exact hm c hc

theorem Memory.forall_writeMany {ws : List Host.Cell} (hwf : m.wf = true) (hm : ∀ c ∈ m, p c) (hp : ∀ w ∈ ws, p w) :
    ∀ c ∈ m.writeMany ws, p c := by
  induction ws generalizing m with
  | nil => exact hm
  | cons w ws ih =>
    obtain ⟨hw, hws⟩ := List.forall_mem_cons.1 hp
    exact ih (Memory.wf_write _ _ hwf) (Memory.forall_write hwf hm hw) hws

theorem Memory.forall_writeRange (hm : ∀ c ∈ m, p c) {i : Nat} {vs : List Byte}
    (hp : ∀ c : Host.Cell, c.1 < i + vs.length → c.2 ∈ vs → p c) : ∀ c ∈ m.writeRange i vs, p c := by
  intro c hc
  simp only [Memory.writeRange, List.mem_append] at hc
  obtain (hc | hc) | hc := hc
  · exact hm c (List.mem_of_mem_filter hc)
  · obtain ⟨-, hlt, -, hmem⟩ := Memory.mem_lay hc
    exact hp c hlt hmem
  · exact hm c (List.mem_of_mem_filter hc)

theorem Memory.within_writeRange {cap i : Nat} {vs : List Byte} (hm : m.within cap) (h : i + vs.length ≤ cap) :
    (m.writeRange i vs).within cap :=
  Memory.forall_writeRange hm fun _ hlt _ => hlt.trans_le h

end

/-! ## Tiles (R32) -/

theorem structTile_le (dark : Bool) : (structTile dark).toNat ≤ 3 := by cases dark <;> decide

theorem dataTile_le (dark : Bool) : (dataTile dark).toNat ≤ 3 := by cases dark <;> decide

/-- Where the rule stamps, it stamps a structural tile. -/
def Stamps (o : Option Byte) : Prop := ∀ t, o = some t → ∃ dark, t = structTile dark

theorem stamps_none : Stamps none := by rintro t ⟨⟩

theorem stamps_some (dark : Bool) : Stamps (some (structTile dark)) := by
  rintro t ⟨⟩
  exact ⟨dark, rfl⟩

theorem stamps_ite {p : Prop} [Decidable p] {a b : Option Byte} (ha : Stamps a) (hb : Stamps b) :
    Stamps (if p then a else b) := by
  split
  · exact ha
  · exact hb

theorem stamps_orElse {a b : Option Byte} (ha : Stamps a) (hb : Stamps b) : Stamps (a <|> b) := by
  cases a with
  | none => exact hb
  | some t => exact ha

theorem stamps_finderAt (cx cy x y : Nat) : Stamps (finderAt cx cy x y) := stamps_ite (stamps_some _) stamps_none

theorem stamps_alignStamp (v x y : Nat) : Stamps (alignStamp v x y) := by
  intro t ht
  obtain ⟨c, -, hc⟩ := List.exists_of_findSome?_eq_some ht
  exact stamps_ite (p := ringOf c.1 c.2 x y ≤ 2) (stamps_some _) stamps_none t hc

theorem stamps_versionBlock (v n a b : Nat) : Stamps (versionBlock v n a b) := stamps_ite (stamps_some _) stamps_none

/-- A tile of `struct(v)` is 0 or structural. -/
theorem structTileAt_cases (v x y : Nat) : structTileAt v x y = 0 ∨ ∃ dark, structTileAt v x y = structTile dark := by
  have hstamps : Stamps (versionStamp v (gridSide v) x y <|> darkStamp (gridSide v) x y <|>
      formatStamp (gridSide v) x y <|> alignStamp v x y <|> finderStamp (gridSide v) x y <|> timingStamp x y) :=
    stamps_orElse (stamps_ite stamps_none
      (stamps_orElse (stamps_versionBlock _ _ _ _) (stamps_versionBlock _ _ _ _))) <|
    stamps_orElse (stamps_ite (stamps_some _) stamps_none) <|
    stamps_orElse (stamps_ite (stamps_some _) stamps_none) <|
    stamps_orElse (stamps_alignStamp _ _ _) <|
    stamps_orElse (stamps_orElse (stamps_finderAt _ _ _ _)
      (stamps_orElse (stamps_finderAt _ _ _ _) (stamps_finderAt _ _ _ _))) <|
    stamps_ite (stamps_some _) (stamps_ite (stamps_some _) stamps_none)
  unfold structTileAt
  dsimp only
  revert hstamps
  generalize (versionStamp v (gridSide v) x y <|> _) = o
  intro hstamps
  cases o with
  | none => exact .inl rfl
  | some t => exact .inr (hstamps t rfl)

theorem structTileAt_le (v x y : Nat) : (structTileAt v x y).toNat ≤ 3 := by
  obtain h | ⟨dark, h⟩ := structTileAt_cases v x y
  · rw [h]
    decide
  · rw [h]
    exact structTile_le dark

theorem structTiles_le {v : Nat} {t : Byte} (h : t ∈ structTiles v) : t.toNat ≤ 3 := by
  simp only [structTiles, List.mem_flatMap, List.mem_map] at h
  obtain ⟨y, -, x, -, rfl⟩ := h
  exact structTileAt_le v x y

theorem placeWrites_cell {v n : Nat} {icw : Memory} {w : Host.Cell} (h1 : 1 ≤ v) (h26 : v ≤ 26)
    (hn : n = gridSide v) (hw : w ∈ placeWrites v n icw) : w.1 < n * n ∧ w.2.toNat ≤ 3 := by
  obtain ⟨k, hk⟩ := List.mem_iff_getElem?.1 hw
  obtain ⟨-, ⟨x, y⟩, hp, rfl⟩ := placeWrites_getElem?_eq_some.1 hk
  obtain ⟨hx, hy, -⟩ := (mem_order h1 h26).1 (List.mem_of_getElem? hp)
  exact ⟨tileIndex_lt (hn ▸ hx) (hn ▸ hy), dataTile_le _⟩

theorem formatWrites_cell {n : Nat} {w : Host.Cell} (hn : 21 ≤ n) (hw : w ∈ formatWrites n) :
    w.1 < n * n ∧ w.2.toNat ≤ 3 := by
  have hindex : w.1 ∈ (formatWrites n).map Prod.fst := List.mem_map_of_mem hw
  rw [formatWrites_indices] at hindex
  obtain ⟨⟨x, y⟩, hp, hxy⟩ := List.mem_map.1 hindex
  obtain ⟨i, -, p, -, rfl⟩ := mem_formatWrites.1 hw
  have hmem := (mem_formatTiles hn).1 hp
  refine ⟨?_, structTile_le _⟩
  rw [← hxy]
  exact tileIndex_lt (by omega) (by omega)

/-! ## The registers of the encode (R40) -/

/-- The part of `Legal` on the registers of the encode. -/
structure Registers (s : State) : Prop where
  valid_iff : s.valid = true ↔ s.stage.toNat = 7
  err_idle : s.err = true → s.stage.toNat = 0 ∧ s.ver.toNat = 0
  stage_iff : 1 ≤ s.stage.toNat ↔ 1 ≤ s.ver.toNat ∧ s.ver.toNat ≤ 26
  ver_le : s.ver.toNat ≤ 26
  dlen_full : 2 ≤ s.stage.toNat → s.dlen.toNat = dataBytes s.version
  dlen_partial : s.stage.toNat = 1 → s.dlen.toNat < dataBytes s.version
  dlen_zero : s.stage.toNat = 0 → s.dlen.toNat = 0
  size_eq : s.size.toNat = if 5 ≤ s.stage.toNat then gridSide s.version else 0

/-- The registers before an encode has started. -/
theorem registers_idle {s : State} (hstage : s.stage = 0) (hver : s.ver = 0) (hdlen : s.dlen = 0) (hsize : s.size = 0)
    (hvalid : s.valid = false) : Registers s := by
  constructor <;> simp [hstage, hver, hdlen, hsize, hvalid]

/-- The registers after a version has been chosen. -/
theorem registers_chosen (s : State) {v : Nat} (h1 : 1 ≤ v) (h26 : v ≤ 26) : Registers (s.restart.choose v) := by
  have hver : (s.restart.choose v).ver.toNat = v := State.choose_version _ h26
  have hdata := (dataBytes_bounds h1 h26).1
  constructor <;> simp [hver, -State.choose_ver] <;> omega

/-- From stage 1 on the version is a supported one. -/
theorem Legal.version_bounds {s : State} (hl : Legal s) (h : 1 ≤ s.stage.toNat) : 1 ≤ s.ver.toNat ∧ s.ver.toNat ≤ 26 :=
  hl.stage_iff.1 h

section
variable {s t : State} {k : Nat} (hl : Legal s) (hs : 1 ≤ s.stage.toNat) (ht : t.stage.toNat = k)
  (hver : t.ver = s.ver) (herr : t.err = s.err) (hdlen : t.dlen.toNat = dataBytes s.version)
include hl hs ht hver herr hdlen

/-- The registers of a stage from 2 on, reached from a stage from 1 on. -/
theorem registers_moved (hk : 2 ≤ k) (hvalid : t.valid = true ↔ k = 7)
    (hsize : t.size.toNat = if 5 ≤ k then gridSide s.version else 0) : Registers t := by
  subst ht
  have hversion : t.version = s.version := congrArg BitVec.toNat hver
  refine ⟨hvalid, fun h => ?_, ?_, hver ▸ hl.ver_le, fun _ => hversion ▸ hdlen, fun h => ?_, fun h => ?_,
    hversion ▸ hsize⟩
  · have := hl.err_idle (herr ▸ h)
    omega
  · have := hl.version_bounds hs
    rw [hver]
    omega
  · omega
  · omega

/-- Before `PAINTS` no grid is held. -/
theorem registers_ungridded (hk : 2 ≤ k) (hk5 : k < 5) (hs5 : s.stage.toNat < 5) (hvalid : t.valid = s.valid)
    (hsize : t.size = s.size) : Registers t := by
  refine registers_moved hl hs ht hver herr hdlen hk ?_ ?_
  · rw [hvalid, hl.valid_iff]
    omega
  · rw [hsize, hl.size_eq_zero hs5, if_neg (Nat.not_le.2 hk5)]

end

/-! ## Every body keeps a legal state legal -/

/-- Below stage 3 nothing is said of the buffers (R29). -/
theorem stageHolds_of_early {s : State} (h : s.stage.toNat < 3) : StageHolds s := by
  constructor <;> intro hs <;> omega

/-- A generator just loaded. -/
theorem genPoly_loaded {n : Nat} (h30 : n ≤ 30) (gen : Vector Byte 31) :
    (BitVec.ofNat 5 n).toNat = n ∧ regPrefix (regLoad gen (genPoly n)) (n + 1) = genPoly n := by
  have hlen := length_genPoly n
  refine ⟨Nat.mod_eq_of_lt (by omega), ?_⟩
  rw [← hlen]
  exact regPrefix_regLoad _ _ (by omega)

theorem totalBytes_le_icwMax {v : Nat} (h1 : 1 ≤ v) (h26 : v ≤ 26) : totalBytes v ≤ Config.icwMax := by
  interval_cases v <;> decide

theorem gridSide_bounds {v : Nat} (h1 : 1 ≤ v) (h26 : v ≤ 26) : 21 ≤ gridSide v ∧ gridSide v ≤ 121 := by
  rw [gridSide_eq h1 h26]
  omega

/-- A side fits `SIZE`. -/
theorem toNat_ofNat_gridSide {v : Nat} (h1 : 1 ≤ v) (h26 : v ≤ 26) : (BitVec.ofNat 7 (gridSide v)).toNat = gridSide v :=
  Nat.mod_eq_of_lt ((gridSide_bounds h1 h26).2.trans_lt (by decide))

theorem Legal.size_eq_gridSide {s : State} (hl : Legal s) (h : 5 ≤ s.stage.toNat) :
    s.size.toNat = gridSide s.version := by
  rw [hl.size_eq, if_pos h]

theorem legal_emitRead {s : State} {r : Except Cause Byte} (hl : Legal s) : Yields (s.emitRead r) Legal :=
  yields_emitRead fun _ => { hl with }

theorem legal_reset : Legal State.reset := by
  have hregs : Registers State.reset := registers_idle rfl rfl rfl rfl rfl
  exact { hregs with
    cause_none := fun _ => rfl
    cause_some := fun h => absurd h Bool.false_ne_true
    plen_le := by decide
    nec_le := by decide
    gen_loaded := fun h => absurd rfl h
    pay_wf := rfl
    dcw_wf := rfl
    ecw_wf := rfl
    icw_wf := rfl
    grid_wf := rfl
    pay_within := fun _ h => absurd h List.not_mem_nil
    dcw_within := fun _ h => absurd h List.not_mem_nil
    ecw_within := fun _ h => absurd h List.not_mem_nil
    icw_within := fun _ h => absurd h List.not_mem_nil
    grid_within := fun _ h => absurd h List.not_mem_nil
    tile_le := fun _ h => absurd h List.not_mem_nil }

/-- Settles O54: every register is 0 and no buffer lists a cell. -/
theorem resetStateIsLegal : Obligations.ResetStateIsLegal := by
  unfold Obligations.ResetStateIsLegal
  exact ⟨legal_reset, stageHolds_of_early (by decide)⟩

theorem legal_clear (s : State) : Legal s.clear := { legal_reset with }

section
variable {s : State} (hl : Legal s)
include hl

theorem bodyPushb_legal (k : Byte) : Yields (bodyPushb k s) Legal := by
  refine yields_check fun _ => yields_ite (fun hlt => yields_ok ?_) fun _ => yields_ok ?_
  · have hplen : (s.plen + 1).toNat = s.plen.toNat + 1 := BitVec.toNat_add_of_lt (by simp at *; omega)
    exact { hl with
      plen_le := by simp at *; omega
      pay_wf := Memory.wf_write _ _ hl.pay_wf
      pay_within := Memory.forall_write hl.pay_wf hl.pay_within hlt }
  · exact { hl with plen_le := le_rfl }

theorem dcw_pushed (k : Byte) (hstage : s.stage.toNat = 1) :
    (s.pushed k).dlen.toNat = s.dlen.toNat + 1 ∧ (s.pushed k).dcw.wf = true ∧
      (s.pushed k).dcw.within Config.dcwMax := by
  obtain ⟨h1, h26⟩ := hl.version_bounds hstage.ge
  obtain ⟨-, hmax⟩ := dataBytes_bounds h1 h26
  have hroom : s.dlen.toNat < Config.dcwMax := (hl.dlen_partial hstage).trans_le hmax
  exact ⟨BitVec.toNat_add_of_lt (Nat.lt_of_le_of_lt hroom (by decide)), Memory.wf_write _ _ hl.dcw_wf,
    Memory.forall_write hl.dcw_wf hl.dcw_within hroom⟩

theorem legal_pushed (k : Byte) (hstage : s.stage.toNat = 1) (hpart : (s.pushed k).dlen.toNat ≠ dataBytes s.version) :
    Legal (s.pushed k) := by
  obtain ⟨hdlen, hwf, hwithin⟩ := dcw_pushed hl k hstage
  exact { hl with
    dlen_full := fun h => absurd (hstage ▸ h) (by decide)
    dlen_partial := fun _ => Nat.lt_of_le_of_ne (hdlen.trans_le (hl.dlen_partial hstage)) hpart
    dlen_zero := fun h => absurd (hstage ▸ h) (by decide)
    dcw_wf := hwf
    dcw_within := hwithin }

theorem legal_filled (k : Byte) (hstage : s.stage.toNat = 1) (hfull : (s.pushed k).dlen.toNat = dataBytes s.version) :
    Legal { s.pushed k with stage := 2 } := by
  obtain ⟨-, hwf, hwithin⟩ := dcw_pushed hl k hstage
  have hregs : Registers { s.pushed k with stage := 2 } :=
    registers_ungridded (k := 2) hl hstage.ge rfl rfl rfl hfull le_rfl (by decide) (by omega) rfl rfl
  exact { hregs, hl with dcw_wf := hwf, dcw_within := hwithin }

theorem legal_framed (hstage : s.stage.toNat = 1) (hfit : s.plen.toNat ≤ inputBytes s.version) : Legal s.framed := by
  obtain ⟨h1, h26⟩ := hl.version_bounds hstage.ge
  obtain ⟨-, hmax⟩ := dataBytes_bounds h1 h26
  have hlen : (frameBytes s.version s.payload).length = dataBytes s.version :=
    length_frameBytes _ _ h1 h26 (s.length_payload_le.trans hfit)
  have hdlen : s.framed.dlen.toNat = dataBytes s.version := Nat.mod_eq_of_lt (hmax.trans_lt (by decide))
  have hregs : Registers s.framed :=
    registers_ungridded (k := 2) hl hstage.ge rfl rfl rfl hdlen le_rfl (by decide) (by omega) rfl rfl
  exact { hregs, hl with
    dcw_wf := Memory.wf_writeRange _ _ hl.dcw_wf
    dcw_within := Memory.within_writeRange hl.dcw_within ((Nat.zero_add _).trans_le (hlen.trans_le hmax)) }

theorem bodyRsgen_legal (k : Byte) : Yields (bodyRsgen k s) Legal := by
  refine yields_check fun h => yields_ok ?_
  have h30 : k.toNat ≤ 30 := Nat.not_lt.1 (not_or.1 h).2
  obtain ⟨hnec, hgen⟩ := genPoly_loaded h30 s.gen
  exact { hl with
    nec_le := hnec.trans_le h30
    gen_loaded := fun _ => by simpa only [hnec] using hgen }

/-- The rounds of `ECC` write within the capacity of `ECW`. -/
theorem foldl_eccRound_ecw (h1 : 1 ≤ s.ver.toNat) (h26 : s.ver.toNat ≤ 26) :
    ((List.range (ns s.version)).foldl eccRound s.loadDivider).ecw.wf = true ∧
      ((List.range (ns s.version)).foldl eccRound s.loadDivider).ecw.within (Config.nsMax * Config.necMax) := by
  obtain ⟨-, h30⟩ := ecBytes_bounds h1 h26
  have hns := ns_le_nsMax h1 h26
  refine And.right (List.foldlRecOn (motive := fun t : State => t.version = s.version ∧ t.ecw.wf = true ∧
    t.ecw.within (Config.nsMax * Config.necMax)) _ _ ⟨rfl, hl.ecw_wf, hl.ecw_within⟩ ?_)
  rintro t ⟨hver, hwf, hwithin⟩ k hk
  have hlen := t.length_parity k
  rw [hver] at hlen
  refine ⟨hver, Memory.wf_writeRange _ _ hwf, Memory.within_writeRange hwithin ?_⟩
  change ecwIndex k 0 + (t.parity k).length ≤ _
  rw [hlen]
  simp only [List.mem_range, ecwIndex, Config.nsMax, Config.necMax, State.version_eq] at *
  omega

theorem legal_withParity (hstage : s.stage.toNat = 2) : Legal s.withParity := by
  obtain ⟨h1, h26⟩ := hl.version_bounds (by omega)
  obtain ⟨-, h30⟩ := ecBytes_bounds h1 h26
  obtain ⟨hnec, hgen⟩ := genPoly_loaded h30 s.gen
  obtain ⟨hwf, hwithin⟩ := foldl_eccRound_ecw hl h1 h26
  rw [State.withParity, foldl_eccRound_frame]
  generalize List.foldl eccRound s.loadDivider (List.range (ns s.version)) = t at hwf hwithin ⊢
  have hregs : Registers { s.loadDivider with rem := t.rem, ecw := t.ecw, stage := 3 } :=
    registers_ungridded (k := 3) hl (by omega) rfl rfl rfl (hl.dlen_full (by omega)) (by decide) (by decide) (by omega)
      rfl rfl
  exact { hregs, hl with
    nec_le := hnec.trans_le h30
    gen_loaded := fun _ => hnec.symm ▸ hgen
    ecw_wf := hwf
    ecw_within := hwithin }

theorem legal_interleaved (hstage : s.stage.toNat = 3) : Legal s.interleaved := by
  obtain ⟨h1, h26⟩ := hl.version_bounds (by omega)
  have hlen := length_interleave h1 h26 s.dcw s.ecw
  have hregs : Registers s.interleaved :=
    registers_ungridded (k := 4) hl (by omega) rfl rfl rfl (hl.dlen_full (by omega)) (by decide) (by decide) (by omega)
      rfl rfl
  exact { hregs, hl with
    icw_wf := Memory.wf_writeRange _ _ hl.icw_wf
    icw_within := Memory.within_writeRange hl.icw_within
      ((Nat.zero_add _).trans_le (hlen.trans_le (totalBytes_le_icwMax h1 h26))) }

theorem legal_painted (hstage : s.stage.toNat = 4) : Legal s.painted := by
  obtain ⟨h1, h26⟩ := hl.version_bounds (by omega)
  obtain ⟨-, hmax⟩ := gridSide_bounds h1 h26
  have hsize : s.painted.size.toNat = gridSide s.version := toNat_ofNat_gridSide h1 h26
  have hlen : (structTiles s.version).length ≤ Config.gridMax :=
    (length_structTiles _).trans_le (Nat.mul_le_mul hmax hmax)
  have hvalid : s.valid = true ↔ 5 = 7 := by rw [hl.valid_iff]; omega
  have hregs : Registers s.painted :=
    registers_moved (k := 5) hl (by omega) rfl rfl rfl (hl.dlen_full (by omega)) (by decide) hvalid hsize
  exact { hregs, hl with
    grid_wf := Memory.wf_writeRange _ _ hl.grid_wf
    grid_within := Memory.within_writeRange hl.grid_within (by rwa [Nat.zero_add])
    tile_le := Memory.forall_writeRange hl.tile_le fun _ _ => structTiles_le }

/-- A grid in which tiles of the side held are written stays legal. -/
theorem legal_tiles {ws : List Host.Cell} (hstage : 5 ≤ s.stage.toNat)
    (hws : ∀ w ∈ ws, w.1 < s.size.toNat * s.size.toNat ∧ w.2.toNat ≤ 3) :
    (s.grid.writeMany ws).within Config.gridMax ∧ ∀ c ∈ s.grid.writeMany ws, c.2.toNat ≤ 3 := by
  obtain ⟨h1, h26⟩ := hl.version_bounds (by omega)
  obtain ⟨-, hmax⟩ := gridSide_bounds h1 h26
  rw [hl.size_eq_gridSide hstage] at hws
  refine ⟨Memory.forall_writeMany hl.grid_wf hl.grid_within fun w hw => ?_,
    Memory.forall_writeMany hl.grid_wf hl.tile_le fun w hw => (hws w hw).2⟩
  exact (hws w hw).1.trans_le (Nat.mul_le_mul hmax hmax)

theorem legal_placed (hstage : s.stage.toNat = 5) : Legal s.placed := by
  obtain ⟨h1, h26⟩ := hl.version_bounds (by omega)
  have hsize := hl.size_eq_gridSide hstage.ge
  obtain ⟨hwithin, htile⟩ := legal_tiles hl hstage.ge fun w => placeWrites_cell (icw := s.icw) h1 h26 hsize
  have hvalid : s.valid = true ↔ 6 = 7 := by rw [hl.valid_iff]; omega
  have hregs : Registers s.placed :=
    registers_moved (k := 6) hl (by omega) rfl rfl rfl (hl.dlen_full (by omega)) (by decide) hvalid hsize
  exact { hregs, hl with
    grid_wf := Memory.wf_writeMany _ hl.grid_wf
    grid_within := hwithin
    tile_le := htile }

/-- Stated for any grid `g`: with the writes of `FMT` in its place, the unifier would run them. -/
theorem legal_completed {g : Memory} (hstage : s.stage.toNat = 6) (hwf : g.wf = true)
    (hwithin : g.within Config.gridMax) (htile : ∀ c ∈ g, c.2.toNat ≤ 3) :
    Legal ({ s with grid := g } : State).complete := by
  have hregs : Registers ({ s with grid := g } : State).complete :=
    registers_moved (k := 7) hl (by omega) rfl rfl rfl (hl.dlen_full (by omega)) (by decide) (by simp)
      (hl.size_eq_gridSide (by omega))
  exact { hregs, hl with
    grid_wf := hwf
    grid_within := hwithin
    tile_le := htile }

theorem legal_formatted (hstage : s.stage.toNat = 6) : Legal s.formatted := by
  obtain ⟨h1, h26⟩ := hl.version_bounds (by omega)
  have hsize := hl.size_eq_gridSide (by omega)
  obtain ⟨hmin, -⟩ := gridSide_bounds h1 h26
  obtain ⟨hwithin, htile⟩ := legal_tiles hl (by omega) fun w => formatWrites_cell (hmin.trans_eq hsize.symm)
  exact legal_completed hl hstage (Memory.wf_writeMany _ hl.grid_wf) hwithin htile

theorem bodyFrame_legal : Yields (bodyFrame s) Legal :=
  yields_check fun hseq => yields_check fun hfit => yields_ok <|
    legal_framed hl (congrArg BitVec.toNat (not_not.1 (not_or.1 hseq).1)) (Nat.not_lt.1 hfit)

theorem bodyPushd_legal (k : Byte) : Yields (bodyPushd k s) Legal :=
  yields_check fun hseq =>
    have hstage : s.stage.toNat = 1 := congrArg BitVec.toNat (not_not.1 hseq)
    yields_ite (fun hfull => yields_ok (legal_filled hl k hstage hfull)) fun hpart =>
      yields_ok (legal_pushed hl k hstage hpart)

theorem bodyEcc_legal : Yields (bodyEcc s) Legal := yields_atStage (legal_withParity hl)

theorem bodyIlv_legal : Yields (bodyIlv s) Legal := yields_atStage (legal_interleaved hl)

theorem bodyPaints_legal : Yields (bodyPaints s) Legal := yields_atStage (legal_painted hl)

theorem bodyPlace_legal : Yields (bodyPlace s) Legal := yields_atStage (legal_placed hl)

theorem bodyFmt_legal : Yields (bodyFmt s) Legal := yields_atStage (legal_formatted hl)

theorem bodySelect_legal : Yields (bodySelect s) Legal := by
  cases h : selectVersion s.plen.toNat with
  | some v =>
    obtain ⟨h1, h26, -⟩ := selectVersion_some h
    have hregs := registers_chosen s h1 h26
    rw [bodySelect_of_some h]
    exact yields_ok { hregs, hl with }
  | none =>
    have hregs : Registers s.restart.capacityExceeded := registers_idle rfl rfl rfl rfl rfl
    rw [bodySelect_of_none h]
    exact yields_ok { hregs, hl with }

theorem bodySetver_legal (k : Byte) : Yields (bodySetver k s) Legal := by
  refine yields_check fun h => ?_
  obtain ⟨h1, h26⟩ := not_or.1 h
  have hregs := registers_chosen s (Nat.not_lt.1 h1) (Nat.not_lt.1 h26)
  exact yields_ok { hregs, hl with }

theorem bodyGflog_legal (k : Byte) : Yields (bodyGflog k s) Legal := by
  cases h : gfLog k with
  | none =>
    rw [bodyGflog_of_none h]
    exact yields_error
  | some i =>
    rw [bodyGflog_of_some h]
    exact yields_ok { hl with }

theorem bodyVinfo_legal (v f : Byte) : Yields (bodyVinfo v f s) Legal := by
  refine yields_check fun _ => ?_
  cases vi v.toNat with
  | none => exact yields_ok { hl with }
  | some r => exact yields_ok { hl with }

end

theorem encodeBody_legal {s : State} (hl : Legal s) : Yields (encodeBody s) Legal :=
  yields_bind (bodyFrame_legal hl) fun _ hl => yields_bind (bodyEcc_legal hl) fun _ hl =>
    yields_bind (bodyIlv_legal hl) fun _ hl => yields_bind (bodyPaints_legal hl) fun _ hl =>
    yields_bind (bodyPlace_legal hl) fun _ hl => bodyFmt_legal hl

theorem bodyGenerate_legal {s : State} (hl : Legal s) : Yields (bodyGenerate s) Legal :=
  yields_bind (bodySelect_legal hl) fun _ hl => yields_ite (fun _ => yields_ok hl) fun _ => encodeBody_legal hl

theorem bodyOf_legal (i : Instr) (s : State) (hl : Legal s) : Yields (bodyOf i s) Legal := by
  cases i with
  | nop => exact yields_ok hl
  | reset => exact yields_ok (legal_clear s)
  | rdstat | rdsize | rdplen | rddlen | rdgp | gfmul | gfmula | gfexp => exact yields_ok { hl with }
  | rdtile | rdcw | rddcw | rdec | rdrem | rdgen => exact legal_emitRead hl
  | gfinv | rsclr | rsfeed => exact yields_check fun _ => yields_ok { hl with }
  | pushb k => exact bodyPushb_legal hl k
  | pushd k => exact bodyPushd_legal hl k
  | gflog k => exact bodyGflog_legal hl k
  | rsgen k => exact bodyRsgen_legal hl k
  | select => exact bodySelect_legal hl
  | setver k => exact bodySetver_legal hl k
  | vinfo v f => exact bodyVinfo_legal hl v f
  | frame => exact bodyFrame_legal hl
  | ecc => exact bodyEcc_legal hl
  | ilv => exact bodyIlv_legal hl
  | paints => exact bodyPaints_legal hl
  | place => exact bodyPlace_legal hl
  | fmt => exact bodyFmt_legal hl
  | generate => exact bodyGenerate_legal hl

theorem legal_advance (s : State) (hl : Legal s) : Legal s.advance := { hl with }

theorem legal_raiseFault (s : State) (c : Cause) (hl : Legal s) : Legal (s.raiseFault c) :=
  { hl with
    cause_none := fun h => absurd h Bool.true_eq_false.mp
    cause_some := fun _ => c.code_bounds }

/-- Settles O55: every body keeps a legal state legal, and so do a fault and the advance of `pc`. -/
theorem everyStepKeepsTheStateLegal : Obligations.EveryStepKeepsTheStateLegal := by
  unfold Obligations.EveryStepKeepsTheStateLegal
  exact fun _ _ => step_keeps legal_advance legal_raiseFault bodyOf_legal

end Sys2Proof.Machine

/-! Every step keeps what the stage says the buffers hold (R29). Each part of an encode establishes what its stage adds
and keeps what the stages before it hold. -/

namespace Sys2Proof.Machine

open Claims

/-! ## What each part of an encode adds (R29) -/

theorem paintedGrid_wf (v : Nat) : (paintedGrid v).wf = true := Memory.wf_writeRange _ _ Memory.wf_nil

theorem placedGrid_wf (v : Nat) (icw : Memory) : (placedGrid v icw).wf = true :=
  Memory.wf_writeMany _ (paintedGrid_wf v)

/-- The rounds of `ECC` leave the parity of every segment. -/
theorem stageHolds_withParity {s : State} (h1 : 1 ≤ s.ver.toNat) (h26 : s.ver.toNat ≤ 26) :
    StageHolds s.withParity := by
  obtain ⟨-, h30⟩ := ecBytes_bounds h1 h26
  obtain ⟨hframe, hparity, -⟩ := eccRounds_foldl (s := s.loadDivider) h30 (ns s.version)
  rw [State.withParity, hframe]
  exact ⟨fun _ => hparity, fun h => absurd h (by simp), fun h => absurd h (by simp), fun h => absurd h (by simp),
    fun h => absurd h (by simp)⟩

section
variable {s : State} (hs : StageHolds s)
include hs

theorem stageHolds_interleaved (h1 : 1 ≤ s.ver.toNat) (h26 : s.ver.toNat ≤ 26) (hstage : s.stage.toNat = 3) :
    StageHolds s.interleaved where
  ecw_holds _ := hs.ecw_holds hstage.ge
  icw_holds _ := by
    have hlen := length_interleave h1 h26 s.dcw s.ecw
    have hread := Memory.readRange_writeRange s.icw 0 (interleave s.version s.dcw s.ecw)
    rwa [State.version_eq, hlen] at hread
  painted h := absurd h (by simp [State.interleaved])
  placed h := absurd h (by simp [State.interleaved])
  finished h := absurd h (by simp [State.interleaved])

theorem stageHolds_painted (hstage : s.stage.toNat = 4) : StageHolds s.painted where
  ecw_holds _ := hs.ecw_holds (by omega)
  icw_holds _ := hs.icw_holds hstage.ge
  painted _ i hi := by
    have hlt : i < (structTiles s.version).length := hi.trans_eq (length_structTiles s.version).symm
    exact (Memory.read_writeRange_of_lt _ hlt).trans (Memory.read_writeRange_of_lt _ hlt).symm
  placed h := absurd h (by simp [State.painted])
  finished h := absurd h (by simp [State.painted])

theorem stageHolds_placed (hwf : s.grid.wf = true) (hsize : s.size.toNat = gridSide s.version)
    (hstage : s.stage.toNat = 5) : StageHolds s.placed where
  ecw_holds _ := hs.ecw_holds (by omega)
  icw_holds _ := hs.icw_holds (by omega)
  painted h := absurd h (by simp [State.placed])
  placed _ i hi := by
    change (s.grid.writeMany (placeWrites s.version s.size.toNat s.icw)).read i = _
    rw [hsize]
    exact Memory.read_writeMany_congr hwf (paintedGrid_wf s.version) (hs.painted hstage i hi)
  finished h := absurd h (by simp [State.placed])

/-- Stated for any grid `g`: with the writes of `FMT` in its place, the unifier would run them. -/
theorem stageHolds_completed {g : Memory} (hstage : s.stage.toNat = 6)
    (hg : ∀ i < gridSide s.version * gridSide s.version, g.read i = (finishedGrid s.version s.icw).read i) :
    StageHolds ({ s with grid := g } : State).complete where
  ecw_holds _ := hs.ecw_holds (by omega)
  icw_holds _ := hs.icw_holds (by omega)
  painted h := absurd h (by simp)
  placed h := absurd h (by simp)
  finished _ := hg

theorem stageHolds_formatted (hwf : s.grid.wf = true) (hsize : s.size.toNat = gridSide s.version)
    (hstage : s.stage.toNat = 6) : StageHolds s.formatted := by
  refine stageHolds_completed hs hstage fun i hi => ?_
  rw [hsize]
  exact Memory.read_writeMany_congr hwf (placedGrid_wf s.version s.icw) (hs.placed hstage i hi)

end

/-! ## Every body keeps what the stage holds -/

theorem stageHolds_emitRead {s : State} {r : Except Cause Byte} (hs : StageHolds s) :
    Yields (s.emitRead r) StageHolds :=
  yields_emitRead fun _ => { hs with }

theorem bodySelect_stageHolds (s : State) : Yields (bodySelect s) StageHolds := by
  cases h : selectVersion s.plen.toNat with
  | some v =>
    rw [bodySelect_of_some h]
    exact yields_ok (stageHolds_of_early (by simp))
  | none =>
    rw [bodySelect_of_none h]
    exact yields_ok (stageHolds_of_early (by simp))

theorem bodyPushd_stageHolds (k : Byte) (s : State) : Yields (bodyPushd k s) StageHolds :=
  yields_check fun hseq =>
    have hstage : s.stage = 1 := not_not.1 hseq
    yields_ite (fun _ => yields_ok (stageHolds_of_early (by simp))) fun _ =>
      yields_ok (stageHolds_of_early (by simp [hstage]))

theorem bodyFrame_stageHolds (s : State) : Yields (bodyFrame s) StageHolds :=
  yields_check fun _ => yields_check fun _ => yields_ok (stageHolds_of_early (by simp))

theorem bodyPushb_stageHolds {s : State} (hs : StageHolds s) (k : Byte) : Yields (bodyPushb k s) StageHolds :=
  yields_check fun _ => yields_ite (fun _ => yields_ok { hs with }) fun _ => yields_ok { hs with }

theorem bodyGflog_stageHolds {s : State} (hs : StageHolds s) (k : Byte) : Yields (bodyGflog k s) StageHolds := by
  cases h : gfLog k with
  | none =>
    rw [bodyGflog_of_none h]
    exact yields_error
  | some i =>
    rw [bodyGflog_of_some h]
    exact yields_ok { hs with }

theorem bodyVinfo_stageHolds {s : State} (hs : StageHolds s) (v f : Byte) : Yields (bodyVinfo v f s) StageHolds := by
  refine yields_check fun _ => ?_
  cases vi v.toNat with
  | none => exact yields_ok { hs with }
  | some r => exact yields_ok { hs with }

section
variable {s : State} (hl : Legal s)
include hl

theorem bodyEcc_stageHolds : Yields (bodyEcc s) StageHolds :=
  yields_atStage fun hstage =>
    have ⟨h1, h26⟩ := hl.version_bounds (hstage.ge.trans' (by decide))
    stageHolds_withParity h1 h26

variable (hs : StageHolds s)
include hs

theorem bodyIlv_stageHolds : Yields (bodyIlv s) StageHolds :=
  yields_atStage fun hstage =>
    have ⟨h1, h26⟩ := hl.version_bounds (hstage.ge.trans' (by decide))
    stageHolds_interleaved hs h1 h26 hstage

omit hl in
theorem bodyPaints_stageHolds : Yields (bodyPaints s) StageHolds := yields_atStage (stageHolds_painted hs)

theorem bodyPlace_stageHolds : Yields (bodyPlace s) StageHolds :=
  yields_atStage fun hstage =>
    stageHolds_placed hs hl.grid_wf (hl.size_eq_gridSide (hstage.ge.trans' (by decide))) hstage

theorem bodyFmt_stageHolds : Yields (bodyFmt s) StageHolds :=
  yields_atStage fun hstage =>
    stageHolds_formatted hs hl.grid_wf (hl.size_eq_gridSide (hstage.ge.trans' (by decide))) hstage

end

/-- The property that a step keeps: legal, and the buffers hold what the stage says. -/
def Sound (s : State) : Prop := Legal s ∧ StageHolds s

theorem Yields.and {Q R : State → Prop} {r : Except Cause State} (hq : Yields r Q) (hr : Yields r R) :
    Yields r fun t => Q t ∧ R t := fun t ht => ⟨hq t ht, hr t ht⟩

theorem encodeBody_sound {s : State} (hl : Legal s) : Yields (encodeBody s) Sound :=
  yields_bind ((bodyFrame_legal hl).and (bodyFrame_stageHolds s)) fun _ ⟨hl, _⟩ =>
    yields_bind ((bodyEcc_legal hl).and (bodyEcc_stageHolds hl)) fun _ ⟨hl, hs⟩ =>
    yields_bind ((bodyIlv_legal hl).and (bodyIlv_stageHolds hl hs)) fun _ ⟨hl, hs⟩ =>
    yields_bind ((bodyPaints_legal hl).and (bodyPaints_stageHolds hs)) fun _ ⟨hl, hs⟩ =>
    yields_bind ((bodyPlace_legal hl).and (bodyPlace_stageHolds hl hs)) fun _ ⟨hl, hs⟩ =>
    (bodyFmt_legal hl).and (bodyFmt_stageHolds hl hs)

theorem bodyGenerate_sound {s : State} (hl : Legal s) : Yields (bodyGenerate s) Sound :=
  yields_bind ((bodySelect_legal hl).and (bodySelect_stageHolds s)) fun _ h =>
    yields_ite (fun _ => yields_ok h) fun _ => encodeBody_sound h.1

theorem bodyOf_stageHolds (i : Instr) {s : State} (hl : Legal s) (hs : StageHolds s) :
    Yields (bodyOf i s) StageHolds := by
  cases i with
  | nop => exact yields_ok hs
  | reset => exact yields_ok (stageHolds_of_early (Nat.zero_lt_succ 2))
  | rdstat | rdsize | rdplen | rddlen | rdgp | gfmul | gfmula | gfexp => exact yields_ok { hs with }
  | rdtile | rdcw | rddcw | rdec | rdrem | rdgen => exact stageHolds_emitRead hs
  | gfinv | rsgen | rsclr | rsfeed => exact yields_check fun _ => yields_ok { hs with }
  | pushb k => exact bodyPushb_stageHolds hs k
  | pushd k => exact bodyPushd_stageHolds k s
  | gflog k => exact bodyGflog_stageHolds hs k
  | vinfo v f => exact bodyVinfo_stageHolds hs v f
  | select => exact bodySelect_stageHolds s
  | setver => exact yields_check fun _ => yields_ok (stageHolds_of_early (by simp))
  | frame => exact bodyFrame_stageHolds s
  | ecc => exact bodyEcc_stageHolds hl
  | ilv => exact bodyIlv_stageHolds hl hs
  | paints => exact bodyPaints_stageHolds hs
  | place => exact bodyPlace_stageHolds hl hs
  | fmt => exact bodyFmt_stageHolds hl hs
  | generate => exact (bodyGenerate_sound hl).mono fun _ h => h.2

/-- Settles O56: each part of an encode adds what its stage holds, a start of an encode leaves nothing to hold, and no
other command touches the buffers of the encode. -/
theorem everyStepKeepsWhatTheStageHolds : Obligations.EveryStepKeepsWhatTheStageHolds := by
  unfold Obligations.EveryStepKeepsWhatTheStageHolds
  intro s t hl hs h
  have hsound : Sound t := step_keeps (fun s h => ⟨legal_advance s h.1, { h.2 with }⟩)
    (fun s c h => ⟨legal_raiseFault s c h.1, { h.2 with }⟩)
    (fun i s h => (bodyOf_legal i s h.1).and (bodyOf_stageHolds i h.1 h.2)) ⟨hl, hs⟩ h
  exact hsound.2

end Sys2Proof.Machine

/-! Proofs of 47_generate.md. `GENERATE` runs the bodies of the pipeline one after the other (`runBodies`), in closed
form from the state the selection leaves (`State.encoded`); what that state holds is a function of the payload
(`Encoding`). -/

namespace Sys2Proof.Machine

open Claims

/-! ## Bodies one after the other -/

/-- The bodies of a list of commands, one after the other. -/
def runBodies : List Instr → Body
  | [], s => pure s
  | i :: is, s => bodyOf i s >>= runBodies is

theorem ok_bind (t : State) (b : Body) : (Except.ok t >>= b) = b t := rfl

theorem runBodies_ignoresStream (is : List Instr) : IgnoresStream (runBodies is) := by
  induction is with
  | nil => exact ignoresStream_ok fun _ _ _ => rfl
  | cons i is ih => exact ignoresStream_bind (bodyOf_ignoresStream i) ih

/-- The commands of a list leave what their bodies do, but that `pc` counts them. -/
theorem execAll_of_runBodies {is : List Instr} {s t : State} (hf : s.fault = false) (h : runBodies is s = .ok t) :
    execAll is s = some (t.withStream (s.pc + is.length) s.cmds) := by
  induction is generalizing s t with
  | nil =>
    obtain rfl := Except.ok.inj h
    rfl
  | cons i is ih =>
    cases hi : bodyOf i s with
    | error c =>
      rw [runBodies, hi] at h
      cases h
    | ok u =>
      rw [runBodies, hi, ok_bind] at h
      have hexec := exec_of_ok (acts_of_not_fault hf i) hi
      obtain ⟨-, huf⟩ := (hi ▸ bodyOf_raises i hf).of_ok
      obtain ⟨hpc, hcmds⟩ := exec_pc_cmds hexec
      have hrest : runBodies is u.advance = .ok (t.withStream (u.pc + 1) u.cmds) := by
        have hstream := runBodies_ignoresStream is u (u.pc + 1) u.cmds
        rwa [h] at hstream
      have hlen : s.pc + 1 + is.length = s.pc + (is.length + 1) := by omega
      simp only [execAll, hexec, ih (s := u.advance) huf hrest, hpc, hcmds, List.length_cons, ← hlen]
      rfl

/-! ## The state that the parts of an encode leave (R200) -/

/-- After the six parts that follow the selection. -/
def State.encoded (s : State) : State := s.framed.withParity.interleaved.painted.placed.formatted

theorem encodeBody_eq_runBodies (s : State) :
    encodeBody s = runBodies [.frame, .ecc, .ilv, .paints, .place, .fmt] s := by
  simp [encodeBody, runBodies, bodyOf]

/-- From stage 1, with nothing loaded and a payload that fits, no part raises a fault. -/
theorem encodeBody_eq {s : State} (hstage : s.stage = 1) (hdlen : s.dlen = 0)
    (hfit : s.plen.toNat ≤ inputBytes s.version) : encodeBody s = .ok s.encoded := by
  have hframe : bodyFrame s = .ok s.framed :=
    bodyFrame_of_fits (congrArg BitVec.toNat hstage) (congrArg BitVec.toNat hdlen) hfit
  have hecc (s : State) (h : s.stage = 2) : bodyEcc s = .ok s.withParity := if_neg (not_not.2 h)
  have hilv (s : State) (h : s.stage = 3) : bodyIlv s = .ok s.interleaved := if_neg (not_not.2 h)
  have hpaints (s : State) (h : s.stage = 4) : bodyPaints s = .ok s.painted := if_neg (not_not.2 h)
  have hplace (s : State) (h : s.stage = 5) : bodyPlace s = .ok s.placed := if_neg (not_not.2 h)
  have hfmt (s : State) (h : s.stage = 6) : bodyFmt s = .ok s.formatted := if_neg (not_not.2 h)
  simp only [encodeBody, hframe, ok_bind]
  rw [hecc _ rfl, ok_bind, hilv _ rfl, ok_bind, hpaints _ rfl, ok_bind, hplace _ rfl, ok_bind, hfmt _ rfl]
  rfl

/-! ## What the encoded state holds -/

theorem State.withParity_eq (s : State) :
    s.withParity = { s.loadDivider with rem := s.withParity.rem, ecw := s.withParity.ecw, stage := 3 } := by
  conv_lhs => rw [State.withParity, foldl_eccRound_frame]
  rfl

section
variable (s : State)

@[simp] theorem State.withParity_ver : s.withParity.ver = s.ver :=
  (congrArg State.ver s.withParity_eq).trans rfl
@[simp] theorem State.withParity_dlen : s.withParity.dlen = s.dlen :=
  (congrArg State.dlen s.withParity_eq).trans rfl
@[simp] theorem State.withParity_err : s.withParity.err = s.err :=
  (congrArg State.err s.withParity_eq).trans rfl
@[simp] theorem State.withParity_dcw : s.withParity.dcw = s.dcw :=
  (congrArg State.dcw s.withParity_eq).trans rfl
@[simp] theorem State.withParity_grid : s.withParity.grid = s.grid :=
  (congrArg State.grid s.withParity_eq).trans rfl
@[simp] theorem State.withParity_nec : s.withParity.nec = BitVec.ofNat 5 (ecBytes s.version) :=
  (congrArg State.nec s.withParity_eq).trans rfl
@[simp] theorem State.withParity_gen : s.withParity.gen = regLoad s.gen (genPoly (ecBytes s.version)) :=
  (congrArg State.gen s.withParity_eq).trans rfl

end

/-- The last round of `ECC` leaves its parity in `REM`. -/
theorem rem_withParity {s : State} (h1 : 1 ≤ s.ver.toNat) (h26 : s.ver.toNat ≤ 26) :
    regPrefix s.withParity.rem (ecBytes s.version) = s.parity (ns s.version - 1) := by
  obtain ⟨-, h30⟩ := ecBytes_bounds h1 h26
  have hlast := (eccRounds_foldl (s := s.loadDivider) h30 (ns s.version)).last (ns s.version - 1)
  have hpos := ns_pos h1 h26
  exact hlast (by rw [State.version_eq]; omega)

/-- Stage `k`, from 2 on, of an encode of the payload `p` in version `v` that found `g` in `GRID`: what is held there
rests on the canonical form of `g`. -/
structure Encoding (v : Nat) (p : List Byte) (g : Memory) (k : Nat) (t : State) : Prop where
  stage : t.stage.toNat = k
  ver : t.ver.toNat = v
  valid : k = 7 → t.valid = true
  err : t.err = false
  dlen : t.dlen = BitVec.ofNat 11 (dataBytes v)
  dcw : t.dcw.readRange 0 (dataBytes v) = frameBytes v p
  loaded : 3 ≤ k → t.nec = BitVec.ofNat 5 (ecBytes v) ∧ regPrefix t.gen (ecBytes v + 1) = genPoly (ecBytes v) ∧
    regPrefix t.rem (ecBytes v) = rsEncode (segmentData t.dcw v (ns v - 1)) (ecBytes v)
  size : 5 ≤ k → t.size = BitVec.ofNat 7 (gridSide v)
  grid_wf : g.wf = true → t.grid.wf = true
  holds : g.wf = true → StageHolds t

/-- Stated for any grid `m`: with the writes of `FMT` in its place, the unifier would run them. -/
theorem Encoding.completed {v : Nat} {p : List Byte} {g : Memory} {s : State} {m : Memory} (h : Encoding v p g 6 s)
    (hwf : g.wf = true → m.wf = true) (hholds : g.wf = true → StageHolds ({ s with grid := m } : State).complete) :
    Encoding v p g 7 ({ s with grid := m } : State).complete :=
  { h with
    stage := rfl
    loaded := fun _ => h.loaded (by decide)
    size := fun _ => h.size (by decide)
    valid := fun _ => rfl
    grid_wf := hwf
    holds := hholds }

section
variable {v : Nat} {p : List Byte} {g : Memory} (h1 : 1 ≤ v) (h26 : v ≤ 26)
include h1 h26

theorem encoding_framed {s : State} (hver : s.ver.toNat = v) (herr : s.err = false)
    (hfit : s.plen.toNat ≤ inputBytes v) : Encoding v s.payload s.grid 2 s.framed := by
  subst hver
  have hlen : (frameBytes s.version s.payload).length = dataBytes s.version :=
    length_frameBytes _ _ h1 h26 (s.length_payload_le.trans hfit)
  have hdcw : s.framed.dcw.readRange 0 (dataBytes s.version) = frameBytes s.version s.payload := by
    rw [← hlen]
    exact Memory.readRange_writeRange ..
  exact {
    stage := rfl
    ver := rfl
    valid := fun h => absurd h (by decide)
    err := herr
    dlen := rfl
    dcw := hdcw
    loaded := fun h => absurd h (by decide)
    size := fun h => absurd h (by decide)
    grid_wf := id
    holds := fun _ => stageHolds_of_early (Nat.lt_succ_self 2) }

theorem Encoding.withParity {s : State} (h : Encoding v p g 2 s) : Encoding v p g 3 s.withParity := by
  obtain rfl := h.ver
  obtain ⟨-, h30⟩ := ecBytes_bounds h1 h26
  exact { h with
    stage := rfl
    ver := by rw [State.withParity_ver]
    valid := fun h => absurd h (by decide)
    err := by rw [State.withParity_err, h.err]
    dlen := by rw [State.withParity_dlen, h.dlen]
    dcw := by rw [State.withParity_dcw, h.dcw]
    loaded := fun _ => by
      rw [State.withParity_nec, State.withParity_gen, State.withParity_dcw]
      exact ⟨rfl, (genPoly_loaded h30 _).2, rem_withParity h1 h26⟩
    size := fun h => absurd h (by decide)
    grid_wf := fun hg => by rw [State.withParity_grid, h.grid_wf hg]
    holds := fun _ => stageHolds_withParity h1 h26 }

theorem Encoding.interleaved {s : State} (h : Encoding v p g 3 s) : Encoding v p g 4 s.interleaved := by
  obtain rfl := h.ver
  exact { h with
    stage := rfl
    loaded := fun _ => h.loaded le_rfl
    size := fun h => absurd h (by decide)
    valid := fun h => absurd h (by decide)
    holds := fun hg => stageHolds_interleaved (h.holds hg) h1 h26 h.stage }

theorem Encoding.painted {s : State} (h : Encoding v p g 4 s) : Encoding v p g 5 s.painted := by
  obtain rfl := h.ver
  exact { h with
    stage := rfl
    loaded := fun _ => h.loaded (by decide)
    size := fun _ => rfl
    grid_wf := fun hg => Memory.wf_writeRange _ _ (h.grid_wf hg)
    valid := fun h => absurd h (by decide)
    holds := fun hg => stageHolds_painted (h.holds hg) h.stage }

theorem Encoding.size_eq {s : State} {k : Nat} (hk : 5 ≤ k) (h : Encoding v p g k s) :
    s.size.toNat = gridSide s.version := by
  rw [h.size hk, State.version_eq, h.ver, toNat_ofNat_gridSide h1 h26]

theorem Encoding.placed {s : State} (h : Encoding v p g 5 s) : Encoding v p g 6 s.placed :=
  { h with
    stage := rfl
    loaded := fun _ => h.loaded (by decide)
    size := fun _ => h.size le_rfl
    grid_wf := fun hg => Memory.wf_writeMany _ (h.grid_wf hg)
    valid := fun h => absurd h (by decide)
    holds := fun hg => stageHolds_placed (h.holds hg) (h.grid_wf hg) (h.size_eq h1 h26 le_rfl) h.stage }

theorem Encoding.formatted {s : State} (h : Encoding v p g 6 s) : Encoding v p g 7 s.formatted :=
  h.completed (fun hg => Memory.wf_writeMany _ (h.grid_wf hg)) fun hg =>
    stageHolds_formatted (h.holds hg) (h.grid_wf hg) (h.size_eq h1 h26 (by decide)) h.stage

theorem encoding_encoded {s : State} (hver : s.ver.toNat = v) (herr : s.err = false)
    (hfit : s.plen.toNat ≤ inputBytes v) : Encoding v s.payload s.grid 7 s.encoded :=
  have hframed := encoding_framed h1 h26 hver herr hfit
  ((((hframed.withParity h1 h26).interleaved h1 h26).painted h1 h26).placed h1 h26).formatted h1 h26

end


/-! ## What the buffers hold is a function of what they were made from -/

theorem Memory.read_eq_of_readRange_eq {m n : Memory} {i k j : Nat} (h : m.readRange i k = n.readRange i k)
    (hj : j < k) : m.read (i + j) = n.read (i + j) := by
  have hget := congrArg (fun l : List Byte => l[j]?) h
  rw [Memory.getElem?_readRange _ _ _ _ hj, Memory.getElem?_readRange _ _ _ _ hj] at hget
  exact Option.some.inj hget

/-- A segment lies within the data codewords (R114). -/
theorem segOff_add_segLen_le {v k : Nat} (hk : k < ns v) : segOff v k + segLen v k ≤ dataBytes v := by
  have hmul (a b c : Nat) (h : a < b) : a * c + c ≤ b * c := by
    rw [← Nat.succ_mul]
    exact Nat.mul_le_mul_right c h
  unfold segOff segLen dataBytes
  unfold ns at hk
  split
  case isTrue h =>
    have := hmul k _ (info v).segmentDataBytes h
    omega
  case isFalse h =>
    have := hmul (k - (info v).numSegments) (info v).numSegments1 (info v).segmentDataBytes1 (by omega)
    omega

section
variable {v : Nat} {dcw dcw' : Memory} (hdcw : ∀ i < dataBytes v, dcw.read i = dcw'.read i)
include hdcw

theorem segmentData_congr {k : Nat} (hk : k < ns v) : segmentData dcw v k = segmentData dcw' v k :=
  Memory.readRange_congr fun j hj => hdcw _ (by have := segOff_add_segLen_le hk; omega)

theorem dataColumns_congr : dataColumns v dcw = dataColumns v dcw' := by
  refine List.flatMap_congr fun i _ => List.map_congr_left fun s hs => hdcw _ ?_
  obtain ⟨hs, hi⟩ := List.mem_filter.1 hs
  have := segOff_add_segLen_le (List.mem_range.1 hs)
  have := of_decide_eq_true hi
  omega

theorem interleave_congr {ecw ecw' : Memory}
    (hecw : ∀ k < ns v, ∀ i < ecBytes v, ecw.read (ecwIndex k i) = ecw'.read (ecwIndex k i)) :
    interleave v dcw ecw = interleave v dcw' ecw' := by
  have hparity : parityColumns v ecw = parityColumns v ecw' :=
    List.flatMap_congr fun i hi => List.map_congr_left fun s hs => hecw s (List.mem_range.1 hs) i (List.mem_range.1 hi)
  rw [interleave, interleave, dataColumns_congr hdcw, hparity]

end

theorem placeWrites_congr {v n : Nat} {icw icw' : Memory} (h : ∀ i < totalBytes v, icw.read i = icw'.read i) :
    placeWrites v n icw = placeWrites v n icw' := by
  have hbits : streamBits v icw = streamBits v icw' := List.map_congr_left fun k hk => by
    rw [streamBit, streamBit, h (k / 8) (by have := List.mem_range.1 hk; omega)]
  rw [placeWrites, placeWrites, hbits]

theorem finishedGrid_congr {v : Nat} {icw icw' : Memory} (h : ∀ i < totalBytes v, icw.read i = icw'.read i) :
    finishedGrid v icw = finishedGrid v icw' := by
  rw [finishedGrid, finishedGrid, placedGrid, placedGrid, placeWrites_congr h]

/-- Two states that agree on the registers and the readable contents of an encode and of the divider. -/
structure SameEncode (t u : State) : Prop where
  ver : t.ver = u.ver
  dlen : t.dlen = u.dlen
  size : t.size = u.size
  stage : t.stage = u.stage
  valid : t.valid = u.valid
  err : t.err = u.err
  nec : t.nec = u.nec
  gen : regPrefix t.gen (t.nec.toNat + 1) = regPrefix u.gen (t.nec.toNat + 1)
  rem : regPrefix t.rem t.nec.toNat = regPrefix u.rem t.nec.toNat
  dcw : ∀ i < t.dlen.toNat, t.dcw.read i = u.dcw.read i
  ecw : ∀ k < ns t.version, ∀ i < ecBytes t.version, t.ecw.read (ecwIndex k i) = u.ecw.read (ecwIndex k i)
  icw : ∀ i < totalBytes t.version, t.icw.read i = u.icw.read i
  grid : ∀ i < t.size.toNat * t.size.toNat, t.grid.read i = u.grid.read i

section
variable {v : Nat} {p : List Byte} {t u : State} (h1 : 1 ≤ v) (h26 : v ≤ 26) {g g' : Memory}
  (hg : g.wf = true) (hg' : g'.wf = true) (ht : Encoding v p g 7 t) (hu : Encoding v p g' 7 u)
include h1 h26 hg hg' ht hu

/-- A complete encode is fixed by the version and the payload. -/
theorem Encoding.sameEncode : SameEncode t u := by
  have hdcw (i : Nat) (hi : i < dataBytes v) : t.dcw.read i = u.dcw.read i := by
    have := Memory.read_eq_of_readRange_eq (ht.dcw.trans hu.dcw.symm) hi
    rwa [Nat.zero_add] at this
  have hecw (k : Nat) (hk : k < ns v) (i : Nat) (hi : i < ecBytes v) :
      t.ecw.read (ecwIndex k i) = u.ecw.read (ecwIndex k i) := by
    have htk := (ht.holds hg).ecw_holds (ht.stage.ge.trans' (by decide)) k
    have huk := (hu.holds hg').ecw_holds (hu.stage.ge.trans' (by decide)) k
    rw [State.version_eq, ht.ver] at htk
    rw [State.version_eq, hu.ver] at huk
    rw [← segmentData_congr hdcw hk] at huk
    have := Memory.read_eq_of_readRange_eq ((htk hk).trans (huk hk).symm) hi
    rwa [ecwIndex, Nat.add_zero] at this
  have hicw (i : Nat) (hi : i < totalBytes v) : t.icw.read i = u.icw.read i := by
    have hti := (ht.holds hg).icw_holds (ht.stage.ge.trans' (by decide))
    have hui := (hu.holds hg').icw_holds (hu.stage.ge.trans' (by decide))
    rw [State.version_eq, ht.ver] at hti
    rw [State.version_eq, hu.ver, ← interleave_congr hdcw hecw] at hui
    have := Memory.read_eq_of_readRange_eq (hti.trans hui.symm) hi
    rwa [Nat.zero_add] at this
  have hgrid (i : Nat) (hi : i < gridSide v * gridSide v) : t.grid.read i = u.grid.read i := by
    have htg := (ht.holds hg).finished ht.stage i
    have hug := (hu.holds hg').finished hu.stage i
    rw [State.version_eq, ht.ver] at htg
    rw [State.version_eq, hu.ver, ← finishedGrid_congr hicw] at hug
    exact (htg hi).trans (hug hi).symm
  obtain ⟨htnec, htgen, htrem⟩ := ht.loaded (by decide)
  obtain ⟨hunec, hugen, hurem⟩ := hu.loaded (by decide)
  obtain ⟨-, h30⟩ := ecBytes_bounds h1 h26
  obtain ⟨-, hmax⟩ := dataBytes_bounds h1 h26
  have hnec : t.nec.toNat = ecBytes v := by
    rw [htnec]
    exact (genPoly_loaded h30 t.gen).1
  have hdlen : t.dlen.toNat = dataBytes v := by
    rw [ht.dlen]
    exact Nat.mod_eq_of_lt (hmax.trans_lt (by decide))
  have hsize : t.size.toNat = gridSide v := by rw [ht.size (by decide), toNat_ofNat_gridSide h1 h26]
  have hlast := segmentData_congr hdcw (Nat.sub_lt (ns_pos h1 h26) Nat.one_pos)
  exact {
    ver := BitVec.eq_of_toNat_eq (ht.ver.trans hu.ver.symm)
    dlen := ht.dlen.trans hu.dlen.symm
    size := (ht.size (by decide)).trans (hu.size (by decide)).symm
    stage := BitVec.eq_of_toNat_eq (ht.stage.trans hu.stage.symm)
    valid := (ht.valid rfl).trans (hu.valid rfl).symm
    err := ht.err.trans hu.err.symm
    nec := htnec.trans hunec.symm
    gen := by rw [hnec, htgen, hugen]
    rem := by rw [hnec, htrem, hurem, hlast]
    dcw := hdlen ▸ hdcw
    ecw := by rw [State.version_eq, ht.ver]; exact hecw
    icw := by rw [State.version_eq, ht.ver]; exact hicw
    grid := hsize ▸ hgrid }

end

/-! ## GENERATE (R200, R201) -/

section
variable {s : State} {v : Nat} (h : selectVersion s.plen.toNat = some v)
include h

/-- The state in which `GENERATE` ends. -/
theorem bodyGenerate_of_some : bodyGenerate s = .ok (s.restart.choose v).encoded := by
  obtain ⟨-, h26, hfit⟩ := selectVersion_some h
  rw [← State.choose_version s.restart h26] at hfit
  rw [bodyGenerate, bodySelect_of_some h]
  exact encodeBody_eq rfl rfl hfit

/-- The pipeline ends in the same state. -/
theorem runBodies_pipeline_of_some : runBodies pipeline s = .ok (s.restart.choose v).encoded := by
  obtain ⟨-, h26, hfit⟩ := selectVersion_some h
  rw [← State.choose_version s.restart h26] at hfit
  change (bodySelect s >>= runBodies [.frame, .ecc, .ilv, .paints, .place, .fmt]) = _
  rw [bodySelect_of_some h, ok_bind, ← encodeBody_eq_runBodies]
  exact encodeBody_eq rfl rfl hfit

theorem encoding_of_some : Encoding v s.payload s.grid 7 (s.restart.choose v).encoded := by
  obtain ⟨h1, h26, hfit⟩ := selectVersion_some h
  exact encoding_encoded h1 h26 (State.choose_version s.restart h26) rfl hfit

end

theorem bodyGenerate_of_none {s : State} (h : selectVersion s.plen.toNat = none) :
    bodyGenerate s = .ok s.restart.capacityExceeded := by
  rw [bodyGenerate, bodySelect_of_none h]
  rfl

theorem exists_selectVersion_eq_some {n : Nat} (h : n ≤ Config.payMax) : ∃ v, selectVersion n = some v :=
  Option.ne_none_iff_exists'.1 (mt (selectVersion_eq_none_iff n).1 (Nat.not_lt.2 h))

/-- Settles O50: up to 1059 bytes the selection answers a version, and the encode it starts ends complete in it; above,
nothing follows the failed selection. -/
theorem generateCompletesOrReportsCapacityExceeded : Obligations.GenerateCompletesOrReportsCapacityExceeded := by
  unfold Obligations.GenerateCompletesOrReportsCapacityExceeded
  intro s hf
  have ha := acts_of_not_fault hf .generate
  refine ⟨fun hle => ?_, fun hgt => ?_⟩
  · obtain ⟨v, hv⟩ := exists_selectVersion_eq_some hle
    obtain ⟨h1, h26, -⟩ := selectVersion_some hv
    obtain ⟨-, hmax⟩ := dataBytes_bounds h1 h26
    have hbody := bodyGenerate_of_some hv
    have houtside := bodyGenerate_outside s _ hbody
    have ht := encoding_of_some hv
    generalize (s.restart.choose v).encoded = t at hbody houtside ht
    refine ⟨t.advance, v, (selectVersion_eq_some_iff ..).1 hv, exec_of_ok ha hbody, ht.ver, ?_,
      BitVec.eq_of_toNat_eq ht.stage, ht.valid rfl, ht.err, ?_, houtside.fault.trans hf, houtside.fcause, houtside.gp,
      houtside.pay, houtside.plen, houtside.out, congrArg (· + 1) houtside.pc, houtside.cmds⟩
    · rw [State.advance_size, ht.size (by decide), toNat_ofNat_gridSide h1 h26, gridSide_eq h1 h26]
    · rw [State.advance_dlen, ht.dlen]
      exact Nat.mod_eq_of_lt (hmax.trans_lt (by decide))
  · exact exec_of_ok ha (bodyGenerate_of_none ((selectVersion_eq_none_iff _).2 hgt))

/-- Settles O51: `GENERATE` and the pipeline run the same bodies, of which none reads `pc`; a failed selection leaves
stage 0, where `FRAME` comes out of sequence. -/
theorem generateEqualsThePipeline : Obligations.GenerateEqualsThePipeline := by
  unfold Obligations.GenerateEqualsThePipeline
  intro s hf
  have ha := acts_of_not_fault hf .generate
  refine ⟨fun hle => ?_, fun hgt => ?_⟩
  · obtain ⟨v, hv⟩ := exists_selectVersion_eq_some hle
    have hbody := bodyGenerate_of_some hv
    have hpipeline := runBodies_pipeline_of_some hv
    generalize (s.restart.choose v).encoded = t at hbody hpipeline
    refine ⟨t.advance, exec_of_ok ha hbody, (execAll_of_runBodies hf hpipeline).trans ?_⟩
    rw [← (bodyGenerate_outside s t hbody).cmds]
    rfl
  · have hnone := (selectVersion_eq_none_iff _).2 hgt
    have hselect := exec_of_ok (acts_of_not_fault hf .select) (bodySelect_of_none hnone)
    have hframe := exec_of_error (i := .frame) (s := s.restart.capacityExceeded.advance) (acts_of_not_fault hf _)
      (bodyFrame_of_seq (.inl (by simp)))
    refine ⟨_, faulted s.restart.capacityExceeded.advance 2, exec_of_ok ha (bodyGenerate_of_none hnone), rfl, hf, ?_,
      rfl, rfl⟩
    simp only [execAll, hselect, hframe]
    rfl

/-- Settles O52: both states end in a complete encode of the same payload in the same version. -/
theorem generateDependsOnThePayloadAlone : Obligations.GenerateDependsOnThePayloadAlone := by
  unfold Obligations.GenerateDependsOnThePayloadAlone
  intro a b haf hbf hawf hbwf hplen hle hpay
  obtain ⟨v, hva⟩ := exists_selectVersion_eq_some hle
  have hvb : selectVersion b.plen.toNat = some v := hplen ▸ hva
  obtain ⟨h1, h26, -⟩ := selectVersion_some hva
  have hpayload : a.payload = b.payload := by
    rw [State.payload_of_le hle, State.payload_of_le (hplen ▸ hle), ← hplen]
    exact List.map_congr_left fun i hi => hpay i (List.mem_range.1 hi)
  have ht := encoding_of_some hva
  have hu := encoding_of_some hvb
  rw [← hpayload] at hu
  have hsame := ht.sameEncode h1 h26 hawf hbwf hu
  have hexec := exec_of_ok (acts_of_not_fault haf .generate) (bodyGenerate_of_some hva)
  have hexec' := exec_of_ok (acts_of_not_fault hbf .generate) (bodyGenerate_of_some hvb)
  generalize (a.restart.choose v).encoded = t at hsame hexec
  generalize (b.restart.choose v).encoded = u at hsame hexec'
  exact ⟨t.advance, u.advance, hexec, hexec', hsame.ver, hsame.dlen, hsame.size, hsame.stage, hsame.valid, hsame.err,
    hsame.nec, hsame.gen, hsame.rem, hsame.dcw, fun k i hk hi => hsame.ecw k hk i hi, hsame.icw, hsame.grid⟩

end Sys2Proof.Machine

/-! No command observes unspecified or stale contents (R31, R39, R243): run from two legal states that agree on what is
readable, a body answers alike (`Alike`). -/

namespace Sys2Proof.Machine

open Claims

/-! ## Two answers that agree on what is readable -/

/-- Both bodies raise the same fault, or end in states that no command can tell apart. -/
inductive Alike : Except Cause State → Except Cause State → Prop
  | ok {t u : State} (h : SameReadable t u) : Alike (.ok t) (.ok u)
  | error (c : Cause) : Alike (.error c) (.error c)

theorem alike_ite {p q : Prop} [Decidable p] [Decidable q] {r r' x x' : Except Cause State} (hpq : p ↔ q)
    (h : p → Alike r r') (h' : ¬p → Alike x x') : Alike (if p then r else x) (if q then r' else x') := by
  by_cases hp : p
  · rw [if_pos hp, if_pos (hpq.1 hp)]
    exact h hp
  · rw [if_neg hp, if_neg (mt hpq.2 hp)]
    exact h' hp

theorem alike_check {p q : Prop} [Decidable p] [Decidable q] {c : Cause} {r r' : Except Cause State} (hpq : p ↔ q)
    (h : ¬p → Alike r r') : Alike (if p then .error c else r) (if q then .error c else r') :=
  alike_ite hpq (fun _ => .error c) h

/-- A command of one stage. -/
theorem alike_atStage {a b t u : State} {k : BitVec 3} (hab : SameReadable a b)
    (h : a.stage.toNat = k.toNat → SameReadable t u) :
    Alike (if a.stage ≠ k then .error .seq else .ok t) (if b.stage ≠ k then .error .seq else .ok u) :=
  alike_check (by rw [hab.stage]) fun hk => .ok (h (congrArg BitVec.toNat (not_not.1 hk)))

section
variable {a b : State} (hab : SameReadable a b)
include hab

theorem SameReadable.version_eq : a.version = b.version := congrArg BitVec.toNat hab.ver

theorem SameReadable.emit (v : Half) : SameReadable (a.emit v) (b.emit v) :=
  { hab with out := congrArg (· ++ [v]) hab.out }

theorem SameReadable.advance : SameReadable a.advance b.advance := { hab with pc := congrArg (· + 1) hab.pc }

theorem SameReadable.raiseFault (c : Cause) : SameReadable (a.raiseFault c) (b.raiseFault c) :=
  { hab with fault := rfl, fcause := rfl }

theorem SameReadable.status_eq : a.status = b.status := by
  unfold State.status
  rw [hab.ver, hab.stage, hab.fcause, hab.fault, hab.err, hab.valid]

theorem SameReadable.payload_eq : a.payload = b.payload := by
  unfold State.payload
  rw [← hab.plen]
  exact Memory.readRange_congr fun j hj => by rw [Nat.zero_add]; exact hab.pay j hj

theorem alike_emit {v w : Half} (h : v = w) : Alike (.ok (a.emit v)) (.ok (b.emit w)) := h ▸ .ok (hab.emit v)

/-- A guarded read-out: what passes the guards is readable. -/
theorem alike_guardedRead {early outside early' outside' : Prop} [Decidable early] [Decidable outside]
    [Decidable early'] [Decidable outside'] {v w : Byte} (he : early ↔ early') (ho : outside ↔ outside')
    (h : ¬early → ¬outside → v = w) :
    Alike (a.emitRead (if early then .error .seq else if outside then .error .bounds else .ok v))
      (b.emitRead (if early' then .error .seq else if outside' then .error .bounds else .ok w)) := by
  rw [apply_ite a.emitRead, apply_ite a.emitRead, apply_ite b.emitRead, apply_ite b.emitRead]
  exact alike_check he fun he => alike_check ho fun ho => alike_emit hab (congrArg zext16 (h he ho))

end

/-! ## Reads of what has just been written -/

theorem Memory.read_write_congr {m n : Memory} {i j : Nat} {v : Byte} (hm : m.wf = true) (hn : n.wf = true)
    (h : j ≠ i → m.read j = n.read j) : (m.write i v).read j = (n.write i v).read j := by
  rw [Memory.read_write _ _ _ hm, Memory.read_write _ _ _ hn]
  split
  · rfl
  · exact h (Ne.symm ‹_›)

theorem Memory.read_writeRange_congr (m n : Memory) {vs : List Byte} {i : Nat} (h : i < vs.length) :
    (m.writeRange 0 vs).read i = (n.writeRange 0 vs).read i := by
  rw [Memory.read_writeRange_of_lt m h, Memory.read_writeRange_of_lt n h]

theorem regPrefix_regLoad_congr {n : Nat} (r q : Vector Byte n) {vs : List Byte} {k : Nat} (hk : vs.length = k)
    (hn : k ≤ n) : regPrefix (regLoad r vs) k = regPrefix (regLoad q vs) k := by
  subst hk
  rw [regPrefix_regLoad r vs hn, regPrefix_regLoad q vs hn]

/-! ## The states the bodies leave -/

section
variable {a b : State} (hab : SameReadable a b)
include hab

theorem SameReadable.clear : SameReadable a.clear b.clear where
  gp := rfl
  nec := rfl
  plen := rfl
  ver := rfl
  dlen := rfl
  size := rfl
  stage := rfl
  valid := rfl
  err := rfl
  fault := rfl
  fcause := rfl
  out := hab.out
  pc := hab.pc
  cmds := hab.cmds
  gen _ := rfl
  rem := rfl
  pay _ _ := rfl
  dcw _ _ := rfl
  ecw _ _ _ _ _ := rfl
  icw _ _ _ := rfl
  grid _ _ _ := rfl

/-- With nothing loaded and before stage 3, no buffer but the payload is readable. -/
theorem SameReadable.restarted (ver : BitVec 5) {stage : BitVec 3} (valid err : Bool) (h : stage.toNat < 3) :
    SameReadable { a with ver, stage, dlen := 0, size := 0, valid, err }
      { b with ver, stage, dlen := 0, size := 0, valid, err } :=
  { hab with
    ver := rfl
    dlen := rfl
    size := rfl
    stage := rfl
    valid := rfl
    err := rfl
    dcw := fun _ hi => absurd hi (Nat.not_lt_zero _)
    ecw := fun h3 => absurd h3 (Nat.not_le.2 h)
    icw := fun h4 => absurd (Nat.le_of_succ_le h4) (Nat.not_le.2 h)
    grid := fun h5 => absurd (Nat.le_of_succ_le (Nat.le_of_succ_le h5)) (Nat.not_le.2 h) }

/-- A generator of degree `n` loaded. -/
theorem SameReadable.loaded {n m : Nat} (hn : n = m) (h30 : n ≤ 30) {r q : Vector Byte 30}
    (h : regPrefix r n = regPrefix q m) :
    SameReadable { a with nec := BitVec.ofNat 5 n, gen := regLoad a.gen (genPoly n), rem := r }
      { b with nec := BitVec.ofNat 5 m, gen := regLoad b.gen (genPoly m), rem := q } := by
  subst hn
  obtain ⟨hnec, hgena⟩ := genPoly_loaded h30 a.gen
  obtain ⟨-, hgenb⟩ := genPoly_loaded h30 b.gen
  exact { hab with
    nec := rfl
    gen := fun _ => by
      change regPrefix _ ((BitVec.ofNat 5 n).toNat + 1) = regPrefix _ ((BitVec.ofNat 5 n).toNat + 1)
      rw [hnec, hgena, hgenb]
    rem := by
      change regPrefix _ (BitVec.ofNat 5 n).toNat = regPrefix _ (BitVec.ofNat 5 n).toNat
      rw [hnec, h] }

variable (la : Legal a) (lb : Legal b)
include la lb

theorem bodyPushb_alike (k : Byte) : Alike (bodyPushb k a) (bodyPushb k b) := by
  refine alike_check (by rw [hab.stage]) fun _ => alike_ite (by rw [hab.plen]) (fun hlt => .ok ?_) fun hge => .ok ?_
  · have hplen : (a.plen + 1).toNat = a.plen.toNat + 1 := BitVec.toNat_add_of_lt (by simp at *; omega)
    exact { hab with
      plen := congrArg (· + 1) hab.plen
      pay := fun i hi => by
        rw [← hab.plen]
        refine Memory.read_write_congr la.pay_wf lb.pay_wf fun hne => hab.pay i ?_
        simp only [hplen] at hi
        omega }
  · exact { hab with
      plen := rfl
      pay := fun i hi => hab.pay i (hi.trans_le (le_min (Nat.not_lt.1 hge) le_rfl)) }

theorem sameReadable_pushed (k : Byte) (hstage : a.stage.toNat = 1) : SameReadable (a.pushed k) (b.pushed k) := by
  obtain ⟨hdlen, -⟩ := dcw_pushed la k hstage
  exact { hab with
    dlen := congrArg (· + 1) hab.dlen
    dcw := fun i hi => by
      change (a.dcw.write a.dlen.toNat k).read i = (b.dcw.write b.dlen.toNat k).read i
      rw [← hab.dlen]
      exact Memory.read_write_congr la.dcw_wf lb.dcw_wf fun hne => hab.dcw i (by omega) }

omit la lb in
/-- At stage 2 no buffer but the payload and the data codewords is readable. -/
theorem SameReadable.filled : SameReadable { a with stage := 2 } { b with stage := 2 } :=
  { hab with
    stage := rfl
    ecw := fun h => absurd h (Nat.not_succ_le_self 2)
    icw := fun h => absurd h (by simp)
    grid := fun h => absurd h (by simp) }

theorem bodyPushd_alike (k : Byte) : Alike (bodyPushd k a) (bodyPushd k b) := by
  refine alike_check (by rw [hab.stage]) fun hseq => ?_
  have hpushed := sameReadable_pushed hab la lb k (congrArg BitVec.toNat (not_not.1 hseq))
  have hfull : (a.pushed k).dlen.toNat = dataBytes (a.pushed k).version ↔
      (b.pushed k).dlen.toNat = dataBytes (b.pushed k).version := by rw [hpushed.dlen, hpushed.version_eq]
  exact alike_ite hfull (fun _ => .ok hpushed.filled) fun _ => .ok hpushed

omit lb in
theorem sameReadable_framed (hstage : a.stage.toNat = 1) (hfit : a.plen.toNat ≤ inputBytes a.version) :
    SameReadable a.framed b.framed := by
  obtain ⟨h1, h26⟩ := la.version_bounds hstage.ge
  have hlen : (frameBytes a.version a.payload).length = dataBytes a.version :=
    length_frameBytes _ _ h1 h26 (a.length_payload_le.trans hfit)
  have hdlen : a.framed.dlen.toNat = dataBytes a.version := (legal_framed la hstage hfit).dlen_full le_rfl
  have hframe : frameBytes b.version b.payload = frameBytes a.version a.payload := by
    rw [hab.version_eq, hab.payload_eq]
  have h : SameReadable { a.framed with stage := a.stage } { b.framed with stage := b.stage } :=
    { hab with
      dlen := congrArg (fun v => BitVec.ofNat 11 (dataBytes v)) hab.version_eq
      dcw := fun i hi => by
        refine (Memory.read_writeRange_congr _ b.dcw ((hi.trans_eq hdlen).trans_eq hlen.symm)).trans ?_
        exact congrArg (fun vs => (b.dcw.writeRange 0 vs).read i) hframe.symm }
  exact h.filled

omit lb in
theorem bodyFrame_alike : Alike (bodyFrame a) (bodyFrame b) := by
  refine alike_check (by rw [hab.stage, hab.dlen]) fun hseq => ?_
  refine alike_check (by rw [hab.version_eq, hab.plen]) fun hfit => .ok ?_
  exact sameReadable_framed hab la (congrArg BitVec.toNat (not_not.1 (not_or.1 hseq).1)) (Nat.not_lt.1 hfit)

omit lb in
theorem dcw_agree (hstage : 2 ≤ a.stage.toNat) : ∀ i < dataBytes a.version, a.dcw.read i = b.dcw.read i := by
  rw [← la.dlen_full hstage]
  exact hab.dcw

omit lb in
theorem sameReadable_withParity (hstage : a.stage.toNat = 2) : SameReadable a.withParity b.withParity := by
  obtain ⟨h1, h26⟩ := la.version_bounds (by omega)
  obtain ⟨-, h30⟩ := ecBytes_bounds h1 h26
  have hdcw := dcw_agree hab la hstage.ge
  have hlast : a.parity (ns a.version - 1) = b.parity (ns b.version - 1) := by
    rw [State.parity, State.parity, ← hab.version_eq, segmentData_congr hdcw (Nat.sub_lt (ns_pos h1 h26) Nat.one_pos)]
  have hrem := (rem_withParity h1 h26).trans (hlast.trans (rem_withParity (hab.ver ▸ h1) (hab.ver ▸ h26)).symm)
  have hecw (k : Nat) (hk : k < ns a.version) (i : Nat) (hi : i < ecBytes a.version) :
      a.withParity.ecw.read (ecwIndex k i) = b.withParity.ecw.read (ecwIndex k i) := by
    have ha := (stageHolds_withParity h1 h26).ecw_holds (Nat.le_refl 3) k
    have hb := (stageHolds_withParity (hab.ver ▸ h1) (hab.ver ▸ h26)).ecw_holds (Nat.le_refl 3) k
    rw [State.version_eq, State.withParity_ver, State.withParity_dcw] at ha hb
    rw [← hab.ver, ← segmentData_congr (v := a.ver.toNat) hdcw hk] at hb
    exact Memory.read_eq_of_readRange_eq ((ha hk).trans (hb hk).symm) hi
  have hloaded := hab.loaded (congrArg ecBytes hab.version_eq) h30 hrem
  rw [a.withParity_eq, b.withParity_eq]
  generalize a.withParity = t at *
  generalize b.withParity = u at *
  exact { hloaded with
    stage := rfl
    ecw := fun _ => hecw
    icw := fun h => absurd h (by simp)
    grid := fun h => absurd h (by simp) }

omit lb in
theorem sameReadable_interleaved (hstage : a.stage.toNat = 3) : SameReadable a.interleaved b.interleaved := by
  obtain ⟨h1, h26⟩ := la.version_bounds (by omega)
  have hlen := length_interleave h1 h26 a.dcw a.ecw
  have hstream : interleave b.version b.dcw b.ecw = interleave a.version a.dcw a.ecw := by
    rw [← hab.version_eq]
    exact (interleave_congr (dcw_agree hab la (by omega)) (hab.ecw hstage.ge)).symm
  exact { hab with
    stage := rfl
    ecw := fun _ => hab.ecw hstage.ge
    icw := fun _ i hi => by
      refine (Memory.read_writeRange_congr _ b.icw (hi.trans_eq hlen.symm)).trans ?_
      exact congrArg (fun vs => (b.icw.writeRange 0 vs).read i) hstream.symm
    grid := fun h => absurd h (by simp [State.interleaved]) }

omit lb in
theorem sameReadable_painted (hstage : a.stage.toNat = 4) : SameReadable a.painted b.painted := by
  obtain ⟨h1, h26⟩ := la.version_bounds (by omega)
  have hsize : a.painted.size.toNat = gridSide a.version := toNat_ofNat_gridSide h1 h26
  have htiles : structTiles b.version = structTiles a.version := by rw [hab.version_eq]
  exact { hab with
    size := congrArg (fun v => BitVec.ofNat 7 (gridSide v)) hab.version_eq
    stage := rfl
    ecw := fun _ => hab.ecw (by omega)
    icw := fun _ => hab.icw hstage.ge
    grid := fun _ i hi => by
      rw [hsize, ← length_structTiles] at hi
      refine (Memory.read_writeRange_congr _ b.grid hi).trans ?_
      exact congrArg (fun vs => (b.grid.writeRange 0 vs).read i) htiles.symm }

/-- Stated for any writes: with those of `FMT` in their place, the unifier would run them. -/
theorem SameReadable.withTiles {ws ws' : List Host.Cell} (hws : ws = ws') :
    SameReadable { a with grid := a.grid.writeMany ws } { b with grid := b.grid.writeMany ws' } :=
  { hab with grid := fun h i hi => hws ▸ Memory.read_writeMany_congr la.grid_wf lb.grid_wf (hab.grid h i hi) }

omit la lb in
/-- From a stage that holds a grid to another. -/
theorem SameReadable.restaged (hstage : 5 ≤ a.stage.toNat) (k : BitVec 3) {valid valid' : Bool}
    (hvalid : valid = valid') : SameReadable { a with stage := k, valid } { b with stage := k, valid := valid' } :=
  { hab with
    stage := rfl
    valid := hvalid
    ecw := fun _ => hab.ecw (by omega)
    icw := fun _ => hab.icw (by omega)
    grid := fun _ => hab.grid hstage }

theorem sameReadable_placed (hstage : a.stage.toNat = 5) : SameReadable a.placed b.placed := by
  have hwrites : placeWrites a.version a.size.toNat a.icw = placeWrites b.version b.size.toNat b.icw := by
    rw [← hab.version_eq, ← hab.size]
    exact placeWrites_congr (hab.icw (by omega))
  exact (hab.withTiles la lb hwrites).restaged hstage.ge 6 hab.valid

theorem sameReadable_formatted (hstage : a.stage.toNat = 6) : SameReadable a.formatted b.formatted := by
  have hwrites : formatWrites a.size.toNat = formatWrites b.size.toNat := by rw [hab.size]
  rw [State.formatted, State.formatted]
  generalize formatWrites a.size.toNat = ws at *
  generalize formatWrites b.size.toNat = ws' at *
  exact (hab.withTiles la lb hwrites).restaged (hstage.ge.trans' (by decide)) 7 rfl

end

/-! ## The bodies -/

section
variable {a b : State} (hab : SameReadable a b)
include hab

theorem bodyRsgen_alike (k : Byte) : Alike (bodyRsgen k a) (bodyRsgen k b) := by
  refine alike_check Iff.rfl fun h => .ok ?_
  have h30 : k.toNat ≤ 30 := Nat.not_lt.1 (not_or.1 h).2
  exact hab.loaded rfl h30 (regPrefix_regLoad_congr _ _ (List.length_replicate ..) h30)

/-- New contents of the divider's remainder. -/
theorem SameReadable.withRem {vs ws : List Byte} (hvs : vs = ws) (hlen : vs.length = a.nec.toNat)
    (h30 : a.nec.toNat ≤ 30) :
    SameReadable { a with rem := regLoad a.rem vs } { b with rem := regLoad b.rem ws } :=
  { hab with rem := hvs ▸ regPrefix_regLoad_congr _ _ hlen h30 }

theorem bodyRsclr_alike (la : Legal a) : Alike (bodyRsclr a) (bodyRsclr b) :=
  alike_check (by rw [hab.nec]) fun _ =>
    .ok (hab.withRem (by rw [hab.nec]) (List.length_replicate ..) la.nec_le)

theorem bodyRsfeed_alike (la : Legal a) (d : Byte) : Alike (bodyRsfeed d a) (bodyRsfeed d b) := by
  refine alike_check (by rw [hab.nec]) fun h => .ok ?_
  have hnec : a.nec.toNat ≠ 0 := mt a.nec_eq_zero_iff.2 h
  have hfed : a.fedRem d = b.fedRem d := by
    rw [State.fedRem, State.fedRem, ← hab.nec, hab.gen hnec, hab.rem]
  exact hab.withRem hfed (State.length_fedRem la.nec_le d) la.nec_le

theorem bodyGflog_alike (k : Byte) : Alike (bodyGflog k a) (bodyGflog k b) := by
  cases h : gfLog k with
  | none =>
    rw [bodyGflog_of_none h, bodyGflog_of_none h]
    exact .error _
  | some i =>
    rw [bodyGflog_of_some h, bodyGflog_of_some h]
    exact .ok { hab with gp := rfl }

theorem bodyVinfo_alike (v f : Byte) : Alike (bodyVinfo v f a) (bodyVinfo v f b) := by
  refine alike_check Iff.rfl fun _ => ?_
  cases vi v.toNat with
  | none => exact .ok (hab.emit _)
  | some r => exact .ok (hab.emit _)

theorem bodySelect_alike : Alike (bodySelect a) (bodySelect b) := by
  cases h : selectVersion a.plen.toNat with
  | some v =>
    rw [bodySelect_of_some h, bodySelect_of_some (hab.plen ▸ h)]
    exact .ok (hab.restarted _ _ _ (by decide))
  | none =>
    rw [bodySelect_of_none h, bodySelect_of_none (hab.plen ▸ h)]
    exact .ok (hab.restarted _ _ _ (Nat.zero_lt_succ 2))

theorem bodySetver_alike (k : Byte) : Alike (bodySetver k a) (bodySetver k b) :=
  alike_check Iff.rfl fun _ => .ok (hab.restarted _ _ _ (by decide))

/-- What an encode leaves agrees because both are the encode of one payload, everything else because it was kept. -/
theorem SameReadable.of_sameEncode {t u : State} (ht : Outside a t) (hu : Outside b u) (h : SameEncode t u) :
    SameReadable t u where
  gp := ht.gp.trans (hab.gp.trans hu.gp.symm)
  plen := ht.plen.trans (hab.plen.trans hu.plen.symm)
  fault := ht.fault.trans (hab.fault.trans hu.fault.symm)
  fcause := ht.fcause.trans (hab.fcause.trans hu.fcause.symm)
  out := ht.out.trans (hab.out.trans hu.out.symm)
  pc := ht.pc.trans (hab.pc.trans hu.pc.symm)
  cmds := ht.cmds.trans (hab.cmds.trans hu.cmds.symm)
  pay := by
    rw [ht.pay, hu.pay, ht.plen]
    exact hab.pay
  nec := h.nec
  ver := h.ver
  dlen := h.dlen
  size := h.size
  stage := h.stage
  valid := h.valid
  err := h.err
  gen _ := h.gen
  rem := h.rem
  dcw := h.dcw
  ecw _ := h.ecw
  icw _ := h.icw
  grid _ := h.grid

theorem bodyGenerate_alike (la : Legal a) (lb : Legal b) : Alike (bodyGenerate a) (bodyGenerate b) := by
  cases h : selectVersion a.plen.toNat with
  | some v =>
    obtain ⟨h1, h26, -⟩ := selectVersion_some h
    have h' : selectVersion b.plen.toNat = some v := hab.plen ▸ h
    have hbodya := bodyGenerate_of_some h
    have hbodyb := bodyGenerate_of_some h'
    have ht := encoding_of_some h
    have hu := encoding_of_some h'
    rw [← hab.payload_eq] at hu
    have hsame := ht.sameEncode h1 h26 la.grid_wf lb.grid_wf hu
    rw [hbodya, hbodyb]
    exact .ok (hab.of_sameEncode (bodyGenerate_outside a _ hbodya) (bodyGenerate_outside b _ hbodyb) hsame)
  | none =>
    rw [bodyGenerate_of_none h, bodyGenerate_of_none (hab.plen ▸ h)]
    exact .ok (hab.restarted _ _ _ (Nat.zero_lt_succ 2))

theorem bodyRdgen_alike (j : Byte) : Alike (bodyRdgen j a) (bodyRdgen j b) := by
  refine alike_guardedRead hab (by rw [hab.nec]) (by rw [hab.nec]) fun hloaded hj => ?_
  rw [← regPrefix_getD a.gen _ _ (Nat.lt_succ_of_le (Nat.not_lt.1 hj)), hab.gen (mt a.nec_eq_zero_iff.2 hloaded),
    regPrefix_getD b.gen _ _ (Nat.lt_succ_of_le (Nat.not_lt.1 hj))]

theorem bodyRdrem_alike (i : Byte) : Alike (bodyRdrem i a) (bodyRdrem i b) := by
  refine alike_guardedRead hab (by rw [hab.nec]) (by rw [hab.nec]) fun _ hi => ?_
  rw [← regPrefix_getD a.rem _ _ (Nat.not_le.1 hi), hab.rem, regPrefix_getD b.rem _ _ (Nat.not_le.1 hi)]

theorem bodyRdtile_alike (x y : Byte) : Alike (bodyRdtile x y a) (bodyRdtile x y b) := by
  refine alike_guardedRead hab (by rw [hab.stage]) (by rw [hab.size]) fun hstage hin => ?_
  obtain ⟨hx, hy⟩ := not_or.1 hin
  rw [← hab.size]
  exact hab.grid (Nat.not_lt.1 hstage) _ (tileIndex_lt (Nat.not_le.1 hx) (Nat.not_le.1 hy))

theorem bodyRdec_alike (p q : Byte) : Alike (bodyRdec p q a) (bodyRdec p q b) := by
  refine alike_guardedRead hab (by rw [hab.stage]) (by rw [hab.version_eq]) fun hstage hin => ?_
  obtain ⟨hp, hq⟩ := not_or.1 hin
  exact hab.ecw (Nat.not_lt.1 hstage) _ (Nat.not_le.1 hp) _ (Nat.not_le.1 hq)

theorem bodyRdcw_alike (k : Half) : Alike (bodyRdcw k a) (bodyRdcw k b) :=
  alike_guardedRead hab (by rw [hab.stage]) (by rw [hab.version_eq]) fun hstage hk =>
    hab.icw (Nat.not_lt.1 hstage) _ (Nat.not_le.1 hk)

theorem bodyRddcw_alike (k : Half) : Alike (bodyRddcw k a) (bodyRddcw k b) :=
  alike_guardedRead hab (by rw [hab.stage]) (by rw [hab.dlen]) fun _ hk => hab.dcw _ (Nat.not_le.1 hk)

theorem bodyOf_alike (i : Instr) (la : Legal a) (lb : Legal b) : Alike (bodyOf i a) (bodyOf i b) := by
  cases i with
  | nop => exact .ok hab
  | reset => exact .ok hab.clear
  | rdstat => exact alike_emit hab hab.status_eq
  | rdsize => exact alike_emit hab (congrArg zext16 hab.size)
  | rdplen => exact alike_emit hab (congrArg zext16 hab.plen)
  | rddlen => exact alike_emit hab (congrArg zext16 hab.dlen)
  | rdgp => exact alike_emit hab (congrArg zext16 hab.gp)
  | gfmul | gfexp => exact .ok { hab with gp := rfl }
  | gfmula k => exact .ok { hab with gp := congrArg (gfMul · k) hab.gp }
  | gfinv => exact alike_check Iff.rfl fun _ => .ok { hab with gp := rfl }
  | gflog k => exact bodyGflog_alike hab k
  | vinfo v f => exact bodyVinfo_alike hab v f
  | pushb k => exact bodyPushb_alike hab la lb k
  | pushd k => exact bodyPushd_alike hab la lb k
  | rdtile x y => exact bodyRdtile_alike hab x y
  | rdcw k => exact bodyRdcw_alike hab k
  | rddcw k => exact bodyRddcw_alike hab k
  | rdec p q => exact bodyRdec_alike hab p q
  | rdgen j => exact bodyRdgen_alike hab j
  | rdrem i => exact bodyRdrem_alike hab i
  | rsgen k => exact bodyRsgen_alike hab k
  | rsclr => exact bodyRsclr_alike hab la
  | rsfeed d => exact bodyRsfeed_alike hab la d
  | select => exact bodySelect_alike hab
  | setver k => exact bodySetver_alike hab k
  | frame => exact bodyFrame_alike hab la
  | ecc => exact alike_atStage hab (sameReadable_withParity hab la)
  | ilv => exact alike_atStage hab (sameReadable_interleaved hab la)
  | paints => exact alike_atStage hab (sameReadable_painted hab la)
  | place => exact alike_atStage hab (sameReadable_placed hab la lb)
  | fmt => exact alike_atStage hab (sameReadable_formatted hab la lb)
  | generate => exact bodyGenerate_alike hab la lb

theorem settle_alike {c d : Body} (h : Alike (c a) (d b)) : SameReadable (settle c a) (settle d b) := by
  unfold settle
  generalize c a = r at h
  generalize d b = r' at h
  cases h with
  | ok h => exact h
  | error c => exact hab.raiseFault c

theorem exec_alike (i : Instr) (la : Legal a) (lb : Legal b) {t : State} (h : exec i a = .next t) :
    ∃ u, exec i b = .next u ∧ SameReadable t u := by
  rw [exec_eq] at h
  obtain rfl := Host.Outcome.next.inj h
  refine ⟨_, exec_eq i b, SameReadable.advance ?_⟩
  rw [← hab.fault]
  split
  · exact hab
  · exact settle_alike hab (bodyOf_alike hab i la lb)

theorem runIllegal_alike {t : State} (h : runIllegal a = .next t) :
    ∃ u, runIllegal b = .next u ∧ SameReadable t u := by
  rw [runIllegal_eq] at h
  obtain rfl := Host.Outcome.next.inj h
  refine ⟨_, runIllegal_eq b, SameReadable.advance ?_⟩
  rw [← hab.fault]
  split
  · exact hab
  · exact hab.raiseFault _

end

/-- Settles O53: both states fetch the same word, and every body writes an element before a guard lets a command read
it. -/
theorem unspecifiedContentsAreUnobservable : Obligations.UnspecifiedContentsAreUnobservable := by
  unfold Obligations.UnspecifiedContentsAreUnobservable
  intro a b t la lb hab h
  obtain ⟨w, hw, ⟨i, hd, hi⟩ | ⟨e, hd, he⟩⟩ := step_eq_next h
  all_goals have hw' : b.fetch = some w := by rw [State.fetch, ← hab.pc, ← hab.cmds]; exact hw
  · rw [step_of_decode_ok hw' hd]
    exact exec_alike hab i la lb hi
  · rw [step_of_decode_error hw' hd]
    exact runIllegal_alike hab he

end Sys2Proof.Machine

/-! Where each byte stands in the interleaved stream (R165): the rows before a byte's own are full, and its own is full
or holds the longer segments alone. -/

namespace Sys2Proof.Machine

open Claims

/-- An entry of a row before which every row has `n` entries. -/
theorem getElem?_flatMap_range {α : Type} {f : Nat → List α} {m n i x : Nat} (hi : i < m)
    (hlen : ∀ j < i, (f j).length = n) (hx : x < (f i).length) :
    ((List.range m).flatMap f)[i * n + x]? = (f i)[x]? := by
  obtain ⟨k, rfl⟩ := Nat.exists_eq_add_of_lt hi
  have hbefore : ((List.range i).flatMap f).length = i * n := by
    rw [List.length_flatMap, List.map_congr_left fun j hj => hlen j (List.mem_range.1 hj)]
    simp
  rw [show i + k + 1 = i + 1 + k by omega, List.range_add, List.range_succ, List.flatMap_append, List.flatMap_append,
    List.flatMap_singleton, List.getElem?_append_left (by rw [List.length_append, hbefore]; omega),
    List.getElem?_append_right (by omega), hbefore, Nat.add_sub_cancel_left]

/-- The segments that have a byte `i`, in order. -/
def segmentsWith (v i : Nat) : List Nat := (List.range (ns v)).filter fun s => decide (i < segLen v s)

theorem dataColumns_eq (v : Nat) (dcw : Memory) : dataColumns v dcw =
    (List.range (maxSegLen v)).flatMap fun i => (segmentsWith v i).map fun s => dcw.read (segOff v s + i) := rfl

/-- Group 1 segments are one byte longer (R113). -/
theorem segmentDataBytes1_eq {v : Nat} (h1 : 1 ≤ v) (h26 : v ≤ 26) (h : 0 < (info v).numSegments1) :
    (info v).segmentDataBytes1 = (info v).segmentDataBytes + 1 := by
  revert h
  interval_cases v <;> decide

section
variable {v i s : Nat} (h1 : 1 ≤ v) (h26 : v ≤ 26)
include h1 h26

theorem segLen_bounds (hs : s < ns v) : (info v).segmentDataBytes ≤ segLen v s ∧
    (segLen v s = (info v).segmentDataBytes + if s < (info v).numSegments then 0 else 1) := by
  unfold segLen
  split
  · exact ⟨le_rfl, rfl⟩
  · have := segmentDataBytes1_eq h1 h26 (by rw [ns] at hs; omega)
    omega

/-- A full row. -/
theorem segmentsWith_of_lt (h : i < (info v).segmentDataBytes) : segmentsWith v i = List.range (ns v) :=
  List.filter_eq_self.2 fun _ hs =>
    decide_eq_true (h.trans_le (segLen_bounds h1 h26 (List.mem_range.1 hs)).1)

/-- The row of the longer segments alone. -/
theorem segmentsWith_segmentDataBytes :
    segmentsWith v (info v).segmentDataBytes = (List.range (info v).numSegments1).map ((info v).numSegments + ·) := by
  rw [segmentsWith, ns, List.range_add, List.filter_append, List.filter_eq_nil_iff.2, List.filter_eq_self.2,
    List.nil_append]
  · intro s hs
    obtain ⟨k, hk, rfl⟩ := List.mem_map.1 hs
    have hk := List.mem_range.1 hk
    have := (segLen_bounds h1 h26 (s := (info v).numSegments + k) (by rw [ns]; omega)).2
    rw [if_neg (by omega)] at this
    exact decide_eq_true (by omega)
  · intro s hs
    have hs := List.mem_range.1 hs
    have := (segLen_bounds h1 h26 (s := s) (by rw [ns]; omega)).2
    rw [if_pos hs] at this
    rw [decide_eq_true_iff]
    omega

/-- Where segment `s` stands in row `i`. -/
theorem exists_position (hs : s < ns v) (hi : i < segLen v s) :
    ∃ x, dataPosition v s i = i * ns v + x ∧ (segmentsWith v i)[x]? = some s := by
  unfold dataPosition
  split
  case isTrue hfull =>
    rw [segmentsWith_of_lt h1 h26 hfull]
    exact ⟨s, rfl, List.getElem?_range hs⟩
  case isFalse hlast =>
    have hlen := (segLen_bounds h1 h26 hs).2
    have hge : (info v).numSegments ≤ s := by
      by_contra hlt
      rw [if_pos (by omega)] at hlen
      omega
    rw [if_neg (by omega)] at hlen
    obtain rfl : i = (info v).segmentDataBytes := by omega
    rw [segmentsWith_segmentDataBytes h1 h26]
    refine ⟨s - (info v).numSegments, rfl, ?_⟩
    rw [List.getElem?_map, List.getElem?_range (by rw [ns] at hs; omega), Option.map_some,
      Nat.add_sub_cancel' hge]

theorem dataColumns_getElem? (dcw : Memory) (hs : s < ns v) (hi : i < segLen v s) :
    (dataColumns v dcw)[dataPosition v s i]? = some (dcw.read (segOff v s + i)) := by
  obtain ⟨x, hx, hrow⟩ := exists_position h1 h26 hs hi
  have hfull (j : Nat) (hj : j < i) : (segmentsWith v j).length = ns v := by
    have := (segLen_bounds h1 h26 hs).2
    rw [segmentsWith_of_lt h1 h26 (by split at this <;> omega), List.length_range]
  have hlt : x < (segmentsWith v i).length := (List.getElem?_eq_some_iff.1 hrow).1
  rw [dataColumns_eq, hx, getElem?_flatMap_range (hi.trans_le (segLen_le_maxSegLen h1 h26 hs)) (by simpa using hfull)
    (by simpa using hlt), List.getElem?_map, hrow, Option.map_some]

end

theorem parityColumns_getElem? {v s i : Nat} (ecw : Memory) (hs : s < ns v) (hi : i < ecBytes v) :
    (parityColumns v ecw)[i * ns v + s]? = some (ecw.read (ecwIndex s i)) := by
  rw [parityColumns, getElem?_flatMap_of_length (fun _ => by simp) hs, List.getElem?_range hi, Option.bind_some,
    List.getElem?_map, List.getElem?_range hs, Option.map_some]

/-- Settles O42: the data columns come first, then the parity columns. -/
theorem interleavePlacesEveryByte : Obligations.InterleavePlacesEveryByte := by
  unfold Obligations.InterleavePlacesEveryByte
  intro v dcw ecw h1 h26
  refine ⟨fun s i hs hi => ?_, fun s i hs hi => ?_⟩
  · have hdata := dataColumns_getElem? h1 h26 dcw hs hi
    rw [interleave, List.getElem?_append_left (List.getElem?_eq_some_iff.1 hdata).1, hdata]
  · rw [interleave, Nat.add_assoc, List.getElem?_append_right (by rw [length_dataColumns h1 h26]; omega),
      length_dataColumns h1 h26, Nat.add_sub_cancel_left, parityColumns_getElem? ecw hs hi]

end Sys2Proof.Machine

/-! The structural grid (R169 to R176). Each element stands whole because the rules stamped after it, which come first
in `structTileAt`, stamp nothing there or the same tile. -/

namespace Sys2Proof.Machine

open Claims

/-! ## What each rule stamps -/

theorem ringOf_column (c cy y : Nat) : ringOf c cy c y = absDiff cy y := by simp [ringOf, absDiff]

theorem ringOf_row (c cx x : Nat) : ringOf cx c x c = absDiff cx x := by simp [ringOf, absDiff]

/-- Along a timing line the light ring around an even centre stands on odd coordinates. -/
theorem absDiff_eq_one_iff {c x : Nat} (hc : c % 2 = 0) (h : absDiff c x ≤ 2) :
    absDiff c x = 1 ↔ ¬(x + 6) % 2 = 0 := by
  unfold absDiff at *
  omega

theorem structTile_of_iff {b : Bool} {p : Prop} [Decidable p] (h : b = true ↔ ¬p) :
    structTile b = if p then 2 else 3 := by
  rw [structTile]
  split_ifs <;> tauto

theorem structTile_even (i : Nat) : structTile (i % 2 == 0) = if i % 2 = 0 then 3 else 2 := by simp [structTile]

theorem timingStamp_getD {x y : Nat} (h : x = 6 ∨ y = 6) :
    (timingStamp x y).getD 0 = if (x + y) % 2 = 0 then 3 else 2 := by
  unfold timingStamp
  split
  case isTrue hx =>
    have : (x + y) % 2 = y % 2 := by omega
    rw [Option.getD_some, structTile_even, this]
  case isFalse hx =>
    have : (x + y) % 2 = x % 2 := by omega
    rw [if_pos (by omega), Option.getD_some, structTile_even, this]

theorem finderAt_of_le {cx cy x y : Nat} (h : ringOf cx cy x y ≤ 4) :
    finderAt cx cy x y = some (if ringOf cx cy x y = 2 ∨ ringOf cx cy x y = 4 then 2 else 3) :=
  (if_pos h).trans (congrArg some (structTile_of_iff (by simp)))

theorem finderAt_of_gt {cx cy x y : Nat} (h : ¬ringOf cx cy x y ≤ 4) : finderAt cx cy x y = none := if_neg h

theorem finderStamp_of_le {n x y : Nat} {c : Nat × Nat} (hn : 21 ≤ n) (hc : c ∈ [(3, 3), (n - 4, 3), (3, n - 4)])
    (h : ringOf c.1 c.2 x y ≤ 4) :
    finderStamp n x y = some (if ringOf c.1 c.2 x y = 2 ∨ ringOf c.1 c.2 x y = 4 then 2 else 3) := by
  simp only [List.mem_cons, List.not_mem_nil, or_false] at hc
  have hxy := ringOf_le.1 h
  obtain rfl | rfl | rfl := hc
  · rw [finderStamp, finderAt_of_le h]
    rfl
  · rw [finderStamp, finderAt_of_gt (by rw [ringOf_le]; omega), finderAt_of_le h]
    rfl
  · rw [finderStamp, finderAt_of_gt (by rw [ringOf_le]; omega), finderAt_of_gt (by rw [ringOf_le]; omega),
      finderAt_of_le h]
    rfl

theorem alignAt_of_le {c : Nat × Nat} {x y : Nat} (h : ringOf c.1 c.2 x y ≤ 2) :
    alignAt c x y = some (if ringOf c.1 c.2 x y = 1 then 2 else 3) :=
  (if_pos h).trans (congrArg some (structTile_of_iff (by simp)))

theorem alignStamp_eq_none {v x y : Nat} (h : ∀ c ∈ alignCentres v, ¬ringOf c.1 c.2 x y ≤ 2) :
    alignStamp v x y = none :=
  List.findSome?_eq_none_iff.2 fun c hc => if_neg (h c hc)

theorem darkStamp_eq_none {n x y : Nat} (h : ¬(x = 8 ∧ y = n - 8)) : darkStamp n x y = none := if_neg h

theorem formatStamp_of_mem {n x y : Nat} (hn : 21 ≤ n) (h : (x, y) ∈ formatTiles n) :
    formatStamp n x y = some 2 := by
  have h8 : (x == 8 || y == 8) = true := by
    have := (mem_formatTiles hn).1 h
    simp only [Bool.or_eq_true, beq_iff_eq]
    omega
  simp [formatStamp, h8, h, structTile]

theorem formatStamp_eq_none {n x y : Nat} (h : (x, y) ∉ formatTiles n) : formatStamp n x y = none := by
  simp [formatStamp, h]

theorem versionBlock_eq_none {v n a b : Nat} (h : ¬(n - 11 ≤ a ∧ a ≤ n - 9 ∧ b ≤ 5)) :
    versionBlock v n a b = none :=
  if_neg h

/-- Bit `i` of the version word in its block. -/
theorem versionBlock_bit {v n i : Nat} (hn : 21 ≤ n) (hi : i < 18) :
    versionBlock v n (n - 11 + i % 3) (i / 3) = some (if (versionWord v).getLsbD i then 3 else 2) := by
  have hbit : 3 * (i / 3) + (n - 11 + i % 3 - (n - 11)) = i := by omega
  rw [versionBlock, if_pos (by omega), hbit, structTile]

theorem versionStamp_eq_none {v n x y : Nat} (h : ¬(n - 11 ≤ x ∧ x ≤ n - 9 ∧ y ≤ 5))
    (h' : ¬(n - 11 ≤ y ∧ y ≤ n - 9 ∧ x ≤ 5)) : versionStamp v n x y = none := by
  rw [versionStamp, versionBlock_eq_none h, versionBlock_eq_none h']
  exact ite_self _

/-! ## The alignment centres (R168) -/

/-- A centre lies on even coordinates, and on or well off the lines of the finders, but on no finder. -/
theorem alignCentre_bounds {v : Nat} (h1 : 1 ≤ v) (h26 : v ≤ 26) : ∀ c ∈ alignCentres v,
    (c.1 % 2 = 0 ∧ (c.1 = 6 ∨ c.1 = gridSide v - 7 ∨ 16 ≤ c.1 ∧ c.1 ≤ gridSide v - 17)) ∧
    (c.2 % 2 = 0 ∧ (c.2 = 6 ∨ c.2 = gridSide v - 7 ∨ 16 ≤ c.2 ∧ c.2 ≤ gridSide v - 17)) ∧
    c ≠ (6, 6) ∧ c ≠ (6, gridSide v - 7) ∧ c ≠ (gridSide v - 7, 6) := by
  interval_cases v <;> decide

/-- No two patterns overlap. -/
theorem alignCoords_apart {v : Nat} (h1 : 1 ≤ v) (h26 : v ≤ 26) :
    ∀ c ∈ alignCoords v, ∀ d ∈ alignCoords v, c = d ∨ c + 5 ≤ d ∨ d + 5 ≤ c := by
  interval_cases v <;> decide

theorem mem_alignCoords_of_mem_alignCentres {v : Nat} {c : Nat × Nat} (hc : c ∈ alignCentres v) :
    c.1 ∈ alignCoords v ∧ c.2 ∈ alignCoords v := by
  obtain ⟨⟨i, j⟩, hp, rfl⟩ := List.mem_map.1 hc
  obtain ⟨⟨hi, hj⟩, -⟩ := mem_alignPairs.1 hp
  simp [hi, hj]

section
variable {v : Nat} (h1 : 1 ≤ v) (h26 : v ≤ 26)
include h1 h26

theorem eq_of_mem_alignCentres {c d : Nat × Nat} {x y : Nat} (hc : c ∈ alignCentres v) (hd : d ∈ alignCentres v)
    (hcxy : ringOf c.1 c.2 x y ≤ 2) (hdxy : ringOf d.1 d.2 x y ≤ 2) : c = d := by
  obtain ⟨hc1, hc2⟩ := mem_alignCoords_of_mem_alignCentres hc
  obtain ⟨hd1, hd2⟩ := mem_alignCoords_of_mem_alignCentres hd
  have hx := alignCoords_apart h1 h26 _ hc1 _ hd1
  have hy := alignCoords_apart h1 h26 _ hc2 _ hd2
  rw [ringOf_le] at hcxy hdxy
  exact Prod.ext (by omega) (by omega)

theorem alignStamp_of_mem {c : Nat × Nat} {x y : Nat} (hc : c ∈ alignCentres v) (h : ringOf c.1 c.2 x y ≤ 2) :
    alignStamp v x y = some (if ringOf c.1 c.2 x y = 1 then 2 else 3) := by
  rw [← alignAt_of_le h]
  cases hstamp : alignStamp v x y with
  | none => exact absurd (List.findSome?_eq_none_iff.1 hstamp c hc) (by rw [alignAt_of_le h]; simp)
  | some t =>
    obtain ⟨d, hd, ht⟩ := List.exists_of_findSome?_eq_some hstamp
    have hring : ringOf d.1 d.2 x y ≤ 2 := by
      by_contra hgt
      exact absurd ((if_neg hgt).symm.trans ht) (by simp)
    rw [eq_of_mem_alignCentres h1 h26 hc hd h hring, ht]

/-! ## What a tile is where no later rule stamps -/

theorem structTileAt_finder {c : Nat × Nat} {x y : Nat}
    (hc : c ∈ [(3, 3), (gridSide v - 4, 3), (3, gridSide v - 4)]) (hx : x < gridSide v) (h : ringOf c.1 c.2 x y ≤ 4) :
    structTileAt v x y = if ringOf c.1 c.2 x y = 2 ∨ ringOf c.1 c.2 x y = 4 then 2 else 3 := by
  have hn := gridSide_eq h1 h26
  have hstamp := finderStamp_of_le (by omega) hc h
  have hregion : (x ≤ 7 ∨ gridSide v - 8 ≤ x) ∧ (y ≤ 7 ∨ gridSide v - 8 ≤ y) ∧ (x ≤ 7 ∨ y ≤ 7) := by
    have hxy := ringOf_le.1 h
    simp only [List.mem_cons, List.not_mem_nil, or_false, Prod.ext_iff] at hc
    omega
  have halign : alignStamp v x y = none := alignStamp_eq_none fun d hd => by
    obtain ⟨dx, dy⟩ := d
    obtain ⟨⟨-, hdx⟩, ⟨-, hdy⟩, hne⟩ := alignCentre_bounds h1 h26 _ hd
    simp only [ne_eq, Prod.mk.injEq] at hne
    rw [ringOf_le]
    omega
  rw [structTileAt, versionStamp_eq_none (by omega) (by omega), darkStamp_eq_none (by omega),
    formatStamp_eq_none (by rw [mem_formatTiles (by omega)]; omega), halign, hstamp]
  rfl

theorem structTileAt_align {c : Nat × Nat} {x y : Nat} (hc : c ∈ alignCentres v) (h : ringOf c.1 c.2 x y ≤ 2) :
    structTileAt v x y = if ringOf c.1 c.2 x y = 1 then 2 else 3 := by
  have hn := gridSide_eq h1 h26
  have hstamp := alignStamp_of_mem h1 h26 hc h
  obtain ⟨cx, cy⟩ := c
  obtain ⟨⟨-, hcx⟩, ⟨-, hcy⟩, hne⟩ := alignCentre_bounds h1 h26 _ hc
  simp only [ne_eq, Prod.mk.injEq] at hne
  have hxy := ringOf_le.1 h
  rw [structTileAt, versionStamp_eq_none (by omega) (by omega), darkStamp_eq_none (by omega),
    formatStamp_eq_none (by rw [mem_formatTiles (by omega)]; omega), hstamp]
  rfl

/-- The patterns on a timing line agree with it, as their centres lie on even coordinates. -/
theorem structTileAt_timing {x y : Nat}
    (hxy : x = 6 ∧ 8 ≤ y ∧ y ≤ gridSide v - 9 ∨ y = 6 ∧ 8 ≤ x ∧ x ≤ gridSide v - 9) :
    structTileAt v x y = if (x + y) % 2 = 0 then 3 else 2 := by
  have hn := gridSide_eq h1 h26
  by_cases halign : ∃ c ∈ alignCentres v, ringOf c.1 c.2 x y ≤ 2
  · obtain ⟨⟨cx, cy⟩, hc, h⟩ := halign
    rw [structTileAt_align h1 h26 hc h]
    obtain ⟨⟨hex, hcx⟩, ⟨hey, hcy⟩, -⟩ := alignCentre_bounds h1 h26 _ hc
    have hle := ringOf_le.1 h
    obtain ⟨rfl, hy⟩ | ⟨rfl, hx⟩ := hxy
    · obtain rfl : cx = 6 := by omega
      rw [ringOf_column] at h ⊢
      simp only [absDiff_eq_one_iff hey h, Nat.add_comm 6 y, ite_not]
    · obtain rfl : cy = 6 := by omega
      rw [ringOf_row] at h ⊢
      simp only [absDiff_eq_one_iff hex h, ite_not]
  · have hfinder {cx cy : Nat} (hc : cx = 3 ∧ (cy = 3 ∨ cy = gridSide v - 4) ∨ cx = gridSide v - 4 ∧ cy = 3) :
        finderAt cx cy x y = none := finderAt_of_gt (by rw [ringOf_le]; omega)
    rw [structTileAt, versionStamp_eq_none (by omega) (by omega), darkStamp_eq_none (by omega),
      formatStamp_eq_none (by rw [mem_formatTiles (by omega)]; omega),
      alignStamp_eq_none fun c hc h => halign ⟨c, hc, h⟩, finderStamp, hfinder (by omega), hfinder (by omega),
      hfinder (by omega)]
    exact timingStamp_getD (hxy.imp And.left And.left)

theorem structTileAt_format {x y : Nat} (h : (x, y) ∈ formatTiles (gridSide v)) : structTileAt v x y = 2 := by
  have hn := gridSide_eq h1 h26
  have hxy := (mem_formatTiles (by omega)).1 h
  rw [structTileAt, versionStamp_eq_none (by omega) (by omega), darkStamp_eq_none (by omega),
    formatStamp_of_mem (by omega) h]
  rfl

theorem structTileAt_dark : structTileAt v 8 (gridSide v - 8) = 3 := by
  have hn := gridSide_eq h1 h26
  rw [structTileAt, versionStamp_eq_none (by omega) (by omega), darkStamp, if_pos ⟨rfl, rfl⟩]
  rfl

theorem structTileAt_version (h7 : 7 ≤ v) {i : Nat} (hi : i < 18) :
    structTileAt v (gridSide v - 11 + i % 3) (i / 3) = (if (versionWord v).getLsbD i then 3 else 2) ∧
      structTileAt v (i / 3) (gridSide v - 11 + i % 3) = (if (versionWord v).getLsbD i then 3 else 2) := by
  have hn := gridSide_eq h1 h26
  have hbit := versionBlock_bit (v := v) (n := gridSide v) (by omega) hi
  refine ⟨?_, ?_⟩
  · rw [structTileAt, versionStamp, if_neg (by omega), hbit]
    rfl
  · rw [structTileAt, versionStamp, if_neg (by omega), versionBlock_eq_none (by omega), hbit]
    rfl

end

theorem firstCopy_mem_formatTiles (n : Nat) {i : Nat} (hi : i < 15) : firstCopy i ∈ formatTiles n :=
  List.mem_flatMap.2 ⟨i, List.mem_range.2 hi, by simp⟩

theorem secondCopy_mem_formatTiles (n : Nat) {i : Nat} (hi : i < 15) : secondCopy n i ∈ formatTiles n :=
  List.mem_flatMap.2 ⟨i, List.mem_range.2 hi, by simp⟩

/-- Settles O44: element by element; a tile without the structural flag was stamped by no rule. -/
theorem structuralElementsStandWhole : Obligations.StructuralElementsStandWhole := by
  unfold Obligations.StructuralElementsStandWhole
  intro v h1 h26
  refine ⟨fun c hc x y hx _ => structTileAt_finder h1 h26 hc hx, fun i h8 hi => ⟨?_, ?_⟩,
    fun c hc x y => structTileAt_align h1 h26 hc, fun i hi => ⟨?_, ?_⟩, structTileAt_dark h1 h26,
    fun h7 i => structTileAt_version h1 h26 h7, fun x y h => ?_⟩
  · have htile := structTileAt_timing h1 h26 (x := i) (y := 6) (.inr ⟨rfl, h8, hi⟩)
    rwa [show (i + 6) % 2 = i % 2 by omega] at htile
  · have htile := structTileAt_timing h1 h26 (x := 6) (y := i) (.inl ⟨rfl, h8, hi⟩)
    rwa [show (6 + i) % 2 = i % 2 by omega] at htile
  · exact structTileAt_format h1 h26 (firstCopy_mem_formatTiles _ hi)
  · exact structTileAt_format h1 h26 (secondCopy_mem_formatTiles _ hi)
  · obtain h0 | ⟨dark, hdark⟩ := structTileAt_cases v x y
    · exact h0
    · rw [hdark, isStructural_structTile] at h
      cases h

end Sys2Proof.Machine
